-- ==== Sys2Proof/Word.lean ====
section
/-! DEFINITION. The word types of FFTCORE: bytes, 64-bit words, binary64 patterns, complex values. -/

namespace Sys2Proof

/-- A byte, as a host that names the bytes of a word sees it (R59). -/
abbrev Byte := BitVec 8

/-- The 64-bit data word of the bus, of every register and of every memory word (R9, R47). -/
abbrev Word := BitVec 64

/-- A binary64 value: exactly its 64-bit pattern (R14). -/
abbrev F64 := BitVec 64

/-- A complex value, the pair of its real and imaginary parts (R15). -/
structure C64 where
  re : F64
  im : F64
  deriving DecidableEq, Repr, Inhabited

end Sys2Proof
end

