-- ==== Sys2Proof/Config.lean ====
section
/-! DEFINITION. What an implementation fixes (P_MAX, TW) and the draws the spec leaves free (NAN_OUT, the
reads during BUSY). None of the opaque constants has a value that a proof can see. -/

namespace Sys2Proof

/-- A legal value of the parameter P_MAX, an integer from 1 to 20 (R6). -/
structure PMax where
  val : Nat
  pos : 1 ≤ val
  le_twenty : val ≤ 20
  deriving DecidableEq, Repr

/-- N_MAX = 2^P_MAX, the number of entries of X and of Y (R7). -/
def PMax.nMax (p : PMax) : Nat := 2 ^ p.val

/-- P_MAX - 1 of this machine, left free (R6; log 1). -/
opaque Config.pMaxIndex : Fin 20

/-- P_MAX of this machine: any integer from 1 to 20 (R6; log 1). -/
def Config.pMax : PMax :=
  ⟨Config.pMaxIndex.val + 1, Nat.succ_le_succ (Nat.zero_le _), Config.pMaxIndex.isLt⟩

/-- TW, the twiddle function of this machine's TWU: a function of (k, m) under no law (R10, R96; log 2). -/
opaque Config.tw : Word → Word → C64

/-- NAN_OUT: the sign and the 51 payload bits of the n-th NaN an arithmetic operation produces (R11, R19;
log 3). -/
opaque Config.nanOut : Nat → Bool × BitVec 51

/-- What the n-th host read of an unstable place during BUSY returns (R134; log 6). -/
opaque Config.busyRead : Nat → Word

/-- IFACE_VERSION, the constant in ID[15:8] (R2, R28). -/
def Config.ifaceVersion : BitVec 8 := 0x01#8

/-- The ISA string of the interface (R2). No register holds it. -/
def Config.isaString : String := "FFTCORE-v1-binary64"

end Sys2Proof
end

