-- ==== Sys2Proof/Syntax.lean ====
section
/-! DEFINITION. The fourteen commands of FFTCORE (R74), with the places each one reads and writes. -/

namespace Sys2Proof

/-- A command, one constructor per row of the opcode table (R74). No command has an operand field: its
operands are fixed registers and fixed entries of X and Y (R73). -/
inductive Instr where
  | nop | cadd | csub | cmul | cscale | cconj | cnorm | cbfly
  | ispow2 | bitrev | twid | dft | stage | fft
  deriving DecidableEq, Repr

/-- The mnemonic of a command, as the opcode table spells it (R74). -/
def Instr.mnemonic : Instr → String
  | .nop => "NOP"
  | .cadd => "CADD"
  | .csub => "CSUB"
  | .cmul => "CMUL"
  | .cscale => "CSCALE"
  | .cconj => "CCONJ"
  | .cnorm => "CNORM"
  | .cbfly => "CBFLY"
  | .ispow2 => "ISPOW2"
  | .bitrev => "BITREV"
  | .twid => "TWID"
  | .dft => "DFT"
  | .stage => "STAGE"
  | .fft => "FFT"

/-- A place that a command reads or writes, in the words of the columns of R74. -/
inductive Operand where
  | regA | regB | regW | regS | regK | regM | regLen | memX | memY | resR0 | resR1 | flag
  deriving DecidableEq, Repr

/-- The column 'reads' of R74. -/
def Instr.reads : Instr → List Operand
  | .nop => []
  | .cadd => [.regA, .regB]
  | .csub => [.regA, .regB]
  | .cmul => [.regA, .regB]
  | .cscale => [.regA, .regS]
  | .cconj => [.regA]
  | .cnorm => [.regA]
  | .cbfly => [.regA, .regB, .regW]
  | .ispow2 => [.regLen]
  | .bitrev => [.regLen, .memX]
  | .twid => [.regK, .regM]
  | .dft => [.regLen, .memX]
  | .stage => [.regLen, .regM, .memY]
  | .fft => [.regLen, .memX]

/-- The column 'writes' of R74. -/
def Instr.writes : Instr → List Operand
  | .nop => []
  | .cadd => [.resR0]
  | .csub => [.resR0]
  | .cmul => [.resR0]
  | .cscale => [.resR0]
  | .cconj => [.resR0]
  | .cnorm => [.resR0]
  | .cbfly => [.resR0, .resR1]
  | .ispow2 => [.flag]
  | .bitrev => [.memY]
  | .twid => [.resR0]
  | .dft => [.memY]
  | .stage => [.memY]
  | .fft => [.memY]

end Sys2Proof
end

