-- ==== Sys2Proof/WellFormed.lean ====
section
/-! DEFINITION. Which command words are valid. A command has no operand field (R73), so every term of Instr is
well formed; what can be ill formed is a command WORD, by its reserved field or by its opcode (R71, R74). -/

namespace Sys2Proof

/-- RSV, bits [63:8] of a command word, is 0 (R71). -/
def rsvIsZero (v : Word) : Bool := v.extractLsb' 8 56 == 0#56

/-- OPC, bits [7:0] of a command word, is one of the fourteen values of the opcode table (R74). -/
def opcInTable (v : Word) : Bool := decide ((v.extractLsb' 0 8).toNat < 14)

/-- A command word is valid exactly when RSV = 0 and OPC is one of the fourteen values (R74). -/
def validWord (v : Word) : Bool := rsvIsZero v && opcInTable v

/-- No command carries an immediate or a register number (R73): no term of Instr is ill formed. -/
def Instr.wellFormed : Instr → Bool
  | .nop | .cadd | .csub | .cmul | .cscale | .cconj | .cnorm | .cbfly
  | .ispow2 | .bitrev | .twid | .dft | .stage | .fft => true

end Sys2Proof
end

