-- ==== Sys2Proof/Decode.lean ====
section
/-! DEFINITION. The decoder, total over all 2^64 command words (R75), and after it the encoder (R74). -/

namespace Sys2Proof

/-- Why a word decodes to Illegal: the two groups of R76. -/
inductive IllegalWhy where
  /-- RSV, bits [63:8], is not 0. -/
  | reservedBits
  /-- RSV is 0 and OPC is in 0x0E to 0xFF. -/
  | undefinedOpcode
  deriving DecidableEq, Repr

/-- What a command word decodes to (R75). -/
inductive Decoded where
  | command (i : Instr)
  | illegal (why : IllegalWhy)
  deriving DecidableEq, Repr

/-- The opcode map (R74). -/
def opcodeTable : List (BitVec 8 × Instr) :=
  [(0x00#8, .nop), (0x01#8, .cadd), (0x02#8, .csub), (0x03#8, .cmul), (0x04#8, .cscale), (0x05#8, .cconj),
   (0x06#8, .cnorm), (0x07#8, .cbfly), (0x08#8, .ispow2), (0x09#8, .bitrev), (0x0A#8, .twid),
   (0x0B#8, .dft), (0x0C#8, .stage), (0x0D#8, .fft)]

/-- The field OPC, bits [7:0] (R71). -/
def opcOf (v : Word) : BitVec 8 := v.extractLsb' 0 8

/-- The field RSV, bits [63:8] (R71). -/
def rsvOf (v : Word) : BitVec 56 := v.extractLsb' 8 56

/-- Decoding of a command word (R75). -/
def decode (v : Word) : Decoded :=
  if rsvOf v ≠ 0#56 then .illegal .reservedBits
  else
    match opcodeTable.lookup (opcOf v) with
    | some i => .command i
    | none => .illegal .undefinedOpcode

/-- The opcode of a command (R74). -/
def Instr.opc : Instr → BitVec 8
  | .nop => 0x00#8
  | .cadd => 0x01#8
  | .csub => 0x02#8
  | .cmul => 0x03#8
  | .cscale => 0x04#8
  | .cconj => 0x05#8
  | .cnorm => 0x06#8
  | .cbfly => 0x07#8
  | .ispow2 => 0x08#8
  | .bitrev => 0x09#8
  | .twid => 0x0A#8
  | .dft => 0x0B#8
  | .stage => 0x0C#8
  | .fft => 0x0D#8

/-- The word of a command: its opcode, zero-extended (R74). -/
def encode (i : Instr) : Word := i.opc.setWidth 64

/-- The command register's content when a word of nbits bits is written: a command is one 64-bit word (R72),
and every bit above nbits is 0. -/
def tableWord (nbits w : Nat) : Word := BitVec.ofNat 64 (w % 2 ^ nbits)

/-- The instruction the decoder reads from a word of the opcode table; none where it decodes to Illegal. -/
def decodeTableWord (nbits w : Nat) : Option Instr :=
  match decode (tableWord nbits w) with
  | .command i => some i
  | .illegal _ => none

end Sys2Proof
end

