-- ==== Sys2Proof/Machine/State.lean ====
section
/-! DEFINITION. The state of FFTCORE as plain data (R26 to R53), the reasons a step can stop, and reset. -/

namespace Sys2Proof.Machine

/-- Why the machine stops. -/
inductive Fault where
  /-- A host read or a command reads a word of X or Y that nothing has written (R48, H1). Raised by the bus read
  of XMEM and YMEM and by BITREV, DFT, STAGE and FFT. Safe: the hardware returns some value and goes on, and
  nothing may be proved of it. -/
  | unwrittenSample
  deriving DecidableEq, Repr

/-- Why an instruction has no meaning. -/
inductive Refusal where
  /-- The instruction has no meaning in the model. Raised by a refused arm of exec only; no arm is one. Safe. -/
  | notModelled (mnemonic : String)
  deriving DecidableEq, Repr

/-- The error codes of R113. Codes 0x06 to 0xFF are never reported, so they are no constructors. -/
inductive ErrCode where
  | none | illegalCmd | notPow2 | lenRange | mZero | badStage
  deriving DecidableEq, Repr

/-- The fields of STATUS (R31 to R36). Its other bits read 0 and are not stored. -/
structure Status where
  busy : Bool
  done : Bool
  err : Bool
  haz : Bool
  flag : Bool
  errCode : ErrCode
  deriving DecidableEq, Repr

/-- The hidden values of the sequencer and of the direct transform (R44). -/
structure Seq where
  /-- the stage size -/
  m : Nat
  /-- the block start -/
  k : Nat
  /-- the butterfly index -/
  j : Nat
  /-- the principal twiddle -/
  wm : C64
  /-- the rotation factor -/
  w : C64
  /-- the butterfly temporary `t = w * b` -/
  t : C64
  /-- the butterfly temporary `u` -/
  u : C64
  /-- the accumulator of DFT -/
  acc : C64
  deriving DecidableEq, Repr

/-- What a transform works on: the local array `a` (42_transforms.md), the hidden values, and the number of NaN
draws taken so far. -/
structure Work where
  a : List C64
  seq : Seq
  nan : Nat
  deriving DecidableEq, Repr

/-- The two kinds of bus transaction (R54). -/
inductive Kind where
  | read | write
  deriving DecidableEq, Repr

/-- The sizes a bus transaction can have: 1, 2, 4 or 8 bytes (R54). -/
inductive Size where
  | one | two | four | eight
  deriving DecidableEq, Repr

/-- A bus request (R54). The write data of a read means nothing. -/
structure Transaction where
  kind : Kind
  addr : BitVec 32
  size : Size
  wdata : Word
  deriving DecidableEq, Repr

/-- The two bus responses (R54). -/
inductive Resp where
  | okay | error
  deriving DecidableEq, Repr

/-- A bus response (R54). A served write returns no read data (log 15). -/
structure Response where
  resp : Resp
  rdata : Option Word
  deriving DecidableEq, Repr

/-- A move of one of the two agents (R25): the host performs a transaction, or the core has its turn. -/
inductive Move where
  | host (t : Transaction)
  | core
  deriving DecidableEq, Repr

/-- The state of FFTCORE, its sample memories and its two agents' pending moves. -/
structure State where
  /-- P_MAX, all that varies in the constant register ID (R28) -/
  pMax : PMax
  /-- CTRL[0], IRQ_EN (R29) -/
  irqEn : Bool
  /-- STATUS (R31 to R36) -/
  status : Status
  /-- LEN (R37) -/
  len : Word
  /-- K (R38) -/
  k : Word
  /-- M (R38) -/
  m : Word
  /-- S (R39) -/
  s : F64
  /-- A_RE, A_IM (R40) -/
  a : C64
  /-- B_RE, B_IM (R40) -/
  b : C64
  /-- W_RE, W_IM (R40) -/
  w : C64
  /-- R0_RE, R0_IM (R41) -/
  r0 : C64
  /-- R1_RE, R1_IM (R41) -/
  r1 : C64
  /-- PCMD, the accepted command word (R44) -/
  pcmd : Word
  /-- the hidden values of SEQ and DFT (R44) -/
  seq : Seq
  /-- the bytes of X and Y, by bus address (R45, R46, R55; log 12) -/
  mem : List Host.Cell
  /-- the moves not yet taken, oldest first: the interleaving of R65 (log 8) -/
  agenda : List Move
  /-- the response of the latest bus transaction (R54; log 15) -/
  resp : Option Response
  /-- the model's own: how many NAN_OUT draws have been taken (R19; log 3) -/
  nanDraws : Nat
  /-- the model's own: how many host reads have taken a draw (R134; log 6) -/
  readDraws : Nat
  deriving DecidableEq, Repr

/-- `(+0.0, +0.0)`, the reset value of every operand and result pair (R53). -/
def cZero : C64 := ⟨0#64, 0#64⟩

/-- STATUS after reset: 0 (R53). -/
def Status.reset : Status := ⟨false, false, false, false, false, .none⟩

/-- The hidden values after reset: the spec leaves them unspecified and unobservable (R53; log 14). -/
def Seq.reset : Seq := ⟨0, 0, 0, cZero, cZero, cZero, cZero, cZero⟩

/-- The machine right after reset (R53, R131): idle, every register 0, nothing of X and Y written. -/
def State.reset : State where
  pMax := Config.pMax
  irqEn := false
  status := Status.reset
  len := 0#64
  k := 0#64
  m := 0#64
  s := 0#64
  a := cZero
  b := cZero
  w := cZero
  r0 := cZero
  r1 := cZero
  pcmd := 0#64
  seq := Seq.reset
  mem := []
  agenda := []
  resp := none
  nanDraws := 0
  readDraws := 0

/-! One update per register or memory. Sys2Proof/Laws/State.lean says of each what every field is after it. -/

def State.withIrqEn (s : State) (v : Bool) : State := { s with irqEn := v }
def State.withStatus (s : State) (v : Status) : State := { s with status := v }
def State.withLen (s : State) (v : Word) : State := { s with len := v }
def State.withK (s : State) (v : Word) : State := { s with k := v }
def State.withM (s : State) (v : Word) : State := { s with m := v }
def State.withS (s : State) (v : F64) : State := { s with s := v }
def State.withA (s : State) (v : C64) : State := { s with a := v }
def State.withB (s : State) (v : C64) : State := { s with b := v }
def State.withW (s : State) (v : C64) : State := { s with w := v }
def State.withR0 (s : State) (v : C64) : State := { s with r0 := v }
def State.withR1 (s : State) (v : C64) : State := { s with r1 := v }
def State.withPcmd (s : State) (v : Word) : State := { s with pcmd := v }
def State.withSeq (s : State) (v : Seq) : State := { s with seq := v }
def State.withMem (s : State) (v : List Host.Cell) : State := { s with mem := v }
def State.withAgenda (s : State) (v : List Move) : State := { s with agenda := v }
def State.withResp (s : State) (v : Option Response) : State := { s with resp := v }
def State.withNanDraws (s : State) (v : Nat) : State := { s with nanDraws := v }
def State.withReadDraws (s : State) (v : Nat) : State := { s with readDraws := v }

end Sys2Proof.Machine
end

