-- ==== Sys2Proof/Machine/Float.lean ====
section
/-! DEFINITION. binary64 arithmetic (R14, R17, R18, R19). A finite value is read as an integer number of units of
2^-1074, the least subnormal; every operation computes its exact result on integers and rounds it once, to
nearest, ties to even. -/

namespace Sys2Proof.Machine

/-- The sign, bit 63 (R14). -/
def fSign (x : F64) : Bool := x.msb

/-- The biased exponent, bits [62:52] (R14). -/
def fExp (x : F64) : Nat := (x.extractLsb' 52 11).toNat

/-- The fraction, bits [51:0] (R14). -/
def fFrac (x : F64) : Nat := (x.extractLsb' 0 52).toNat

/-- A NaN: the exponent is all ones and the fraction is not 0. -/
def fIsNaN (x : F64) : Bool := fExp x == 2047 && fFrac x != 0

/-- An infinity: the exponent is all ones and the fraction is 0. -/
def fIsInf (x : F64) : Bool := fExp x == 2047 && fFrac x == 0

/-- A finite value: the exponent is not all ones. -/
def fIsFinite (x : F64) : Bool := fExp x != 2047

/-- +0 or -0. -/
def fIsZero (x : F64) : Bool := fExp x == 0 && fFrac x == 0

/-- The magnitude of a finite value, in units of 2^-1074; subnormals in full (R18). -/
def fMag (x : F64) : Nat :=
  if fExp x = 0 then fFrac x else (2 ^ 52 + fFrac x) * 2 ^ (fExp x - 1)

/-- The value of a finite f64, in units of 2^-1074. -/
def fUnits (x : F64) : Int := if fSign x then -(fMag x : Int) else (fMag x : Int)

/-- The infinity of a sign. -/
def fInf (neg : Bool) : F64 := BitVec.ofBool neg ++ BitVec.ofNat 63 (2047 * 2 ^ 52)

/-- The zero of a sign. -/
def fZero (neg : Bool) : F64 := BitVec.ofBool neg ++ 0#63

/-- 1.0, 0x3FF0000000000000. -/
def fOne : F64 := 0x3FF0000000000000#64

/-- `n / 2^k` rounded to the nearest integer, ties to even. -/
def roundShift (n k : Nat) : Nat :=
  let q := n / 2 ^ k
  let r := n % 2 ^ k
  if 2 ^ k < 2 * r ∨ (2 * r = 2 ^ k ∧ q % 2 = 1) then q + 1 else q

/-- Bits [62:0] of the f64 nearest to `n * 2^-(1074 + sh)`, ties to even. `k` is the number of low bits of `n`
that the result has no room for; a rounding that carries out of the significand steps the exponent, and one that
passes the largest finite value gives the pattern of infinity. -/
def packMag (n sh : Nat) : Nat :=
  let k := max sh (Nat.log2 n - 52)
  min ((k - sh) * 2 ^ 52 + roundShift n k) (2047 * 2 ^ 52)

/-- The f64 nearest to `n * 2^-(1074 + sh)`, with a sign (R17). -/
def pack (neg : Bool) (n sh : Nat) : F64 := BitVec.ofBool neg ++ BitVec.ofNat 63 (packMag n sh)

/-- The sum, before its NaN bits are drawn; none is a NaN (R17, R18, R19). -/
def addCore (a b : F64) : Option F64 :=
  if fIsNaN a || fIsNaN b then none
  else if fIsInf a then
    if fIsInf b && (fSign a != fSign b) then none else some a
  else if fIsInf b then some b
  else
    let z := fUnits a + fUnits b
    if z = 0 then some (fZero (fSign a && fSign b))
    else some (pack (decide (z < 0)) z.natAbs 0)

/-- Negation: bit 63 inverted, exact for every input, NaN included (R17). -/
def fneg (a : F64) : F64 := a ^^^ 0x8000000000000000#64

/-- The difference `a - b`: the sum of `a` and `b` with its sign inverted (R17, R18). -/
def subCore (a b : F64) : Option F64 := addCore a (fneg b)

/-- The product, before its NaN bits are drawn (R17, R18, R19). -/
def mulCore (a b : F64) : Option F64 :=
  if fIsNaN a || fIsNaN b then none
  else if fIsInf a || fIsInf b then
    if fIsZero a || fIsZero b then none else some (fInf (fSign a != fSign b))
  else some (pack (fSign a != fSign b) (fMag a * fMag b) 1074)

/-- The integer square root of `n < 4^bits`, found bit by bit from the top: `r` is the part found so far. -/
def isqrtFrom (n : Nat) : Nat → Nat → Nat
  | 0, r => r
  | b + 1, r => isqrtFrom n b (if (r + 2 ^ b) ^ 2 ≤ n then r + 2 ^ b else r)

/-- The square root of a finite magnitude, rounded once. The magnitude is `c * 2^e` units; `c` is scaled by `4^54`
so that its integer square root has more than 53 bits, and a last bit, set when the root is inexact, keeps the
rounding right. -/
def sqrtMag (x : F64) : F64 :=
  let e := fExp x - 1
  let c := if fExp x = 0 then fFrac x else 2 ^ 52 + fFrac x
  let c' := if e % 2 = 1 then 2 * c else c
  let n := c' * 4 ^ 54
  let r := isqrtFrom n 82 0
  let sticky := if r * r = n then 0 else 1
  pack false ((2 * r + sticky) * 2 ^ (e / 2 + 482)) 0

/-- The square root, before its NaN bits are drawn (R17, R19). The root of -0 is -0 (log 20). -/
def sqrtCore (a : F64) : Option F64 :=
  if fIsNaN a then none
  else if fIsZero a then some a
  else if fSign a then none
  else if fIsInf a then some a
  else some (sqrtMag a)

/-- `num / den` rounded to the nearest f64, for `den` not 0: the quotient in units of 2^-1075, with a last bit set
when it is inexact. -/
def packRatio (neg : Bool) (num den : Nat) : F64 :=
  let n := num * 2 ^ 1075
  pack neg (2 * (n / den) + (if n % den = 0 then 0 else 1)) 2

/-- The quotient (R17): used by the reference twiddle configuration only; none is a NaN. -/
def divCore (a b : F64) : Option F64 :=
  let neg := fSign a != fSign b
  if fIsNaN a || fIsNaN b then none
  else if fIsInf a then (if fIsInf b then none else some (fInf neg))
  else if fIsInf b then some (fZero neg)
  else if fIsZero b then (if fIsZero a then none else some (fInf neg))
  else some (packRatio neg (fMag a) (fMag b))

/-- u64_to_f64: an unsigned 64-bit integer rounded to the nearest f64, ties to even (R17). -/
def u64ToF64 (n : Word) : F64 := pack false (n.toNat * 2 ^ 1074) 0

/-- The quiet NaN of the `n`-th draw: its sign and payload are NAN_OUT (R19; log 3, log 4). -/
def nanDraw (n : Nat) : F64 :=
  BitVec.ofBool (Config.nanOut n).1 ++ (0xFFF#12 ++ (Config.nanOut n).2)

/-- A result whose NaN bits, if it is a NaN, are drawn; `n` counts the draws (R19). -/
def drawNaN (r : Option F64) (n : Nat) : F64 × Nat :=
  match r with
  | some x => (x, n)
  | none => (nanDraw n, n + 1)

/-- fadd (R17, R19). -/
def fadd (a b : F64) (n : Nat) : F64 × Nat := drawNaN (addCore a b) n

/-- fsub (R17, R19). -/
def fsub (a b : F64) (n : Nat) : F64 × Nat := drawNaN (subCore a b) n

/-- fmul (R17, R19). -/
def fmul (a b : F64) (n : Nat) : F64 × Nat := drawNaN (mulCore a b) n

/-- fsqrt (R17, R19). -/
def fsqrt (a : F64) (n : Nat) : F64 × Nat := drawNaN (sqrtCore a) n

end Sys2Proof.Machine
end

