-- ==== Sys2Proof/Machine/Memory.lean ====
section
/-! DEFINITION. The memory of the bus address space as a list of bytes in canonical form, the 64-bit words in it
(R47, R59), and the address map (R26, R55). -/

namespace Sys2Proof.Machine

/-! ## Bytes -/

/-- The canonical form: addresses strictly rising, so that equal memories are equal lists. An unlisted address has
no value (R48), so no entry can equal it. -/
abbrev Memory.wf (m : List Host.Cell) : Prop := m.Pairwise (fun c d => c.1 < d.1)

/-- The byte at an address; none where nothing has been written (R48). -/
def memByte (m : List Host.Cell) (addr : Nat) : Option Byte := m.lookup addr

/-- Write one byte, keeping the canonical form. -/
def memPut (addr : Nat) (v : Byte) : List Host.Cell → List Host.Cell
  | [] => [(addr, v)]
  | c :: cs =>
    if addr < c.1 then (addr, v) :: c :: cs
    else if addr = c.1 then (addr, v) :: cs
    else c :: memPut addr v cs

/-! ## Words -/

/-- The little-endian value of `n` bytes from `addr` upward (R59); none where one of them is unwritten. -/
def memGetLE (m : List Host.Cell) (addr : Nat) : Nat → Option Nat
  | 0 => some 0
  | n + 1 =>
    match memByte m addr, memGetLE m (addr + 1) n with
    | some b, some v => some (b.toNat + 256 * v)
    | _, _ => none

/-- Write `n` bytes from `addr` upward, little-endian (R59). -/
def memPutLE (m : List Host.Cell) (addr : Nat) : Nat → Nat → List Host.Cell
  | 0, _ => m
  | n + 1, v => memPutLE (memPut addr (BitVec.ofNat 8 v) m) (addr + 1) n (v / 256)

/-- The 64-bit word at an address; none where nothing has written it (R47, R48, R59). -/
def memWord (m : List Host.Cell) (addr : Nat) : Option Word :=
  (memGetLE m addr 8).map (BitVec.ofNat 64)

/-- Write the 64-bit word at an address (R47, R59). -/
def memPutWord (m : List Host.Cell) (addr : Nat) (v : Word) : List Host.Cell :=
  memPutLE m addr 8 v.toNat

/-! ## Entries: the real part at the lower word, the imaginary part at the upper (R47) -/

/-- The C64 entry at an address; none where a word of it is unwritten. -/
def memEntry (m : List Host.Cell) (addr : Nat) : Option C64 :=
  match memWord m addr, memWord m (addr + 8) with
  | some re, some im => some ⟨re, im⟩
  | _, _ => none

/-- Write the C64 entry at an address. -/
def memPutEntry (m : List Host.Cell) (addr : Nat) (c : C64) : List Host.Cell :=
  memPutWord (memPutWord m addr c.re) (addr + 8) c.im

/-- `n` entries from `addr` upward; none where a word of one is unwritten (R48). -/
def memSignal (m : List Host.Cell) (addr : Nat) : Nat → Option (List C64)
  | 0 => some []
  | n + 1 =>
    match memEntry m addr, memSignal m (addr + 16) n with
    | some c, some cs => some (c :: cs)
    | _, _ => none

/-- Write the entries of a list from `addr` upward. -/
def memPutSignal (m : List Host.Cell) (addr : Nat) : List C64 → List Host.Cell
  | [] => m
  | c :: cs => memPutSignal (memPutEntry m addr c) (addr + 16) cs

/-! ## The address map (R55) -/

/-- The first address above the register window. -/
def regsEnd : Nat := 0x100

/-- The base of XMEM. -/
def xBase : Nat := 0x01000000

/-- The base of YMEM. -/
def yBase : Nat := 0x02000000

/-- The address of X[i].re. -/
def xAddr (i : Nat) : Nat := xBase + 16 * i

/-- The address of Y[i].re. -/
def yAddr (i : Nat) : Nat := yBase + 16 * i

/-- The registers of the window, one per part (R26). -/
inductive RegName where
  | id | ctrl | cmd | status | len | k | m | s
  | aRe | aIm | bRe | bIm | wRe | wIm | r0Re | r0Im | r1Re | r1Im
  deriving DecidableEq, Repr

/-- The byte offset of a register in the window (R26). -/
def RegName.offset : RegName → Nat
  | .id => 0x00
  | .ctrl => 0x08
  | .cmd => 0x10
  | .status => 0x18
  | .len => 0x20
  | .k => 0x28
  | .m => 0x30
  | .s => 0x38
  | .aRe => 0x40
  | .aIm => 0x48
  | .bRe => 0x50
  | .bIm => 0x58
  | .wRe => 0x60
  | .wIm => 0x68
  | .r0Re => 0x70
  | .r0Im => 0x78
  | .r1Re => 0x80
  | .r1Im => 0x88

/-- The registers in the order of the window (R26). -/
def RegName.all : List RegName :=
  [.id, .ctrl, .cmd, .status, .len, .k, .m, .s, .aRe, .aIm, .bRe, .bIm, .wRe, .wIm, .r0Re, .r0Im, .r1Re, .r1Im]

/-- The register at an offset; none at a reserved offset (R26, R42). -/
def regAt (offset : Nat) : Option RegName := RegName.all.find? (fun r => r.offset == offset)

/-- What stands at a mapped address (R55): a register, a reserved offset, or the word of X or Y at that address. -/
inductive Place where
  | reg (r : RegName)
  | reserved
  | xWord (addr : Nat)
  | yWord (addr : Nat)
  deriving DecidableEq, Repr

/-- What stands at an address; none where it is unmapped (R55). -/
def placeAt (p : PMax) (addr : Nat) : Option Place :=
  if addr < regsEnd then
    some (match regAt addr with
      | some r => .reg r
      | none => .reserved)
  else if xBase ≤ addr ∧ addr < xBase + 16 * p.nMax then some (.xWord addr)
  else if yBase ≤ addr ∧ addr < yBase + 16 * p.nMax then some (.yWord addr)
  else none

end Sys2Proof.Machine
end

