-- ==== Sys2Proof/Machine/Flags.lean ====
section
/-! DEFINITION. The words of ID, CTRL and STATUS as the host reads them (R28, R29, R31 to R36), the write-1-to-clear
bits, the value of FLAG (R21, R93), and the interrupt output (R118). -/

namespace Sys2Proof.Machine

/-- The 8-bit value of an error code (R113). -/
def ErrCode.toByte : ErrCode → BitVec 8
  | .none => 0x00#8
  | .illegalCmd => 0x01#8
  | .notPow2 => 0x02#8
  | .lenRange => 0x03#8
  | .mZero => 0x04#8
  | .badStage => 0x05#8

/-- ID: P_MAX in [7:0], IFACE_VERSION in [15:8], 0 above (R28). -/
def idWord (p : PMax) : Word := 0#48 ++ (Config.ifaceVersion ++ BitVec.ofNat 8 p.val)

/-- CTRL: IRQ_EN in [0], 0 above (R29). -/
def ctrlWord (irqEn : Bool) : Word := 0#63 ++ BitVec.ofBool irqEn

/-- STATUS: BUSY, DONE, ERR, HAZ, FLAG in [0] to [4], ERRCODE in [15:8], 0 elsewhere (R31 to R36). -/
def statusWord (st : Status) : Word :=
  0#48 ++ (st.errCode.toByte ++ (0#3 ++ (BitVec.ofBool st.flag ++ (BitVec.ofBool st.haz ++
    (BitVec.ofBool st.err ++ (BitVec.ofBool st.done ++ BitVec.ofBool st.busy))))))

/-- A host write of STATUS: a 1 in bit 1, 2 or 3 clears DONE, ERR or HAZ; clearing ERR clears ERRCODE too; nothing
else of the written word acts (R27, R32, R33, R34, R36). -/
def Status.w1c (st : Status) (v : Word) : Status :=
  { st with
    done := st.done && !v.getLsbD 1
    err := st.err && !v.getLsbD 2
    errCode := if v.getLsbD 2 then .none else st.errCode
    haz := st.haz && !v.getLsbD 3 }

/-- is_pow2: `n ≠ 0 and n & (n - 1) = 0` (R21). For `n = 0` the subtraction is not reached (R93). -/
def isPow2 (n : Word) : Bool := n != 0#64 && (n &&& (n - 1#64)) == 0#64

/-- The interrupt output, `IRQ_EN & DONE` (R118). -/
def irq (s : State) : Bool := s.irqEn && s.status.done

end Sys2Proof.Machine
end

