-- ==== Sys2Proof/Machine/Operands.lean ====
section
/-! DEFINITION. The operand forms of R73: u64, f64, C64 and signal. Nothing is extended, scaled or shifted when it
is read. -/

namespace Sys2Proof.Machine

/-- The u64 operands LEN, K and M, read as unsigned integers (R73). -/
def operandLen (s : State) : Nat := s.len.toNat
def operandK (s : State) : Nat := s.k.toNat
def operandM (s : State) : Nat := s.m.toNat

/-- The f64 operand S (R39, R73). -/
def operandS (s : State) : F64 := s.s

/-- The C64 operands A, B and W (R40, R73). -/
def operandA (s : State) : C64 := s.a
def operandB (s : State) : C64 := s.b
def operandW (s : State) : C64 := s.w

/-- The signal X[0 .. n-1]; none where a word of it is unwritten (R45, R48, R73). -/
def signalX (s : State) (n : Nat) : Option (List C64) := memSignal s.mem xBase n

/-- The signal Y[0 .. n-1]; none where a word of it is unwritten (R46, R48, R73). -/
def signalY (s : State) (n : Nat) : Option (List C64) := memSignal s.mem yBase n

/-- N_MAX of this machine (R7). -/
def nMaxOf (s : State) : Nat := s.pMax.nMax

end Sys2Proof.Machine
end

