-- ==== Sys2Proof/Machine/Ops.lean ====
section
/-! DEFINITION. The operations the commands share: acceptance (R49), the two endings of a command (R50, R116), the
writing of results, and the draws. -/

namespace Sys2Proof.Machine

/-- Acceptance of the word `v`, in one host step; it never fails (R49). -/
def accept (v : Word) (s : State) : State :=
  (s.withPcmd v).withStatus
    { s.status with busy := true, done := false, err := false, errCode := .none }

/-- `complete()`: the ending of a command without error (R50). -/
def complete (s : State) : State :=
  s.withStatus { s.status with busy := false, done := true }

/-- `raise CmdError(code)`, the one exception of FFTCORE (R112, R116): the command ends with its code in STATUS and
with none of its writes. There is no trap, no saved state and no handler (R112, R120), and so no return from one
(R121): the host acknowledges the event by a write of STATUS (`Status.w1c`) or by the next acceptance (`accept`). -/
def raiseCmdError (code : ErrCode) (s : State) : State :=
  s.withStatus { s.status with busy := false, done := true, err := true, errCode := code }

/-- Write the result pair R0, with the NaN draws its computation has taken (R41). -/
def writeR0 (r : C64 × Nat) (s : State) : State := (s.withR0 r.1).withNanDraws r.2

/-- Write the Boolean result FLAG (R35). -/
def writeFlag (v : Bool) (s : State) : State := s.withStatus { s.status with flag := v }

/-- Write the local array of a transform to Y[0 .. n-1], keep the hidden values it leaves, and count its NaN draws
(R44, R46). -/
def writeY (wk : Work) (s : State) : State :=
  ((s.withMem (memPutSignal s.mem yBase wk.a)).withSeq wk.seq).withNanDraws wk.nan

/-- What a transform starts to work on: a local array, the hidden values and the draws as they stand. -/
def startWork (a : List C64) (s : State) : Work := ⟨a, s.seq, s.nanDraws⟩

/-- A fresh draw for a host read during BUSY, and the state that counts it (R134). -/
def drawRead (s : State) : Word × State :=
  (Config.busyRead s.readDraws, s.withReadDraws (s.readDraws + 1))

end Sys2Proof.Machine
end

