-- ==== Sys2Proof/Machine/Bus.lean ====
section
/-! DEFINITION. The host's bus transactions: which are served (R54 to R56), MemRead (R57), MemWrite (R58), with the
hazards of a running command (R133, R134). -/

namespace Sys2Proof.Machine

/-- The four access types of R27. W1C is the write behaviour of three bits of STATUS. -/
inductive Access where
  | ro | rw | wo | roW1c
  deriving DecidableEq, Repr

/-- The access type of a register (R26). -/
def RegName.access : RegName → Access
  | .id => .ro
  | .ctrl => .rw
  | .cmd => .wo
  | .status => .roW1c
  | .len | .k | .m | .s | .aRe | .aIm | .bRe | .bIm | .wRe | .wIm => .rw
  | .r0Re | .r0Im | .r1Re | .r1Im => .ro

/-- A place whose writes are dropped while BUSY = 1 (R133). -/
def Place.guarded : Place → Bool
  | .reg r =>
    match r with
    | .cmd | .len | .k | .m | .s | .aRe | .aIm | .bRe | .bIm | .wRe | .wIm => true
    | .id | .ctrl | .status | .r0Re | .r0Im | .r1Re | .r1Im => false
  | .reserved => false
  | .xWord _ => true
  | .yWord _ => true

/-- A place whose reads are draws, whole, while BUSY = 1 (R134). FLAG, one bit of STATUS, is the other. -/
def Place.unstable : Place → Bool
  | .reg r =>
    match r with
    | .r0Re | .r0Im | .r1Re | .r1Im => true
    | .id | .ctrl | .cmd | .status | .len | .k | .m | .s | .aRe | .aIm | .bRe | .bIm | .wRe | .wIm => false
  | .reserved => false
  | .xWord _ => false
  | .yWord _ => true

/-- A transaction is served when its size is 8, its address is 8-aligned, and the address is mapped: what stands
there (R56, R60). -/
def served (p : PMax) (t : Transaction) : Option Place :=
  if t.size ≠ .eight then none
  else if t.addr.toNat % 8 ≠ 0 then none
  else placeAt p t.addr.toNat

/-- What a register reads as (R26, R27): CMD reads 0 (R30). -/
def readReg (s : State) : RegName → Word
  | .id => idWord s.pMax
  | .ctrl => ctrlWord s.irqEn
  | .cmd => 0#64
  | .status => statusWord s.status
  | .len => s.len
  | .k => s.k
  | .m => s.m
  | .s => s.s
  | .aRe => s.a.re
  | .aIm => s.a.im
  | .bRe => s.b.re
  | .bIm => s.b.im
  | .wRe => s.w.re
  | .wIm => s.w.im
  | .r0Re => s.r0.re
  | .r0Im => s.r0.im
  | .r1Re => s.r1.re
  | .r1Im => s.r1.im

/-- A host write of a register that R133 does not drop (R27): CMD is acceptance (R30, R49), CTRL stores IRQ_EN alone
(R29), STATUS clears the bits it names (R36), the read-only registers ignore it. -/
def writeReg (s : State) (r : RegName) (v : Word) : State :=
  match r with
  | .id => s
  | .ctrl => s.withIrqEn (v.getLsbD 0)
  | .cmd => accept v s
  | .status => s.withStatus (s.status.w1c v)
  | .len => s.withLen v
  | .k => s.withK v
  | .m => s.withM v
  | .s => s.withS v
  | .aRe => s.withA { s.a with re := v }
  | .aIm => s.withA { s.a with im := v }
  | .bRe => s.withB { s.b with re := v }
  | .bIm => s.withB { s.b with im := v }
  | .wRe => s.withW { s.w with re := v }
  | .wIm => s.withW { s.w with im := v }
  | .r0Re => s
  | .r0Im => s
  | .r1Re => s
  | .r1Im => s

/-- The ERROR response, with read data 0 (R56; log 16). -/
def errorResponse : Response := ⟨.error, some 0#64⟩

/-- The OKAY response of a read (R57). -/
def readResponse (v : Word) : Response := ⟨.okay, some v⟩

/-- The OKAY response of a write (R58; log 15). -/
def writeResponse : Response := ⟨.okay, none⟩

/-- The state after a read that returned `v`. -/
def answerRead (v : Word) (s : State) : Host.Outcome State Fault Refusal :=
  .next (s.withResp (some (readResponse v)))

/-- MemRead: while BUSY = 1 the unstable places and FLAG return a draw (R134); a reserved offset reads 0 (R42); a
word that nothing has written faults (R48, R57). -/
def memRead (p : Place) (s : State) : Host.Outcome State Fault Refusal :=
  if s.status.busy && p.unstable then
    answerRead (drawRead s).1 (drawRead s).2
  else
    match p with
    | .reg .status =>
      if s.status.busy then
        answerRead (statusWord { s.status with flag := (drawRead s).1.getLsbD 4 }) (drawRead s).2
      else answerRead (readReg s .status) s
    | .reg r => answerRead (readReg s r) s
    | .reserved => answerRead 0#64 s
    | .xWord addr | .yWord addr =>
      match memWord s.mem addr with
      | some v => answerRead v s
      | none => .fault .unwrittenSample

/-- The state after the write of `v` to a place: dropped, with HAZ set, where R133 says so; otherwise by the place's
access type, or into the word of X or Y (R58). -/
def memWrite (p : Place) (v : Word) (s : State) : State :=
  if s.status.busy && p.guarded then s.withStatus { s.status with haz := true }
  else
    match p with
    | .reg r => writeReg s r v
    | .reserved => s
    | .xWord addr | .yWord addr => s.withMem (memPutWord s.mem addr v)

/-- One host step: one transaction and its response (R54). A transaction that is not served gets ERROR and has no
other effect (R56). -/
def hostStep (t : Transaction) (s : State) : Host.Outcome State Fault Refusal :=
  match served s.pMax t with
  | none => .next (s.withResp (some errorResponse))
  | some p =>
    match t.kind with
    | .read => memRead p s
    | .write => .next ((memWrite p t.wdata s).withResp (some writeResponse))

end Sys2Proof.Machine
end

