-- ==== Sys2Proof/Machine/ComplexAlu.lean ====
section
/-! DEFINITION. The CALU and the butterfly: CADD, CSUB, CMUL, CSCALE, CCONJ, CNORM, CBFLY (R81 to R91). Each
function takes the number `n` of NaN draws taken so far and gives the new number beside its result (R19). -/

namespace Sys2Proof.Machine

/-- cadd, the componentwise sum (R82). -/
def cadd (a b : C64) (n : Nat) : C64 × Nat :=
  let re := fadd a.re b.re n
  let im := fadd a.im b.im re.2
  (⟨re.1, im.1⟩, im.2)

/-- csub, the componentwise difference `a - b` (R83). -/
def csub (a b : C64) (n : Nat) : C64 × Nat :=
  let re := fsub a.re b.re n
  let im := fsub a.im b.im re.2
  (⟨re.1, im.1⟩, im.2)

/-- cmul: four rounded products, one rounded difference, one rounded sum; nothing is fused (R84). -/
def cmul (a b : C64) (n : Nat) : C64 × Nat :=
  let rr := fmul a.re b.re n
  let ii := fmul a.im b.im rr.2
  let re := fsub rr.1 ii.1 ii.2
  let ri := fmul a.re b.im re.2
  let ir := fmul a.im b.re ri.2
  let im := fadd ri.1 ir.1 ir.2
  (⟨re.1, im.1⟩, im.2)

/-- cscale, both parts times a real scalar (R86). -/
def cscale (c : C64) (x : F64) (n : Nat) : C64 × Nat :=
  let re := fmul c.re x n
  let im := fmul c.im x re.2
  (⟨re.1, im.1⟩, im.2)

/-- cconj: the imaginary part with its sign inverted; exact, and it draws nothing (R87). -/
def cconj (c : C64) : C64 := ⟨c.re, fneg c.im⟩

/-- cnorm: `sqrt(re*re + im*im)`, an f64; no scaling and no hypot (R88). -/
def cnorm (c : C64) (n : Nat) : F64 × Nat :=
  let rr := fmul c.re c.re n
  let ii := fmul c.im c.im rr.2
  let sum := fadd rr.1 ii.1 ii.2
  fsqrt sum.1 sum.2

/-- bfly, one radix-2 butterfly: `t = w * b`, then `(u + t, u - t)` from the same rounded `t` (R89). -/
def bfly (u b w : C64) (n : Nat) : (C64 × C64) × Nat :=
  let t := cmul w b n
  let p := cadd u t.1 t.2
  let q := csub u t.1 p.2
  ((p.1, q.1), q.2)

/-- CADD (R82). -/
def execCadd (s : State) : Host.Outcome State Fault Refusal :=
  .next (complete (writeR0 (cadd (operandA s) (operandB s) s.nanDraws) s))

/-- CSUB (R83). -/
def execCsub (s : State) : Host.Outcome State Fault Refusal :=
  .next (complete (writeR0 (csub (operandA s) (operandB s) s.nanDraws) s))

/-- CMUL (R84). -/
def execCmul (s : State) : Host.Outcome State Fault Refusal :=
  .next (complete (writeR0 (cmul (operandA s) (operandB s) s.nanDraws) s))

/-- CSCALE (R86). -/
def execCscale (s : State) : Host.Outcome State Fault Refusal :=
  .next (complete (writeR0 (cscale (operandA s) (operandS s) s.nanDraws) s))

/-- CCONJ (R87). -/
def execCconj (s : State) : Host.Outcome State Fault Refusal :=
  .next (complete (writeR0 (cconj (operandA s), s.nanDraws) s))

/-- CNORM: the norm in R0_RE, +0.0 in R0_IM (R88). -/
def execCnorm (s : State) : Host.Outcome State Fault Refusal :=
  let r := cnorm (operandA s) s.nanDraws
  .next (complete (writeR0 (⟨r.1, fZero false⟩, r.2) s))

/-- CBFLY: the butterfly of A, B and W, in R0 and R1 (R90). -/
def execCbfly (s : State) : Host.Outcome State Fault Refusal :=
  let r := bfly (operandA s) (operandB s) (operandW s) s.nanDraws
  .next (complete ((writeR0 (r.1.1, r.2) s).withR1 r.1.2))

end Sys2Proof.Machine
end

