-- ==== Sys2Proof/Machine/Utilities.lean ====
section
/-! DEFINITION. The utility commands NOP and ISPOW2, the bit-reversal unit (BITREV) and the twiddle unit (TWID)
(R92 to R100). -/

namespace Sys2Proof.Machine

/-- NOP (R92). -/
def execNop (s : State) : Host.Outcome State Fault Refusal :=
  .next (complete s)

/-- ISPOW2: FLAG is 1 exactly when LEN is a power of two; every LEN is legal (R93). -/
def execIspow2 (s : State) : Host.Outcome State Fault Refusal :=
  .next (complete (writeFlag (isPow2 s.len) s))

/-- The trailing-zero count of `n`, looking at no more than `fuel` bits (R21). -/
def trailingZeros : Nat → Nat → Nat
  | 0, _ => 0
  | fuel + 1, n => if n % 2 = 1 then 0 else 1 + trailingZeros fuel (n / 2)

/-- log2 of a power of two below 2^64: its trailing-zero count (R21). -/
def log2Pow2 (n : Nat) : Nat := trailingZeros 64 n

/-- rev(i, p), the p-bit binary reversal of `i`: its lowest bit becomes bit p - 1, and so on (R22). -/
def rev : Nat → Nat → Nat
  | _, 0 => 0
  | i, p + 1 => (i % 2) * 2 ^ p + rev (i / 2) p

/-- One move of the bit-reversal: `y[rev(i, p)] <- x[i]` (R94). -/
def bitrevMove (x : List C64) (p : Nat) (y : List C64) (i : Nat) : List C64 :=
  match x[i]? with
  | some c => y.set (rev i p) c
  | none => y

/-- bitrev_perm(x, n), for `n` a power of two and `x` of length `n`: values are moved, not computed (R94). `y`
starts as `x`; every entry of it is written, since rev is a bijection. -/
def bitrevPerm (x : List C64) (n : Nat) : List C64 :=
  (List.range n).foldl (bitrevMove x (log2Pow2 n)) x

/-- BITREV (R95). -/
def execBitrev (s : State) : Host.Outcome State Fault Refusal :=
  if !isPow2 s.len then .next (raiseCmdError .notPow2 s)
  else if nMaxOf s < operandLen s then .next (raiseCmdError .lenRange s)
  else
    match signalX s (operandLen s) with
    | none => .fault .unwrittenSample
    | some x => .next (complete (writeY (startWork (bitrevPerm x (operandLen s)) s) s))

/-- TWID: TW of (K, M), K not reduced (R97, R100). -/
def execTwid (s : State) : Host.Outcome State Fault Refusal :=
  if operandM s = 0 then .next (raiseCmdError .mZero s)
  else .next (complete (writeR0 (Config.tw s.k s.m, s.nanDraws) s))

end Sys2Proof.Machine
end

