-- ==== Sys2Proof/Machine/Transforms.lean ====
section
/-! DEFINITION. The transforms and the sequencer: DFT, STAGE, FFT (R101 to R108). The loops take the twiddle
function as an argument; the commands give them the machine's own, Config.tw. -/

namespace Sys2Proof.Machine

/-- `(1.0, 0.0)`, the initial rotation factor of a block (R102). -/
def cOne : C64 := ⟨fOne, fZero false⟩

/-! ## The direct transform -/

/-- One term: `acc <- cadd(acc, cmul(X[t], TW(k*t, n)))`, with the exact integer product (R101, R8). -/
def dftTerm (tw : Word → Word → C64) (x : List C64) (n k : Nat) (acc : C64 × Nat) (t : Nat) : C64 × Nat :=
  match x[t]? with
  | some c =>
    let p := cmul c (tw (BitVec.ofNat 64 (k * t)) (BitVec.ofNat 64 n)) acc.2
    cadd acc.1 p.1 p.2
  | none => acc

/-- The k-th output: the terms added to (+0, +0) in ascending t (R101). -/
def dftEntry (tw : Word → Word → C64) (x : List C64) (n k nan : Nat) : C64 × Nat :=
  (List.range n).foldl (dftTerm tw x n k) (cZero, nan)

/-- Append the k-th output to the local array; the accumulator keeps its last value (R44, R101). -/
def dftStep (tw : Word → Word → C64) (x : List C64) (n : Nat) (wk : Work) (k : Nat) : Work :=
  let r := dftEntry tw x n k wk.nan
  { a := wk.a ++ [r.1], seq := { wk.seq with acc := r.1 }, nan := r.2 }

/-- The direct transform of `x` of length `n`, from an empty local array (R101). -/
def dft (tw : Word → Word → C64) (x : List C64) (n : Nat) (wk : Work) : Work :=
  (List.range n).foldl (dftStep tw x n) wk

/-- DFT (R101). -/
def execDft (s : State) : Host.Outcome State Fault Refusal :=
  if nMaxOf s < operandLen s then .next (raiseCmdError .lenRange s)
  else
    match signalX s (operandLen s) with
    | none => .fault .unwrittenSample
    | some x => .next (complete (writeY (dft Config.tw x (operandLen s) (startWork [] s)) s))

/-! ## One stage -/

/-- The butterfly `j` of the block at `k`, then the update of the rotation factor. Both entries are read before
either is written (R102). Where an entry is missing (never under the precondition of R102) nothing happens. -/
def butterflyStep (k h : Nat) (wk : Work) (j : Nat) : Work :=
  match wk.a[k + j]?, wk.a[k + j + h]? with
  | some u, some b =>
    let r := bfly u b wk.seq.w wk.nan
    let w' := cmul wk.seq.w wk.seq.wm r.2
    { a := (wk.a.set (k + j) r.1.1).set (k + j + h) r.1.2
      seq := { wk.seq with j := j, u := u, t := (cmul wk.seq.w b wk.nan).1, w := w'.1 }
      nan := w'.2 }
  | _, _ => wk

/-- The block at `k`: the rotation factor starts at (1, 0), the butterflies run in ascending j (R102, R106). -/
def blockStep (m : Nat) (wk : Work) (k : Nat) : Work :=
  (List.range (m / 2)).foldl (butterflyStep k (m / 2)) { wk with seq := { wk.seq with k := k, w := cOne } }

/-- The block starts of a stage: 0, m, 2m, ..., n - m (R102). -/
def blockStarts (n m : Nat) : List Nat := (List.range (n / m)).map (· * m)

/-- The stage of size `m`: wm is TW(1, m), and the blocks run in ascending k (R102, R107). -/
def stage (tw : Word → Word → C64) (n m : Nat) (wk : Work) : Work :=
  (blockStarts n m).foldl (blockStep m)
    { wk with seq := { wk.seq with m := m, wm := tw 1#64 (BitVec.ofNat 64 m) } }

/-- STAGE (R103). -/
def execStage (s : State) : Host.Outcome State Fault Refusal :=
  if !isPow2 s.len then .next (raiseCmdError .notPow2 s)
  else if nMaxOf s < operandLen s then .next (raiseCmdError .lenRange s)
  else if !isPow2 s.m || decide (operandM s < 2) || decide (operandLen s < operandM s) then
    .next (raiseCmdError .badStage s)
  else
    match signalY s (operandLen s) with
    | none => .fault .unwrittenSample
    | some y => .next (complete (writeY (stage Config.tw (operandLen s) (operandM s) (startWork y s)) s))

/-! ## The fast transform -/

/-- The stage sizes m = 2, 4, 8, ..., n of a transform of length n, a power of two (R104). -/
def stageSizes (n : Nat) : List Nat := (List.range (log2Pow2 n)).map (fun q => 2 ^ (q + 1))

/-- The stages of the fast transform, strictly one after another (R104, R106). -/
def runStages (tw : Word → Word → C64) (n : Nat) (wk : Work) : Work :=
  (stageSizes n).foldl (fun wk m => stage tw n m wk) wk

/-- FFT: the permutation, then the stages (R104, R105). -/
def execFft (s : State) : Host.Outcome State Fault Refusal :=
  if !isPow2 s.len then .next (raiseCmdError .notPow2 s)
  else if nMaxOf s < operandLen s then .next (raiseCmdError .lenRange s)
  else
    match signalX s (operandLen s) with
    | none => .fault .unwrittenSample
    | some x =>
      .next (complete (writeY (runStages Config.tw (operandLen s)
        (startWork (bitrevPerm x (operandLen s)) s)) s))

end Sys2Proof.Machine
end

