-- ==== Sys2Proof/Machine/Dispatch.lean ====
section
/-! DEFINITION. The one dispatch: each command to its meaning. -/

namespace Sys2Proof.Machine

def exec (i : Instr) (s : State) : Host.Outcome State Fault Refusal :=
  match i with
  | .nop => Sys2Proof.Machine.execNop s
  | .cadd => Sys2Proof.Machine.execCadd s
  | .csub => Sys2Proof.Machine.execCsub s
  | .cmul => Sys2Proof.Machine.execCmul s
  | .cscale => Sys2Proof.Machine.execCscale s
  | .cconj => Sys2Proof.Machine.execCconj s
  | .cnorm => Sys2Proof.Machine.execCnorm s
  | .cbfly => Sys2Proof.Machine.execCbfly s
  | .ispow2 => Sys2Proof.Machine.execIspow2 s
  | .bitrev => Sys2Proof.Machine.execBitrev s
  | .twid => Sys2Proof.Machine.execTwid s
  | .dft => Sys2Proof.Machine.execDft s
  | .stage => Sys2Proof.Machine.execStage s
  | .fft => Sys2Proof.Machine.execFft s

end Sys2Proof.Machine
end

