-- ==== Sys2Proof/Machine/Sequencing.lean ====
section
/-! DEFINITION. The core's step, the completion of the accepted command (R50), and the interleaving of the two
agents' moves (R25, R65). -/

namespace Sys2Proof.Machine

/-- The completion: PCMD is decoded and its command's meaning is taken; a word that decodes to Illegal ends with
ILLEGAL_CMD (R50, R76). -/
def completion (s : State) : Host.Outcome State Fault Refusal :=
  match decode s.pcmd with
  | .command i => exec i s
  | .illegal _ => .next (raiseCmdError .illegalCmd s)

/-- The core's turn: the completion is enabled exactly when BUSY = 1; an idle core keeps all its state (R50, R128). -/
def coreTurn (s : State) : Host.Outcome State Fault Refusal :=
  if s.status.busy then completion s else .next s

/-- The next move, by the first entry of the agenda. With none left, the core has its turn, so that an enabled
completion is always taken in the end (R137; log 8). -/
def nextMove (s : State) : Host.Outcome State Fault Refusal :=
  match s.agenda with
  | [] => coreTurn s
  | .core :: rest => coreTurn (s.withAgenda rest)
  | .host t :: rest => hostStep t (s.withAgenda rest)

/-- The state in which the core's next turn completes the command word `v`: `v` accepted (R49), the turn the core's. -/
def loadCommand (v : Word) (s : State) : State :=
  (accept v s).withAgenda (.core :: s.agenda)

end Sys2Proof.Machine
end

