-- ==== Sys2Proof/Machine/Step.lean ====
section
/-! DEFINITION. One step of the machine, and how a word is placed where the next step runs it. -/

namespace Sys2Proof.Machine

/-- One step: one move of the host or of the core (R25, R65). -/
def step (s : State) : Host.Outcome State Fault Refusal := nextMove s

/-- `s` with a command word accepted and the core's turn next (R43, R49; log 10): FFTCORE fetches nothing, and PCMD is
where the completion takes its command from. -/
def State.withFetchWord (s : State) (nbits w : Nat) : State := loadCommand (tableWord nbits w) s

end Sys2Proof.Machine
end

