-- ==== Sys2Proof/Safety.lean ====
section
/-! DEFINITION. The terms in which claims are made: the invariant of every state, what a command's table row says it
touches, when a command has an error or misses a word of its signal, and what rounding once means. -/

namespace Sys2Proof.Machine

/-! ## The invariant -/

/-- STATUS is coherent: while BUSY, DONE, ERR and ERRCODE are 0 (R32, R49); ERRCODE is NONE exactly when ERR is 0
(R33, R36, R116). -/
abbrev Status.coherent (st : Status) : Prop :=
  (st.busy = true → st.done = false ∧ st.err = false) ∧ (st.err = true ↔ st.errCode ≠ .none)

/-- Every listed byte lies in XMEM or YMEM (R55). -/
abbrev memInMap (p : PMax) (m : List Host.Cell) : Prop :=
  ∀ c ∈ m, (xBase ≤ c.1 ∧ c.1 < xBase + 16 * p.nMax) ∨ (yBase ≤ c.1 ∧ c.1 < yBase + 16 * p.nMax)

/-- A word is written whole: where one byte of an 8-aligned word is listed, all eight are (R58, R61). -/
abbrev wholeWords (m : List Host.Cell) : Prop :=
  ∀ c ∈ m, ∀ b < 8, (memByte m (c.1 / 8 * 8 + b)).isSome = true

/-- What holds of the machine in every state a run reaches. -/
abbrev State.Inv (s : State) : Prop :=
  Memory.wf s.mem ∧ memInMap s.pMax s.mem ∧ wholeWords s.mem ∧ s.status.coherent

/-! ## What a command touches -/

/-- The registers no command writes (R29, R37 to R40). -/
def operandsKept (s t : State) : Prop :=
  t.pMax = s.pMax ∧ t.irqEn = s.irqEn ∧ t.len = s.len ∧ t.k = s.k ∧ t.m = s.m ∧ t.s = s.s ∧
    t.a = s.a ∧ t.b = s.b ∧ t.w = s.w

/-- What belongs to the host's side and to acceptance: PCMD, the agenda, the bus response, the read draws. -/
def hostSideKept (s t : State) : Prop :=
  t.pcmd = s.pcmd ∧ t.agenda = s.agenda ∧ t.resp = s.resp ∧ t.readDraws = s.readDraws

/-- Two states hold the same at a place of R74; of a memory, the entries below LEN. -/
def agreeOn (s t : State) : Operand → Prop
  | .regA => s.a = t.a
  | .regB => s.b = t.b
  | .regW => s.w = t.w
  | .regS => s.s = t.s
  | .regK => s.k = t.k
  | .regM => s.m = t.m
  | .regLen => s.len = t.len
  | .memX => ∀ i < s.len.toNat, memEntry s.mem (xAddr i) = memEntry t.mem (xAddr i)
  | .memY => ∀ i < s.len.toNat, memEntry s.mem (yAddr i) = memEntry t.mem (yAddr i)
  | .resR0 => s.r0 = t.r0
  | .resR1 => s.r1 = t.r1
  | .flag => s.status.flag = t.status.flag

/-! ## Errors and missing words -/

/-- LEN is not a power of two (R113). -/
def badLength (s : State) : Prop := ¬ ∃ p : Nat, s.len.toNat = 2 ^ p

/-- LEN is beyond N_MAX (R113, R114). -/
def longLength (s : State) : Prop := s.pMax.nMax < s.len.toNat

/-- M is no stage size for LEN: not a power of two, below 2, or above LEN (R113). -/
def badStageSize (s : State) : Prop :=
  (¬ ∃ p : Nat, s.m.toNat = 2 ^ p) ∨ s.m.toNat < 2 ∨ s.len.toNat < s.m.toNat

/-- The causes of an error of a command, in the order in which they are checked (R113, R115). -/
def causes (i : Instr) (s : State) : List (Prop × ErrCode) :=
  match i with
  | .nop | .cadd | .csub | .cmul | .cscale | .cconj | .cnorm | .cbfly | .ispow2 => []
  | .bitrev => [(badLength s, .notPow2), (longLength s, .lenRange)]
  | .twid => [(s.m.toNat = 0, .mZero)]
  | .dft => [(longLength s, .lenRange)]
  | .stage => [(badLength s, .notPow2), (longLength s, .lenRange), (badStageSize s, .badStage)]
  | .fft => [(badLength s, .notPow2), (longLength s, .lenRange)]

/-- `code` is the first code of a list of causes whose cause holds (R115). -/
def firstCause (code : ErrCode) : List (Prop × ErrCode) → Prop
  | [] => False
  | c :: cs => (c.1 ∧ c.2 = code) ∨ (¬ c.1 ∧ firstCause code cs)

/-- The command has the error `code` in this state (R113, R115). -/
def hasError (i : Instr) (s : State) (code : ErrCode) : Prop := firstCause code (causes i s)

/-- None of the command's causes of an error holds. -/
def noError (i : Instr) (s : State) : Prop := ∀ c ∈ causes i s, ¬ c.1

/-- The command reads an entry of X or Y that is not written whole (R48). -/
def missesWord (i : Instr) (s : State) : Prop :=
  (Operand.memX ∈ i.reads ∧ ∃ j < s.len.toNat, memEntry s.mem (xAddr j) = none) ∨
    (Operand.memY ∈ i.reads ∧ ∃ j < s.len.toNat, memEntry s.mem (yAddr j) = none)

/-- STATUS after a command that ends without error (R50). -/
def Status.completed (st : Status) : Status := { st with busy := false, done := true }

/-- STATUS after a command that ends with an error (R116). -/
def Status.failed (st : Status) (code : ErrCode) : Status :=
  { st with busy := false, done := true, err := true, errCode := code }

/-! ## Rounding -/

/-- The real number a finite f64 stands for (R14). -/
noncomputable def fValue (x : F64) : ℝ := (fUnits x : ℝ) / 2 ^ 1074

/-- `x` is a finite f64 nearest to `q`; where another value is as near, `x` is the even one. -/
def nearestEven (q : ℝ) (x : F64) : Prop :=
  fIsFinite x = true ∧ ∀ y, fIsFinite y = true →
    |fValue x - q| ≤ |fValue y - q| ∧
      (|fValue x - q| = |fValue y - q| → fValue y = fValue x ∨ fFrac x % 2 = 0)

/-- `x` is the real number `q`, not 0, rounded once to binary64 under roundTiesToEven: the nearest finite value, or
the infinity from 2^1024 - 2^970 on, with the sign of `q` (R17; the threshold, and the sign of a result that rounds to 0,
are IEEE 754's: log 20). -/
def roundsTo (q : ℝ) (x : F64) : Prop :=
  (|q| < 2 ^ 1024 - 2 ^ 970 → nearestEven q x) ∧
    (2 ^ 1024 - 2 ^ 970 ≤ |q| → fIsInf x = true) ∧ (fSign x = true ↔ q < 0)

/-- Equal bit for bit, or both a NaN, whose bits are draws (R19). -/
def sameOrNaN (x y : F64) : Prop := x = y ∨ (fIsNaN x = true ∧ fIsNaN y = true)

/-- Both parts equal bit for bit, or both a NaN. -/
def sameOrNaN2 (c d : C64) : Prop := sameOrNaN c.re d.re ∧ sameOrNaN c.im d.im

/-! ## The transforms, entry by entry, whatever the draws -/

/-- The first `t` terms of the direct transform's sum for output `k`, in ascending order (R101); draws taken at 0. -/
def dftPartial (x : Nat → C64) (n k : Nat) : Nat → C64
  | 0 => ⟨0#64, 0#64⟩
  | t + 1 =>
    (cadd (dftPartial x n k t)
      (cmul (x t) (Config.tw (BitVec.ofNat 64 (k * t)) (BitVec.ofNat 64 n)) 0).1 0).1

/-- The rotation factor of butterfly `j` of a block: (1, 0), then times wm for each butterfly before (R102). -/
def rotation (wm : C64) : Nat → C64
  | 0 => ⟨0x3FF0000000000000#64, 0#64⟩
  | j + 1 => (cmul (rotation wm j) wm 0).1

/-- `cmd i` with `run`: acceptance of the command's word, then its completion (R49, R50, R79); none if it stops. -/
def runCommand (i : Instr) (s : State) : Option State :=
  match exec i (accept (encode i) s) with
  | .next t => some t
  | .fault _ => none
  | .refused _ => none

/-- `wr M, m` then `run STAGE` (R109). -/
def runStageOf (s : Option State) (m : Nat) : Option State :=
  s.bind (fun s => runCommand .stage (s.withM (BitVec.ofNat 64 m)))

end Sys2Proof.Machine
end

