-- ==== Sys2Proof/Certificates/Slice0/Obligations.lean ====
section
/-! DEFINITION. The statements for the provers, in the order of the spec's files. -/

open Sys2Proof Sys2Proof.Machine

/-! ## 00_scope.md: the arithmetic -/

/-- R17 for fadd and fsub: the exact sum or difference of two finite values, where it is not 0, rounded once, to
nearest, ties to even. The threshold from which the result is infinite, in `roundsTo`, is IEEE 754's (log 20); that no draw
is taken is said by the model's count (log 3). -/
def Obligations.SumAndDifferenceRoundOnce : Prop :=
  ∀ (a b : F64) (n : Nat), fIsFinite a = true → fIsFinite b = true →
    (fValue a + fValue b ≠ 0 → ∃ x, fadd a b n = (x, n) ∧ roundsTo (fValue a + fValue b) x) ∧
    (fValue a - fValue b ≠ 0 → ∃ x, fsub a b n = (x, n) ∧ roundsTo (fValue a - fValue b) x)

/-- R17 for fmul: the exact product of two finite values, where it is not 0, rounded once. The threshold from which the
result is infinite, and that a product rounded to 0 keeps its sign, both in `roundsTo`, are IEEE 754's (log 20); that no
draw is taken is said by the model's count (log 3). A product that is exactly 0 is in ZeroSignsAndSubnormals. -/
def Obligations.ProductRoundsOnce : Prop :=
  ∀ (a b : F64) (n : Nat), fIsFinite a = true → fIsFinite b = true → fValue a * fValue b ≠ 0 →
    ∃ x, fmul a b n = (x, n) ∧ roundsTo (fValue a * fValue b) x

/-- R17 for fsqrt: the exact square root of a finite positive value, rounded once. The roots of the zeros and of +inf
are in InfinitiesAndRootsOfZero. That no draw is taken is said by the model's count (log 3). -/
def Obligations.SquareRootRoundsOnce : Prop :=
  ∀ (a : F64) (n : Nat), fIsFinite a = true → 0 < fValue a →
    ∃ x, fsqrt a n = (x, n) ∧ roundsTo (Real.sqrt (fValue a)) x

/-- R18: the signs of zeros, for every two finite operands whose exact sum, difference or product is 0, first in R18's own
cases; and that nothing is flushed to zero: a sum or difference that is not exactly 0 is no zero, and a finite value that
is not a zero, a subnormal too, plus +0, minus +0 or times 1.0 is that value. The cases R18 does not write out, such as
(+0) + (+0), x + (-x) and a zero times a value that is not 0, are IEEE 754's (log 20); the count of draws is the model's
(log 3). -/
def Obligations.ZeroSignsAndSubnormals : Prop :=
  (∀ n, fadd 0x0000000000000000#64 0x8000000000000000#64 n = (0x0000000000000000#64, n)) ∧
  (∀ n, fadd 0x8000000000000000#64 0x8000000000000000#64 n = (0x8000000000000000#64, n)) ∧
  (∀ x n, fIsFinite x = true → fsub x x n = (0x0000000000000000#64, n)) ∧
  (∀ x y n, fIsZero x = true → fIsZero y = true → ∃ z, fmul x y n = (z, n) ∧ fIsZero z = true ∧
    fSign z = (fSign x ^^ fSign y)) ∧
  (∀ a b n, fIsFinite a = true → fIsFinite b = true →
    (fValue a + fValue b = 0 →
      fadd a b n = (if fSign a = true ∧ fSign b = true then 0x8000000000000000#64 else 0x0000000000000000#64, n)) ∧
    (fValue a - fValue b = 0 →
      fsub a b n = (if fSign a = true ∧ fSign b = false then 0x8000000000000000#64 else 0x0000000000000000#64, n)) ∧
    (fValue a * fValue b = 0 →
      fmul a b n = (if fSign a = fSign b then 0x0000000000000000#64 else 0x8000000000000000#64, n)) ∧
    (fValue a + fValue b ≠ 0 → fIsZero (fadd a b n).1 = false) ∧
    (fValue a - fValue b ≠ 0 → fIsZero (fsub a b n).1 = false)) ∧
  (∀ x n, fIsFinite x = true → fMag x ≠ 0 →
    fmul x 0x3FF0000000000000#64 n = (x, n) ∧ fadd x 0x0000000000000000#64 n = (x, n) ∧
    fsub x 0x0000000000000000#64 n = (x, n))

/-- R19: a NaN operand, and an invalid operation, give a NaN; every NaN result is a quiet NaN whose sign and payload
are the next draw, and counts one draw; any other result takes none. The counting of draws is the model's (log 3), and so
is which bit makes a NaN quiet (log 4); no statement rests on a draw's value. -/
def Obligations.NaNResultsAreDraws : Prop :=
  (∀ a b n, fIsNaN a = true ∨ fIsNaN b = true →
    fadd a b n = (nanDraw n, n + 1) ∧ fsub a b n = (nanDraw n, n + 1) ∧ fmul a b n = (nanDraw n, n + 1)) ∧
  (∀ a n, fIsNaN a = true → fsqrt a n = (nanDraw n, n + 1)) ∧
  (∀ a b n, fIsInf a = true → fIsInf b = true → fSign a = fSign b → fsub a b n = (nanDraw n, n + 1)) ∧
  (∀ a b n, fIsInf a = true → fIsInf b = true → fSign a ≠ fSign b → fadd a b n = (nanDraw n, n + 1)) ∧
  (∀ a b n, fIsZero a = true → fIsInf b = true →
    fmul a b n = (nanDraw n, n + 1) ∧ fmul b a n = (nanDraw n, n + 1)) ∧
  (∀ a n, fSign a = true → fIsZero a = false → fIsNaN a = false → fsqrt a n = (nanDraw n, n + 1)) ∧
  (∀ n, fIsNaN (nanDraw n) = true ∧ (nanDraw n).getLsbD 51 = true) ∧
  (∀ a b n, (fIsNaN (fadd a b n).1 = false → (fadd a b n).2 = n) ∧ (fIsNaN (fsub a b n).1 = false → (fsub a b n).2 = n) ∧
    (fIsNaN (fmul a b n).1 = false → (fmul a b n).2 = n) ∧ (fIsNaN (fsqrt a n).1 = false → (fsqrt a n).2 = n)) ∧
  (∀ a b n, (fIsNaN (fadd a b n).1 = true → fadd a b n = (nanDraw n, n + 1)) ∧
    (fIsNaN (fsub a b n).1 = true → fsub a b n = (nanDraw n, n + 1)) ∧
    (fIsNaN (fmul a b n).1 = true → fmul a b n = (nanDraw n, n + 1)) ∧
    (fIsNaN (fsqrt a n).1 = true → fsqrt a n = (nanDraw n, n + 1)))

/-- R22: bit b of rev(i, p) is bit p - 1 - b of i, and every bit from p up is 0. -/
def Obligations.RevReversesBits : Prop :=
  (∀ i p b : Nat, b < p → (rev i p).testBit b = i.testBit (p - 1 - b)) ∧
  (∀ i p b : Nat, p ≤ b → (rev i p).testBit b = false) ∧ rev 0 0 = 0

/-! ## 10_state.md and 70_reset_and_hazards.md: the state and reset -/

/-- R28: ID reads 0x0100 + P_MAX at all times, and no step changes it. -/
def Obligations.IdIsConstant : Prop :=
  (∀ s : State, hostStep ⟨.read, 0x00#32, .eight, 0#64⟩ s =
    .next { s with resp := some ⟨.okay, some (BitVec.ofNat 64 (0x0100 + s.pMax.val))⟩ }) ∧
  (∀ (s t : State) (r : RegName), step s = .next t → r = .id → readReg t r = readReg s r)

/-- R29: a write of CTRL stores bit 0 and nothing else, BUSY or not; a read gives that bit and zeros. -/
def Obligations.CtrlStoresIrqEnAlone : Prop :=
  ∀ (s : State) (v : Word),
    (∃ d, hostStep ⟨.write, 0x08#32, .eight, v⟩ s =
      .next { s with irqEn := v.getLsbD 0, resp := some ⟨.okay, d⟩ }) ∧
    hostStep ⟨.read, 0x08#32, .eight, v⟩ s =
      .next { s with resp := some ⟨.okay, some (if s.irqEn then 1#64 else 0#64)⟩ }

/-- R31 to R36: where the fields of STATUS stand in its word, that its other bits read 0, and the values of ERRCODE
(R113). -/
def Obligations.StatusWordLayout : Prop :=
  (∀ st : Status,
    (statusWord st).getLsbD 0 = st.busy ∧ (statusWord st).getLsbD 1 = st.done ∧ (statusWord st).getLsbD 2 = st.err ∧
    (statusWord st).getLsbD 3 = st.haz ∧ (statusWord st).getLsbD 4 = st.flag ∧
    (statusWord st).extractLsb' 5 3 = 0#3 ∧ (statusWord st).extractLsb' 8 8 = st.errCode.toByte ∧
    (statusWord st).extractLsb' 16 48 = 0#48) ∧
  ErrCode.none.toByte = 0x00#8 ∧ ErrCode.illegalCmd.toByte = 0x01#8 ∧ ErrCode.notPow2.toByte = 0x02#8 ∧
  ErrCode.lenRange.toByte = 0x03#8 ∧ ErrCode.mZero.toByte = 0x04#8 ∧ ErrCode.badStage.toByte = 0x05#8

/-- R32, R33, R34, R36: a write of STATUS clears the bits it names among DONE, ERR and HAZ, ERRCODE with ERR, and acts
in no other way, BUSY or not. -/
def Obligations.StatusWriteClearsNamedBits : Prop :=
  ∀ (s : State) (v : Word), ∃ d,
    hostStep ⟨.write, 0x18#32, .eight, v⟩ s = .next { s with
      status :=
        { busy := s.status.busy
          done := if v.getLsbD 1 then false else s.status.done
          err := if v.getLsbD 2 then false else s.status.err
          haz := if v.getLsbD 3 then false else s.status.haz
          flag := s.status.flag
          errCode := if v.getLsbD 2 then .none else s.status.errCode }
      resp := some ⟨.okay, d⟩ }

/-- R26, R37 to R40: each operand register, at its own offset, while the core is idle, takes any 64-bit value and reads it
back, and nothing else changes but the response. -/
def Obligations.OperandRegistersHoldEveryValue : Prop :=
  ∀ (s u : State) (v : Word) (r : RegName) (addr : BitVec 32), s.status.busy = false →
    (r, addr, u) ∈ [
      (RegName.len, 0x20#32, { s with len := v }), (.k, 0x28#32, { s with k := v }),
      (.m, 0x30#32, { s with m := v }), (.s, 0x38#32, { s with s := v }),
      (.aRe, 0x40#32, { s with a := ⟨v, s.a.im⟩ }), (.aIm, 0x48#32, { s with a := ⟨s.a.re, v⟩ }),
      (.bRe, 0x50#32, { s with b := ⟨v, s.b.im⟩ }), (.bIm, 0x58#32, { s with b := ⟨s.b.re, v⟩ }),
      (.wRe, 0x60#32, { s with w := ⟨v, s.w.im⟩ }), (.wIm, 0x68#32, { s with w := ⟨s.w.re, v⟩ })] →
    (∃ d, hostStep ⟨.write, addr, .eight, v⟩ s = .next { u with resp := some ⟨.okay, d⟩ }) ∧
    hostStep ⟨.read, addr, .eight, 0#64⟩ u = .next { u with resp := some ⟨.okay, some v⟩ } ∧
    (∀ q, q ≠ r → readReg u q = readReg s q)

/-- R27, R42: a write of ID, R0, R1 or a reserved offset is ignored, and a reserved offset reads 0, BUSY or not. -/
def Obligations.ReadOnlyAndReservedIgnoreWrites : Prop :=
  ∀ (s : State) (v : Word) (addr : BitVec 32), addr.toNat % 8 = 0 →
    ((addr.toNat = 0x00 ∨ (0x70 ≤ addr.toNat ∧ addr.toNat ≤ 0xF8)) →
      ∃ d, hostStep ⟨.write, addr, .eight, v⟩ s = .next { s with resp := some ⟨.okay, d⟩ }) ∧
    ((0x90 ≤ addr.toNat ∧ addr.toNat ≤ 0xF8) →
      hostStep ⟨.read, addr, .eight, v⟩ s = .next { s with resp := some ⟨.okay, some 0#64⟩ })

/-- R44: the hidden values of SEQ, and PCMD while no command is in progress, show in nothing else: from two states that
differ in them alone, a step stops in the same way or gives states that differ in them alone. Whose turn a step is stands in the model's agenda
(log 8). -/
def Obligations.HiddenStateIsUnobservable : Prop :=
  ∀ (s : State) (q : Seq) (v : Word), (s.status.busy = true → v = s.pcmd) →
    (∀ t, step s = .next t → ∃ t', step ((s.withSeq q).withPcmd v) = .next t' ∧
      (t'.withSeq t.seq).withPcmd t.pcmd = t ∧ (t.status.busy = true → t'.pcmd = t.pcmd)) ∧
    (∀ f, step s = .fault f → step ((s.withSeq q).withPcmd v) = .fault f)

/-- R45: a byte of X changes only by a host's write of its word while the core is idle: no command writes X. Whose
turn a step is stands in the model's agenda (log 8). -/
def Obligations.XChangesOnlyByAnIdleHostWrite : Prop :=
  ∀ (s t : State) (x : Nat), step s = .next t → x < 0x02000000 → memByte t.mem x ≠ memByte s.mem x →
    s.status.busy = false ∧ ∃ tr rest, s.agenda = .host tr :: rest ∧ tr.kind = .write ∧ tr.size = .eight ∧
      tr.addr.toNat ≤ x ∧ x < tr.addr.toNat + 8

/-- R47, R58, R59, R57: while the core is idle, a word written to XMEM or YMEM is stored with byte b of it at address
+ b, reads back exactly, and changes no other byte. R47, R55: an entry of X or Y has its real part in the lower of its two
words and its imaginary part in the upper. -/
def Obligations.SampleWordIsStoredWhole : Prop :=
  (∀ (s : State) (v : Word) (addr : BitVec 32), s.status.busy = false → addr.toNat % 8 = 0 →
    (0x01000000 ≤ addr.toNat ∧ addr.toNat < 0x01000000 + 16 * 2 ^ s.pMax.val) ∨
      (0x02000000 ≤ addr.toNat ∧ addr.toNat < 0x02000000 + 16 * 2 ^ s.pMax.val) →
    ∃ u d, hostStep ⟨.write, addr, .eight, v⟩ s = .next u ∧
      u = { s with mem := u.mem, resp := some ⟨.okay, d⟩ } ∧
      (∀ b < 8, memByte u.mem (addr.toNat + b) = some (v.extractLsb' (8 * b) 8)) ∧
      (∀ x, x < addr.toNat ∨ addr.toNat + 8 ≤ x → memByte u.mem x = memByte s.mem x) ∧
      hostStep ⟨.read, addr, .eight, 0#64⟩ u = .next { u with resp := some ⟨.okay, some v⟩ }) ∧
  (∀ (s : State) (i : Nat) (re im : F64),
    (memEntry s.mem (xAddr i) = some ⟨re, im⟩ ↔
      memWord s.mem (0x01000000 + 16 * i) = some re ∧ memWord s.mem (0x01000000 + 16 * i + 8) = some im) ∧
    (memEntry s.mem (yAddr i) = some ⟨re, im⟩ ↔
      memWord s.mem (0x02000000 + 16 * i) = some re ∧ memWord s.mem (0x02000000 + 16 * i + 8) = some im))

/-- R49: acceptance, for every word, valid or not. -/
def Obligations.CmdWriteWhileIdleIsAcceptance : Prop :=
  ∀ (s : State) (v : Word), s.status.busy = false →
    ∃ d, hostStep ⟨.write, 0x10#32, .eight, v⟩ s = .next { s with
      pcmd := v
      status := { s.status with busy := true, done := false, err := false, errCode := .none }
      resp := some ⟨.okay, d⟩ }

/-- R50, R43: in the core's turn while BUSY, a step runs the command that PCMD decodes to; nothing is fetched, and the
turn itself is all that the step adds. Loading a command's word makes that the next step. Turns are the model's agenda
(log 8, log 10). -/
def Obligations.CoreTurnRunsTheDecodedCommand : Prop :=
  (∀ (s : State) (i : Instr), s.status.busy = true → decode s.pcmd = .command i →
    (s.agenda = [] → step s = exec i s) ∧
    (∀ rest, s.agenda = .core :: rest → step s = exec i (s.withAgenda rest))) ∧
  (∀ (s : State) (i : Instr), step (s.withFetchWord 64 (encode i).toNat) = exec i (accept (encode i) s))

/-- R51, R133: while BUSY no step changes an operand register or a byte of X; and while BUSY lasts, none changes PCMD,
Y, a result register or FLAG. -/
def Obligations.InputsAreStableWhileBusy : Prop :=
  ∀ s t : State, s.status.busy = true → step s = .next t →
    (t.len = s.len ∧ t.k = s.k ∧ t.m = s.m ∧ t.s = s.s ∧ t.a = s.a ∧ t.b = s.b ∧ t.w = s.w) ∧
    (∀ x < 0x02000000, memByte t.mem x = memByte s.mem x) ∧
    (t.status.busy = true → t.pcmd = s.pcmd ∧ (∀ x, memByte t.mem x = memByte s.mem x) ∧
      t.r0 = s.r0 ∧ t.r1 = s.r1 ∧ t.status.flag = s.status.flag)

/-- R53: the values after reset. P_MAX is the machine's own; PCMD and the hidden values are unspecified there and are
not stated here; X and Y are unwritten. -/
def Obligations.ResetValues : Prop :=
  idWord State.reset.pMax = BitVec.ofNat 64 (0x0100 + Config.pMax.val) ∧ ctrlWord State.reset.irqEn = 0#64 ∧
  statusWord State.reset.status = 0#64 ∧ State.reset.len = 0#64 ∧ State.reset.k = 0#64 ∧ State.reset.m = 0#64 ∧
  State.reset.s = 0#64 ∧ State.reset.a = ⟨0#64, 0#64⟩ ∧ State.reset.b = ⟨0#64, 0#64⟩ ∧
  State.reset.w = ⟨0#64, 0#64⟩ ∧ State.reset.r0 = ⟨0#64, 0#64⟩ ∧ State.reset.r1 = ⟨0#64, 0#64⟩ ∧
  (∀ addr, memByte State.reset.mem addr = none) ∧ irq State.reset = false

/-- The invariant holds after reset. -/
def Obligations.InvariantAtReset : Prop := State.reset.Inv

/-- Every step from a state that meets the invariant gives one that meets it: memory in canonical form, inside X and Y,
written word by word (R48, R55, R58, R61); DONE and ERR are 0 while BUSY (R32, R49); ERRCODE is NONE exactly when ERR is
0 (R33, R36, R116). -/
def Obligations.InvariantIsKeptByEveryStep : Prop :=
  ∀ s t : State, s.Inv → step s = .next t → t.Inv

/-! ## 20_memory.md and 70_reset_and_hazards.md: the bus -/

/-- R56, R55, R60: a transaction of another size, at an address that is not 8-aligned or not mapped, gets ERROR and
changes nothing; a read returns 0. -/
def Obligations.UnservedAccessesGetError : Prop :=
  ∀ (s : State) (t : Transaction),
    (t.size ≠ .eight ∨ t.addr.toNat % 8 ≠ 0 ∨
      ¬ (t.addr.toNat < 0x100 ∨
        (0x01000000 ≤ t.addr.toNat ∧ t.addr.toNat < 0x01000000 + 16 * 2 ^ s.pMax.val) ∨
        (0x02000000 ≤ t.addr.toNat ∧ t.addr.toNat < 0x02000000 + 16 * 2 ^ s.pMax.val))) →
    ∃ r, hostStep t s = .next { s with resp := some ⟨.error, r⟩ } ∧ (t.kind = .read → r = some 0#64)

/-- R55, R57, R58: an 8-byte access at a mapped 8-aligned address is served: a write gets OKAY; a read gets OKAY and a
value, but for a word of X or Y that nothing has written, which faults (R48). R26, R27, R30: while the core is idle, a read
at the offset of a register answers that register; a read of CMD answers 0, BUSY or not. R57: while the core is idle, a
read of a written word of X or Y answers that word. -/
def Obligations.MappedAccessesAreServed : Prop :=
  (∀ (s : State) (t : Transaction), t.size = .eight → t.addr.toNat % 8 = 0 →
    (t.addr.toNat < 0x100 ∨
      (0x01000000 ≤ t.addr.toNat ∧ t.addr.toNat < 0x01000000 + 16 * 2 ^ s.pMax.val) ∨
      (0x02000000 ≤ t.addr.toNat ∧ t.addr.toNat < 0x02000000 + 16 * 2 ^ s.pMax.val)) →
    (t.kind = .write → ∃ u d, hostStep t s = .next u ∧ u.resp = some ⟨.okay, d⟩) ∧
    (t.kind = .read →
      (∃ u v, hostStep t s = .next u ∧ u.resp = some ⟨.okay, some v⟩) ∨
      (hostStep t s = .fault .unwrittenSample ∧ 0x01000000 ≤ t.addr.toNat ∧
        memWord s.mem t.addr.toNat = none))) ∧
  (∀ (s : State) (addr : BitVec 32) (v : Word), s.status.busy = false →
    (addr, v) ∈ [
      (0x00#32, BitVec.ofNat 64 (0x0100 + s.pMax.val)), (0x08#32, if s.irqEn then 1#64 else 0#64),
      (0x18#32, statusWord s.status), (0x20#32, s.len), (0x28#32, s.k), (0x30#32, s.m), (0x38#32, s.s),
      (0x40#32, s.a.re), (0x48#32, s.a.im), (0x50#32, s.b.re), (0x58#32, s.b.im), (0x60#32, s.w.re), (0x68#32, s.w.im),
      (0x70#32, s.r0.re), (0x78#32, s.r0.im), (0x80#32, s.r1.re), (0x88#32, s.r1.im)] →
    hostStep ⟨.read, addr, .eight, 0#64⟩ s = .next { s with resp := some ⟨.okay, some v⟩ }) ∧
  (∀ s : State, hostStep ⟨.read, 0x10#32, .eight, 0#64⟩ s = .next { s with resp := some ⟨.okay, some 0#64⟩ }) ∧
  (∀ (s : State) (addr : BitVec 32) (v : Word), s.status.busy = false → addr.toNat % 8 = 0 →
    (0x01000000 ≤ addr.toNat ∧ addr.toNat < 0x01000000 + 16 * 2 ^ s.pMax.val) ∨
      (0x02000000 ≤ addr.toNat ∧ addr.toNat < 0x02000000 + 16 * 2 ^ s.pMax.val) →
    memWord s.mem addr.toNat = some v →
    hostStep ⟨.read, addr, .eight, 0#64⟩ s = .next { s with resp := some ⟨.okay, some v⟩ })

/-- R62: a read changes no register and no byte of memory: nothing but the response, and the model's count of draws
(log 6). -/
def Obligations.ReadsHaveNoSideEffects : Prop :=
  ∀ (s u : State) (t : Transaction), t.kind = .read → hostStep t s = .next u →
    u = { s with resp := u.resp, readDraws := u.readDraws }

/-- R133: while BUSY a write of a guarded place is dropped with HAZ set and OKAY; a write of CTRL or STATUS is performed
and one of ID, R0, R1 or a reserved offset is ignored, BUSY or not. -/
def Obligations.WritesWhileBusy : Prop :=
  ∀ (s : State) (v : Word) (addr : BitVec 32), addr.toNat % 8 = 0 →
    (s.status.busy = true →
      (addr.toNat = 0x10 ∨ (0x20 ≤ addr.toNat ∧ addr.toNat ≤ 0x68) ∨
        (0x01000000 ≤ addr.toNat ∧ addr.toNat < 0x01000000 + 16 * 2 ^ s.pMax.val) ∨
        (0x02000000 ≤ addr.toNat ∧ addr.toNat < 0x02000000 + 16 * 2 ^ s.pMax.val)) →
      ∃ d, hostStep ⟨.write, addr, .eight, v⟩ s =
        .next { s with status := { s.status with haz := true }, resp := some ⟨.okay, d⟩ }) ∧
    (addr.toNat = 0x08 → ∃ d, hostStep ⟨.write, addr, .eight, v⟩ s =
      .next { s with irqEn := v.getLsbD 0, resp := some ⟨.okay, d⟩ }) ∧
    (addr.toNat = 0x18 → ∃ d, hostStep ⟨.write, addr, .eight, v⟩ s =
      .next { s with status := s.status.w1c v, resp := some ⟨.okay, d⟩ }) ∧
    ((addr.toNat = 0x00 ∨ (0x70 ≤ addr.toNat ∧ addr.toNat ≤ 0xF8)) →
      ∃ d, hostStep ⟨.write, addr, .eight, v⟩ s = .next { s with resp := some ⟨.okay, d⟩ })

/-- R134: while BUSY, a read of a word of YMEM, of R0 or of R1 returns the next draw; a read of STATUS returns it with
FLAG a draw; a read of any other register, at its own offset, or of a written word of XMEM returns its value, and CMD reads
0 (R30); none sets HAZ. The draws are numbered by a count of the model's (log 6); that a word of Y which nothing has written
is a draw too while BUSY, and no fault, is the model's choice between R134 and R48 (log 7). -/
def Obligations.ReadsWhileBusy : Prop :=
  ∀ (s : State) (addr : BitVec 32), s.status.busy = true → addr.toNat % 8 = 0 →
    (((0x70 ≤ addr.toNat ∧ addr.toNat ≤ 0x88) ∨
        (0x02000000 ≤ addr.toNat ∧ addr.toNat < 0x02000000 + 16 * 2 ^ s.pMax.val)) →
      hostStep ⟨.read, addr, .eight, 0#64⟩ s = .next { s with
        resp := some ⟨.okay, some (Config.busyRead s.readDraws)⟩, readDraws := s.readDraws + 1 }) ∧
    (addr.toNat = 0x18 → ∃ f : Bool, hostStep ⟨.read, addr, .eight, 0#64⟩ s = .next { s with
      resp := some ⟨.okay, some (statusWord { s.status with flag := f })⟩, readDraws := s.readDraws + 1 }) ∧
    (∀ v : Word, (addr, v) ∈ [
        (0x00#32, BitVec.ofNat 64 (0x0100 + s.pMax.val)), (0x08#32, if s.irqEn then 1#64 else 0#64), (0x10#32, 0#64),
        (0x20#32, s.len), (0x28#32, s.k), (0x30#32, s.m), (0x38#32, s.s), (0x40#32, s.a.re), (0x48#32, s.a.im),
        (0x50#32, s.b.re), (0x58#32, s.b.im), (0x60#32, s.w.re), (0x68#32, s.w.im)] →
      hostStep ⟨.read, addr, .eight, 0#64⟩ s = .next { s with resp := some ⟨.okay, some v⟩ }) ∧
    (∀ v, (0x01000000 ≤ addr.toNat ∧ addr.toNat < 0x01000000 + 16 * 2 ^ s.pMax.val) →
      memWord s.mem addr.toNat = some v →
      hostStep ⟨.read, addr, .eight, 0#64⟩ s = .next { s with resp := some ⟨.okay, some v⟩ })

/-! ## 30_encoding.md: the command words -/

/-- R75: decoding is total: a word with RSV not 0 is Illegal; one with RSV = 0 and OPC in the table is its row's
command; every other one is Illegal. -/
def Obligations.DecodeFollowsTheOpcodeMap : Prop :=
  ∀ v : Word,
    (v.extractLsb' 8 56 ≠ 0#56 → decode v = .illegal .reservedBits) ∧
    (v.extractLsb' 8 56 = 0#56 → ∀ i : Instr,
      (v.extractLsb' 0 8, i) ∈ [(0x00#8, Instr.nop), (0x01#8, Instr.cadd), (0x02#8, Instr.csub), (0x03#8, Instr.cmul),
        (0x04#8, Instr.cscale), (0x05#8, Instr.cconj), (0x06#8, Instr.cnorm), (0x07#8, Instr.cbfly),
        (0x08#8, Instr.ispow2), (0x09#8, Instr.bitrev), (0x0A#8, Instr.twid), (0x0B#8, Instr.dft),
        (0x0C#8, Instr.stage), (0x0D#8, Instr.fft)] → decode v = .command i) ∧
    (v.extractLsb' 8 56 = 0#56 → 0x0E ≤ (v.extractLsb' 0 8).toNat → decode v = .illegal .undefinedOpcode)

/-- R74: the word of a valid command is its zero-extended opcode, and that word alone decodes to it. -/
def Obligations.DecodeAndEncodeAgree : Prop :=
  (∀ (v : Word) (i : Instr), decode v = .command i ↔ v = encode i) ∧
  (∀ v : Word, validWord v = true ↔ ∃ i, v = encode i)

/-- L2.7: words written out from the spec. -/
def Obligations.SampleWordsDecode : Prop :=
  decode 0x0000000000000000#64 = .command .nop ∧ decode 0x000000000000000D#64 = .command .fft ∧
  decode 0x0000000000000003#64 = .command .cmul ∧ decode 0x0000000000000008#64 = .command .ispow2 ∧
  decode 0x000000000000000A#64 = .command .twid ∧ decode 0x000000000000000C#64 = .command .stage ∧
  decode 0x000000000000000E#64 = .illegal .undefinedOpcode ∧ decode 0x00000000000000FF#64 = .illegal .undefinedOpcode ∧
  decode 0x0000000000000101#64 = .illegal .reservedBits ∧ decode 0x8000000000000003#64 = .illegal .reservedBits

/-- R76: a word that decodes to Illegal is accepted like any other; the core's turn then ends it with ILLEGAL_CMD and
has no other effect. Turns are the model's agenda (log 8). -/
def Obligations.IllegalWordEndsWithIllegalCmd : Prop :=
  ∀ (s : State) (v : Word) (why : IllegalWhy), decode v = .illegal why →
    (s.status.busy = false → ∃ u, hostStep ⟨.write, 0x10#32, .eight, v⟩ s = .next u ∧ u.pcmd = v ∧
      u.status.busy = true) ∧
    (s.status.busy = true → s.pcmd = v →
      (s.agenda = [] → step s = .next { s with status := s.status.failed .illegalCmd }) ∧
      (∀ rest, s.agenda = .core :: rest →
        step s = .next { s with agenda := rest, status := s.status.failed .illegalCmd }))

/-! ## 40_complex_alu.md -/

/-- R82: CADD. The order in which the operations take their draws, and the count of
the draws, are the model's (log 5, log 3). -/
def Obligations.CaddResult : Prop :=
  decode 0x0000000000000001#64 = .command .cadd ∧ ∀ s : State, ∃ re n1 im n2, fadd s.a.re s.b.re s.nanDraws = (re, n1) ∧ fadd s.a.im s.b.im n1 = (im, n2) ∧
    exec .cadd s = .next { s with r0 := ⟨re, im⟩, nanDraws := n2, status := s.status.completed }

/-- R83: CSUB. The order in which the operations take their draws, and the count of
the draws, are the model's (log 5, log 3). -/
def Obligations.CsubResult : Prop :=
  decode 0x0000000000000002#64 = .command .csub ∧ ∀ s : State, ∃ re n1 im n2, fsub s.a.re s.b.re s.nanDraws = (re, n1) ∧ fsub s.a.im s.b.im n1 = (im, n2) ∧
    exec .csub s = .next { s with r0 := ⟨re, im⟩, nanDraws := n2, status := s.status.completed }

/-- R84: CMUL: four rounded products, one rounded difference, one rounded sum. The order in which the operations take
their draws, and the count of the draws, are the model's (log 5, log 3). -/
def Obligations.CmulResult : Prop :=
  decode 0x0000000000000003#64 = .command .cmul ∧ ∀ s : State, ∃ rr n1 ii n2 re n3 ri n4 ir n5 im n6,
    fmul s.a.re s.b.re s.nanDraws = (rr, n1) ∧ fmul s.a.im s.b.im n1 = (ii, n2) ∧ fsub rr ii n2 = (re, n3) ∧
    fmul s.a.re s.b.im n3 = (ri, n4) ∧ fmul s.a.im s.b.re n4 = (ir, n5) ∧ fadd ri ir n5 = (im, n6) ∧
    exec .cmul s = .next { s with r0 := ⟨re, im⟩, nanDraws := n6, status := s.status.completed }

/-- R85: cmul(a, b) and cmul(b, a) are equal part by part, bit for bit, but that a part may be a NaN in both, whatever
the draws. -/
def Obligations.CmulIsCommutative : Prop :=
  ∀ (a b : C64) (n n' : Nat), sameOrNaN2 (cmul a b n).1 (cmul b a n').1

/-- R86: CSCALE. The order in which the operations take their draws, and the count of
the draws, are the model's (log 5, log 3). -/
def Obligations.CscaleResult : Prop :=
  decode 0x0000000000000004#64 = .command .cscale ∧ ∀ s : State, ∃ re n1 im n2, fmul s.a.re s.s s.nanDraws = (re, n1) ∧ fmul s.a.im s.s n1 = (im, n2) ∧
    exec .cscale s = .next { s with r0 := ⟨re, im⟩, nanDraws := n2, status := s.status.completed }

/-- R87: CCONJ: the real part's bits unchanged, bit 63 of the imaginary part inverted, for every input; nothing is drawn;
twice, it gives the operand back. -/
def Obligations.CconjResult : Prop :=
  decode 0x0000000000000005#64 = .command .cconj ∧
  (∀ s : State, exec .cconj s = .next { s with
    r0 := ⟨s.a.re, s.a.im ^^^ 0x8000000000000000#64⟩, status := s.status.completed }) ∧
  (∀ c : C64, cconj (cconj c) = c)

/-- R88: CNORM: the formula, and +0.0 in R0_IM. The order in which the operations take their draws, and the count of the
draws, are the model's (log 5, log 3). -/
def Obligations.CnormResult : Prop :=
  decode 0x0000000000000006#64 = .command .cnorm ∧ ∀ s : State, ∃ rr n1 ii n2 sum n3 x n4,
    fmul s.a.re s.a.re s.nanDraws = (rr, n1) ∧ fmul s.a.im s.a.im n1 = (ii, n2) ∧ fadd rr ii n2 = (sum, n3) ∧
    fsqrt sum n3 = (x, n4) ∧
    exec .cnorm s = .next { s with r0 := ⟨x, 0x0000000000000000#64⟩, nanDraws := n4, status := s.status.completed }

/-- R88: the result of CNORM is never -0 and never negative: it is a NaN or its sign bit is 0. -/
def Obligations.CnormIsNeverNegative : Prop :=
  ∀ s t : State, exec .cnorm s = .next t → fIsNaN t.r0.re = true ∨ t.r0.re.msb = false

/-- R89, R90: CBFLY: t = cmul(W, B), R0 = A + t, R1 = A - t, from the same rounded t. The order in which the operations take
their draws, and the count of the draws, are the model's (log 5, log 3). -/
def Obligations.CbflyResult : Prop :=
  decode 0x0000000000000007#64 = .command .cbfly ∧ ∀ s : State, ∃ t n1 p n2 q n3, cmul s.w s.b s.nanDraws = (t, n1) ∧ cadd s.a t n1 = (p, n2) ∧ csub s.a t n2 = (q, n3) ∧
    exec .cbfly s = .next { s with r0 := p, r1 := q, nanDraws := n3, status := s.status.completed }

/-! ## 41_utilities.md -/

/-- R92: the completion of NOP changes BUSY and DONE alone; after its acceptance and completion STATUS shows BUSY 0,
DONE 1, ERR 0 and ERRCODE 0, with HAZ and FLAG as they were. -/
def Obligations.NopResult : Prop :=
  decode 0x0000000000000000#64 = .command .nop ∧
  (∀ s : State, exec .nop s = .next { s with status := { s.status with busy := false, done := true } }) ∧
  (∀ s : State, ∃ t, runCommand .nop s = some t ∧
    t.status = { busy := false, done := true, err := false, haz := s.status.haz, flag := s.status.flag,
                 errCode := .none })

/-- R93: ISPOW2 completes for every LEN, sets FLAG exactly when LEN is a power of two, and writes nothing else. -/
def Obligations.Ispow2Result : Prop :=
  decode 0x0000000000000008#64 = .command .ispow2 ∧ ∀ s : State, ∃ f : Bool, (f = true ↔ ∃ p : Nat, s.len.toNat = 2 ^ p) ∧
    exec .ispow2 s = .next { s with status := { s.status with busy := false, done := true, flag := f } }

/-- R94: for n = 2^p, bitrev_perm places the value of index i at index rev(i, p), reads y[i] = x[rev(i, p)], and is its
own inverse. -/
def Obligations.BitrevPermIsItsOwnInverse : Prop :=
  ∀ (p : Nat) (x : List C64), p < 64 → x.length = 2 ^ p →
    (∀ i < 2 ^ p, rev i p < 2 ^ p ∧ rev (rev i p) p = i ∧
      (bitrevPerm x (2 ^ p))[rev i p]? = x[i]? ∧ (bitrevPerm x (2 ^ p))[i]? = x[rev i p]?) ∧
    bitrevPerm (bitrevPerm x (2 ^ p)) (2 ^ p) = x

/-- R95: BITREV: its two errors, and for a written signal X[0 .. n-1] the permuted signal in Y[0 .. n-1]; nothing else
changes. -/
def Obligations.BitrevResult : Prop :=
  decode 0x0000000000000009#64 = .command .bitrev ∧ ∀ s : State,
    (badLength s → exec .bitrev s = .next { s with status := s.status.failed .notPow2 }) ∧
    (¬ badLength s → longLength s → exec .bitrev s = .next { s with status := s.status.failed .lenRange }) ∧
    (∀ (p : Nat) (x : List C64), s.len.toNat = 2 ^ p → ¬ longLength s → x.length = 2 ^ p →
      (∀ i < 2 ^ p, memEntry s.mem (xAddr i) = x[i]?) →
      ∃ t, exec .bitrev s = .next t ∧ t = { s with mem := t.mem, status := s.status.completed } ∧
        (∀ i < 2 ^ p, memEntry t.mem (yAddr (rev i p)) = x[i]?) ∧
        (∀ b, b < yAddr 0 ∨ yAddr (2 ^ p) ≤ b → memByte t.mem b = memByte s.mem b))

/-- R100: TWID: M_ZERO for M = 0, and otherwise TW(K, M) in R0, K not reduced. -/
def Obligations.TwidResult : Prop :=
  decode 0x000000000000000A#64 = .command .twid ∧ ∀ s : State,
    (s.m = 0#64 → exec .twid s = .next { s with status := s.status.failed .mZero }) ∧
    (s.m ≠ 0#64 → exec .twid s = .next { s with r0 := Config.tw s.k s.m, status := s.status.completed })

/-! ## 42_transforms.md -/

/-- R101: DFT: LEN_RANGE, and for a written signal X[0 .. n-1] the sums in ascending t from (+0, +0), output by output,
but for the bits of a NaN; no power of two is asked; LEN = 0 completes and changes no byte. -/
def Obligations.DftResult : Prop :=
  decode 0x000000000000000B#64 = .command .dft ∧ ∀ s : State,
    (longLength s → exec .dft s = .next { s with status := s.status.failed .lenRange }) ∧
    (∀ x : List C64, ¬ longLength s → x.length = s.len.toNat →
      (∀ i < s.len.toNat, memEntry s.mem (xAddr i) = x[i]?) →
      ∃ t, exec .dft s = .next t ∧
        t = { s with mem := t.mem, seq := t.seq, nanDraws := t.nanDraws, status := s.status.completed } ∧
        (∀ k < s.len.toNat, ∃ c, memEntry t.mem (yAddr k) = some c ∧
          sameOrNaN2 c (dftPartial (fun i => x.getD i ⟨0#64, 0#64⟩) s.len.toNat k s.len.toNat)) ∧
        (∀ b, b < yAddr 0 ∨ yAddr s.len.toNat ≤ b → memByte t.mem b = memByte s.mem b))

/-- R102, R103: STAGE: its three errors in their order; and for n = 2^p and m = 2^(q+1) with m at most n, each pair of
entries is replaced by its butterfly with the rotation factor of its index in the block, from the entries as they were,
but for the bits of a NaN; each block starts from (1, 0) and depends on its own entries alone (R107). -/
def Obligations.StageResult : Prop :=
  decode 0x000000000000000C#64 = .command .stage ∧ ∀ s : State,
    (badLength s → exec .stage s = .next { s with status := s.status.failed .notPow2 }) ∧
    (¬ badLength s → longLength s → exec .stage s = .next { s with status := s.status.failed .lenRange }) ∧
    (¬ badLength s → ¬ longLength s → badStageSize s →
      exec .stage s = .next { s with status := s.status.failed .badStage }) ∧
    ∀ (p q : Nat) (y : List C64), s.len.toNat = 2 ^ p → ¬ longLength s → s.m.toNat = 2 ^ (q + 1) → q < p →
      y.length = 2 ^ p → (∀ i < 2 ^ p, memEntry s.mem (yAddr i) = y[i]?) →
      ∃ t, exec .stage s = .next t ∧
        t = { s with mem := t.mem, seq := t.seq, nanDraws := t.nanDraws, status := s.status.completed } ∧
        (∀ blk j u b, blk < 2 ^ (p - (q + 1)) → j < 2 ^ q → y[blk * 2 ^ (q + 1) + j]? = some u →
          y[blk * 2 ^ (q + 1) + j + 2 ^ q]? = some b →
          ∃ c d, memEntry t.mem (yAddr (blk * 2 ^ (q + 1) + j)) = some c ∧
            memEntry t.mem (yAddr (blk * 2 ^ (q + 1) + j + 2 ^ q)) = some d ∧
            sameOrNaN2 c (cadd u (cmul (rotation (Config.tw 1#64 s.m) j) b 0).1 0).1 ∧
            sameOrNaN2 d (csub u (cmul (rotation (Config.tw 1#64 s.m) j) b 0).1 0).1) ∧
        (∀ b, b < yAddr 0 ∨ yAddr (2 ^ p) ≤ b → memByte t.mem b = memByte s.mem b)

/-- R105: FFT: its two errors; for a written signal it completes and changes Y[0 .. n-1] alone; LEN = 1 copies X[0] to
Y[0] bit for bit. -/
def Obligations.FftCompletes : Prop :=
  decode 0x000000000000000D#64 = .command .fft ∧ ∀ s : State,
    (badLength s → exec .fft s = .next { s with status := s.status.failed .notPow2 }) ∧
    (¬ badLength s → longLength s → exec .fft s = .next { s with status := s.status.failed .lenRange }) ∧
    (∀ p : Nat, s.len.toNat = 2 ^ p → ¬ longLength s → (∀ i < 2 ^ p, memEntry s.mem (xAddr i) ≠ none) →
      ∃ t, exec .fft s = .next t ∧
        t = { s with mem := t.mem, seq := t.seq, nanDraws := t.nanDraws, status := s.status.completed } ∧
        (∀ i < 2 ^ p, memEntry t.mem (yAddr i) ≠ none) ∧
        (p = 0 → memEntry t.mem (yAddr 0) = memEntry s.mem (xAddr 0)) ∧
        (∀ b, b < yAddr 0 ∨ yAddr (2 ^ p) ≤ b → memByte t.mem b = memByte s.mem b))

/-- R109, R104, R106: for n = 2^p at most N_MAX and a written X, `run FFT` and `run BITREV` followed by `run STAGE` with
M = 2, 4, ..., n leave the same Y[0 .. n-1], bit for bit, and the same STATUS, without error. That NaN bits are the same
too rests on the model's numbering of the draws (log 3, log 5); R19 itself lets nothing rely on them. -/
def Obligations.FftEqualsBitrevThenStages : Prop :=
  ∀ (s : State) (p : Nat), s.len.toNat = 2 ^ p → ¬ longLength s → (∀ i < 2 ^ p, memEntry s.mem (xAddr i) ≠ none) →
    ∃ t u, runCommand .fft s = some t ∧
      ((List.range p).map (fun q => 2 ^ (q + 1))).foldl runStageOf (runCommand .bitrev s) = some u ∧
      (∀ i < 2 ^ p, memEntry t.mem (yAddr i) = memEntry u.mem (yAddr i)) ∧ t.status = u.status ∧
      t.status = { busy := false, done := true, err := false, haz := s.status.haz, flag := s.status.flag,
                   errCode := .none }

/-- R105's examples: the fast transform of the impulse (1, 0, 0, 0) and of the constant (1, 1, 1, 1) is exact, with every
zero +0, for every twiddle function whose values TW(1, 2) and TW(1, 4) are finite. -/
def Obligations.ImpulseAndConstantAreExact : Prop :=
  ∀ (tw : Word → Word → C64) (q : Seq) (n : Nat),
    (∀ m, m = 2#64 ∨ m = 4#64 → fIsFinite (tw 1#64 m).re = true ∧ fIsFinite (tw 1#64 m).im = true) →
    (runStages tw 4 ⟨bitrevPerm [⟨0x3FF0000000000000#64, 0#64⟩, ⟨0#64, 0#64⟩, ⟨0#64, 0#64⟩, ⟨0#64, 0#64⟩] 4, q, n⟩).a =
      [⟨0x3FF0000000000000#64, 0#64⟩, ⟨0x3FF0000000000000#64, 0#64⟩, ⟨0x3FF0000000000000#64, 0#64⟩,
       ⟨0x3FF0000000000000#64, 0#64⟩] ∧
    (runStages tw 4 ⟨bitrevPerm [⟨0x3FF0000000000000#64, 0#64⟩, ⟨0x3FF0000000000000#64, 0#64⟩,
        ⟨0x3FF0000000000000#64, 0#64⟩, ⟨0x3FF0000000000000#64, 0#64⟩] 4, q, n⟩).a =
      [⟨0x4010000000000000#64, 0#64⟩, ⟨0#64, 0#64⟩, ⟨0#64, 0#64⟩, ⟨0#64, 0#64⟩]

/-- R110: for n = 2^p the stages of FFT, block by block, hold (n/2)*p butterflies, in p stages. -/
def Obligations.FftButterflyCount : Prop :=
  ∀ p : Nat, p < 64 →
    (stageSizes (2 ^ p)).length = p ∧
    ((stageSizes (2 ^ p)).map (fun m => (blockStarts (2 ^ p) m).length * (m / 2))).sum = 2 ^ p / 2 * p

/-! ## 60_exceptions.md -/

/-- R115, R116, R113, R112: a command that has an error ends with exactly the first code in the order of the checks, and
changes nothing but BUSY, DONE, ERR and ERRCODE; a command without one leaves ERR and ERRCODE as they were. -/
def Obligations.FirstErrorIsReportedAlone : Prop :=
  (∀ (i : Instr) (s : State) (code : ErrCode), hasError i s code →
    exec i s = .next { s with
      status := { s.status with busy := false, done := true, err := true, errCode := code } }) ∧
  (∀ (i : Instr) (s t : State), noError i s → exec i s = .next t →
    t.status.err = s.status.err ∧ t.status.errCode = s.status.errCode)

/-- R48, R50: a command without an error completes, BUSY 0 and DONE 1, unless it reads a word that nothing has written,
which faults; and no command is ever refused. -/
def Obligations.CommandsCompleteUnlessAWordIsUnwritten : Prop :=
  ∀ (i : Instr) (s : State),
    (noError i s → ¬ missesWord i s →
      ∃ t, exec i s = .next t ∧ t.status = { s.status.completed with flag := t.status.flag }) ∧
    (noError i s → missesWord i s → exec i s = .fault .unwrittenSample) ∧
    (∀ r, exec i s ≠ .refused r)

/-- The frame of the commands that store nothing to memory (R74, R81): every byte of memory, every operand register,
CTRL, ID, the hidden values and the host's side are unchanged; R0 changes only by CADD, CSUB, CMUL, CSCALE, CCONJ, CNORM,
CBFLY and TWID (R41), R1 only by CBFLY, FLAG only by ISPOW2 (R35), HAZ by none. -/
def Obligations.RegisterCommandsFrame : Prop :=
  ∀ (i : Instr) (s t : State),
    i ∈ [.nop, .cadd, .csub, .cmul, .cscale, .cconj, .cnorm, .cbfly, .ispow2, .twid] → exec i s = .next t →
    operandsKept s t ∧ hostSideKept s t ∧ t.seq = s.seq ∧ (∀ b, memByte t.mem b = memByte s.mem b) ∧
    (i = .nop ∨ i = .ispow2 → t.r0 = s.r0) ∧ (i ≠ .cbfly → t.r1 = s.r1) ∧
    (i ≠ .ispow2 → t.status.flag = s.status.flag) ∧ t.status.haz = s.status.haz

/-- The frame of the commands that store to Y (R46, R63, R116): every byte of memory is unchanged but those of Y[0] to
Y[LEN-1], and those too where the command has an error; every register and the host's side are unchanged, and of STATUS
FLAG and HAZ. -/
def Obligations.TransformsFrame : Prop :=
  ∀ (i : Instr) (s t : State), i ∈ [.bitrev, .dft, .stage, .fft] → exec i s = .next t →
    operandsKept s t ∧ hostSideKept s t ∧ t.r0 = s.r0 ∧ t.r1 = s.r1 ∧
    t.status.flag = s.status.flag ∧ t.status.haz = s.status.haz ∧
    (∀ b, (noError i s → b < yAddr 0 ∨ yAddr s.len.toNat ≤ b) → memByte t.mem b = memByte s.mem b)

/-- R74: what a command writes depends on what its row says it reads, and on nothing else: from two states that agree on
those places (and on P_MAX and the draws) it faults in both, has the same errors in both, or writes the
same. That NaN bits are the same too rests on the model's numbering of the draws (log 3, log 5). -/
def Obligations.ResultsDependOnTheReadsAlone : Prop :=
  ∀ (i : Instr) (s s' : State), s.pMax = s'.pMax → s.nanDraws = s'.nanDraws → (∀ o ∈ i.reads, agreeOn s s' o) →
    (∀ code, hasError i s code ↔ hasError i s' code) ∧
    (∀ f, exec i s = .fault f → exec i s' = .fault f) ∧
    (∀ t, noError i s → exec i s = .next t →
      ∃ t', exec i s' = .next t' ∧ ∀ o ∈ i.writes, agreeOn t t' o)

/-- R118: irq is IRQ_EN and DONE; it is 0 after a write of STATUS with bit 1, after acceptance, and after IRQ_EN = 0; a
completion without or with an error raises it when IRQ_EN is 1. -/
def Obligations.InterruptFollowsDone : Prop :=
  (∀ s : State, irq s = true ↔ s.irqEn = true ∧ s.status.done = true) ∧
  (∀ (s t : State) (v : Word), hostStep ⟨.write, 0x18#32, .eight, v⟩ s = .next t → v.getLsbD 1 = true → irq t = false) ∧
  (∀ (s t : State) (v : Word), s.status.busy = false → hostStep ⟨.write, 0x10#32, .eight, v⟩ s = .next t →
    irq t = false) ∧
  (∀ (s t : State) (v : Word), hostStep ⟨.write, 0x08#32, .eight, v⟩ s = .next t → v.getLsbD 0 = false →
    irq t = false) ∧
  (∀ (i : Instr) (s t : State), exec i s = .next t → irq t = s.irqEn)

/-! ## 70_reset_and_hazards.md: idleness and progress -/

/-- R128, R131: an idle core keeps all its state: with no host transaction pending a step changes nothing, and a turn of
the core uses up that turn and changes nothing else. Turns are the model's agenda, and an idle core's turn is the
model's (log 8, log 9). -/
def Obligations.IdleCoreKeepsItsState : Prop :=
  ∀ s : State, s.status.busy = false →
    (s.agenda = [] → step s = .next s) ∧
    (∀ rest, s.agenda = .core :: rest → step s = .next { s with agenda := rest })

/-- R54, R65: in the host's turn a step performs one whole transaction. Turns are the model's agenda (log 8). -/
def Obligations.HostTurnIsOneTransaction : Prop :=
  ∀ (s : State) (t : Transaction) (rest : List Move), s.agenda = .host t :: rest →
    step s = hostStep t { s with agenda := rest }

/-- R137: an accepted command completes: from a state with BUSY = 1, after at most one step more than there are moves
pending, BUSY is 0, or a step has met a word that nothing has written. That the core has its turn where no
move is pending is the model's form of weak fairness (log 8). -/
def Obligations.AcceptedCommandsComplete : Prop :=
  ∀ s : State, s.status.busy = true →
    ∃ k ≤ s.agenda.length + 1,
      (∃ t, Sys2Proof.core.run k s = .next t ∧ t.status.busy = false) ∨
        Sys2Proof.core.run k s = .fault .unwrittenSample

/-! ## The arithmetic's infinities -/

/-- R17 as IEEE 754 has it (log 20), for the operands that no statement above covers: an infinity plus or minus a finite
value or an infinity that does not cancel it; an infinity times a value that is neither a zero nor a NaN; the roots of +inf
and of the zeros. The corner cases of R82, R83, R84, R86, R88 and R90 use them. That no draw is taken is said by the
model's count (log 3). -/
def Obligations.InfinitiesAndRootsOfZero : Prop :=
  (∀ a b n, fIsInf a = true → fIsFinite b = true →
    fadd a b n = (a, n) ∧ fadd b a n = (a, n) ∧ fsub a b n = (a, n) ∧ fsub b a n = (fneg a, n)) ∧
  (∀ a b n, fIsInf a = true → fIsInf b = true →
    (fSign a = fSign b → fadd a b n = (a, n)) ∧ (fSign a ≠ fSign b → fsub a b n = (a, n))) ∧
  (∀ a b n, fIsInf a = true → fIsNaN b = false → fIsZero b = false →
    fmul a b n = (if fSign a = fSign b then 0x7FF0000000000000#64 else 0xFFF0000000000000#64, n) ∧
    fmul b a n = (if fSign a = fSign b then 0x7FF0000000000000#64 else 0xFFF0000000000000#64, n)) ∧
  (∀ n, fsqrt 0x7FF0000000000000#64 n = (0x7FF0000000000000#64, n)) ∧
  (∀ n, fsqrt 0x0000000000000000#64 n = (0x0000000000000000#64, n)) ∧
  (∀ n, fsqrt 0x8000000000000000#64 n = (0x8000000000000000#64, n))
end

