-- ==== Sys2Proof/Laws/State.lean ====
section
/-! SUPPORT. What every field of State is after each update: one lemma per field per update. -/

namespace Sys2Proof.Machine

/-! ## withIrqEn -/

@[simp] theorem withIrqEn_pMax (s : State) (v : Bool) : (s.withIrqEn v).pMax = s.pMax := rfl
@[simp] theorem withIrqEn_irqEn (s : State) (v : Bool) : (s.withIrqEn v).irqEn = v := rfl
@[simp] theorem withIrqEn_status (s : State) (v : Bool) : (s.withIrqEn v).status = s.status := rfl
@[simp] theorem withIrqEn_len (s : State) (v : Bool) : (s.withIrqEn v).len = s.len := rfl
@[simp] theorem withIrqEn_k (s : State) (v : Bool) : (s.withIrqEn v).k = s.k := rfl
@[simp] theorem withIrqEn_m (s : State) (v : Bool) : (s.withIrqEn v).m = s.m := rfl
@[simp] theorem withIrqEn_s (s : State) (v : Bool) : (s.withIrqEn v).s = s.s := rfl
@[simp] theorem withIrqEn_a (s : State) (v : Bool) : (s.withIrqEn v).a = s.a := rfl
@[simp] theorem withIrqEn_b (s : State) (v : Bool) : (s.withIrqEn v).b = s.b := rfl
@[simp] theorem withIrqEn_w (s : State) (v : Bool) : (s.withIrqEn v).w = s.w := rfl
@[simp] theorem withIrqEn_r0 (s : State) (v : Bool) : (s.withIrqEn v).r0 = s.r0 := rfl
@[simp] theorem withIrqEn_r1 (s : State) (v : Bool) : (s.withIrqEn v).r1 = s.r1 := rfl
@[simp] theorem withIrqEn_pcmd (s : State) (v : Bool) : (s.withIrqEn v).pcmd = s.pcmd := rfl
@[simp] theorem withIrqEn_seq (s : State) (v : Bool) : (s.withIrqEn v).seq = s.seq := rfl
@[simp] theorem withIrqEn_mem (s : State) (v : Bool) : (s.withIrqEn v).mem = s.mem := rfl
@[simp] theorem withIrqEn_agenda (s : State) (v : Bool) : (s.withIrqEn v).agenda = s.agenda := rfl
@[simp] theorem withIrqEn_resp (s : State) (v : Bool) : (s.withIrqEn v).resp = s.resp := rfl
@[simp] theorem withIrqEn_nanDraws (s : State) (v : Bool) : (s.withIrqEn v).nanDraws = s.nanDraws := rfl
@[simp] theorem withIrqEn_readDraws (s : State) (v : Bool) : (s.withIrqEn v).readDraws = s.readDraws := rfl

/-! ## withStatus -/

@[simp] theorem withStatus_pMax (s : State) (v : Status) : (s.withStatus v).pMax = s.pMax := rfl
@[simp] theorem withStatus_irqEn (s : State) (v : Status) : (s.withStatus v).irqEn = s.irqEn := rfl
@[simp] theorem withStatus_status (s : State) (v : Status) : (s.withStatus v).status = v := rfl
@[simp] theorem withStatus_len (s : State) (v : Status) : (s.withStatus v).len = s.len := rfl
@[simp] theorem withStatus_k (s : State) (v : Status) : (s.withStatus v).k = s.k := rfl
@[simp] theorem withStatus_m (s : State) (v : Status) : (s.withStatus v).m = s.m := rfl
@[simp] theorem withStatus_s (s : State) (v : Status) : (s.withStatus v).s = s.s := rfl
@[simp] theorem withStatus_a (s : State) (v : Status) : (s.withStatus v).a = s.a := rfl
@[simp] theorem withStatus_b (s : State) (v : Status) : (s.withStatus v).b = s.b := rfl
@[simp] theorem withStatus_w (s : State) (v : Status) : (s.withStatus v).w = s.w := rfl
@[simp] theorem withStatus_r0 (s : State) (v : Status) : (s.withStatus v).r0 = s.r0 := rfl
@[simp] theorem withStatus_r1 (s : State) (v : Status) : (s.withStatus v).r1 = s.r1 := rfl
@[simp] theorem withStatus_pcmd (s : State) (v : Status) : (s.withStatus v).pcmd = s.pcmd := rfl
@[simp] theorem withStatus_seq (s : State) (v : Status) : (s.withStatus v).seq = s.seq := rfl
@[simp] theorem withStatus_mem (s : State) (v : Status) : (s.withStatus v).mem = s.mem := rfl
@[simp] theorem withStatus_agenda (s : State) (v : Status) : (s.withStatus v).agenda = s.agenda := rfl
@[simp] theorem withStatus_resp (s : State) (v : Status) : (s.withStatus v).resp = s.resp := rfl
@[simp] theorem withStatus_nanDraws (s : State) (v : Status) : (s.withStatus v).nanDraws = s.nanDraws := rfl
@[simp] theorem withStatus_readDraws (s : State) (v : Status) : (s.withStatus v).readDraws = s.readDraws := rfl

/-! ## withLen -/

@[simp] theorem withLen_pMax (s : State) (v : Word) : (s.withLen v).pMax = s.pMax := rfl
@[simp] theorem withLen_irqEn (s : State) (v : Word) : (s.withLen v).irqEn = s.irqEn := rfl
@[simp] theorem withLen_status (s : State) (v : Word) : (s.withLen v).status = s.status := rfl
@[simp] theorem withLen_len (s : State) (v : Word) : (s.withLen v).len = v := rfl
@[simp] theorem withLen_k (s : State) (v : Word) : (s.withLen v).k = s.k := rfl
@[simp] theorem withLen_m (s : State) (v : Word) : (s.withLen v).m = s.m := rfl
@[simp] theorem withLen_s (s : State) (v : Word) : (s.withLen v).s = s.s := rfl
@[simp] theorem withLen_a (s : State) (v : Word) : (s.withLen v).a = s.a := rfl
@[simp] theorem withLen_b (s : State) (v : Word) : (s.withLen v).b = s.b := rfl
@[simp] theorem withLen_w (s : State) (v : Word) : (s.withLen v).w = s.w := rfl
@[simp] theorem withLen_r0 (s : State) (v : Word) : (s.withLen v).r0 = s.r0 := rfl
@[simp] theorem withLen_r1 (s : State) (v : Word) : (s.withLen v).r1 = s.r1 := rfl
@[simp] theorem withLen_pcmd (s : State) (v : Word) : (s.withLen v).pcmd = s.pcmd := rfl
@[simp] theorem withLen_seq (s : State) (v : Word) : (s.withLen v).seq = s.seq := rfl
@[simp] theorem withLen_mem (s : State) (v : Word) : (s.withLen v).mem = s.mem := rfl
@[simp] theorem withLen_agenda (s : State) (v : Word) : (s.withLen v).agenda = s.agenda := rfl
@[simp] theorem withLen_resp (s : State) (v : Word) : (s.withLen v).resp = s.resp := rfl
@[simp] theorem withLen_nanDraws (s : State) (v : Word) : (s.withLen v).nanDraws = s.nanDraws := rfl
@[simp] theorem withLen_readDraws (s : State) (v : Word) : (s.withLen v).readDraws = s.readDraws := rfl

/-! ## withK -/

@[simp] theorem withK_pMax (s : State) (v : Word) : (s.withK v).pMax = s.pMax := rfl
@[simp] theorem withK_irqEn (s : State) (v : Word) : (s.withK v).irqEn = s.irqEn := rfl
@[simp] theorem withK_status (s : State) (v : Word) : (s.withK v).status = s.status := rfl
@[simp] theorem withK_len (s : State) (v : Word) : (s.withK v).len = s.len := rfl
@[simp] theorem withK_k (s : State) (v : Word) : (s.withK v).k = v := rfl
@[simp] theorem withK_m (s : State) (v : Word) : (s.withK v).m = s.m := rfl
@[simp] theorem withK_s (s : State) (v : Word) : (s.withK v).s = s.s := rfl
@[simp] theorem withK_a (s : State) (v : Word) : (s.withK v).a = s.a := rfl
@[simp] theorem withK_b (s : State) (v : Word) : (s.withK v).b = s.b := rfl
@[simp] theorem withK_w (s : State) (v : Word) : (s.withK v).w = s.w := rfl
@[simp] theorem withK_r0 (s : State) (v : Word) : (s.withK v).r0 = s.r0 := rfl
@[simp] theorem withK_r1 (s : State) (v : Word) : (s.withK v).r1 = s.r1 := rfl
@[simp] theorem withK_pcmd (s : State) (v : Word) : (s.withK v).pcmd = s.pcmd := rfl
@[simp] theorem withK_seq (s : State) (v : Word) : (s.withK v).seq = s.seq := rfl
@[simp] theorem withK_mem (s : State) (v : Word) : (s.withK v).mem = s.mem := rfl
@[simp] theorem withK_agenda (s : State) (v : Word) : (s.withK v).agenda = s.agenda := rfl
@[simp] theorem withK_resp (s : State) (v : Word) : (s.withK v).resp = s.resp := rfl
@[simp] theorem withK_nanDraws (s : State) (v : Word) : (s.withK v).nanDraws = s.nanDraws := rfl
@[simp] theorem withK_readDraws (s : State) (v : Word) : (s.withK v).readDraws = s.readDraws := rfl

/-! ## withM -/

@[simp] theorem withM_pMax (s : State) (v : Word) : (s.withM v).pMax = s.pMax := rfl
@[simp] theorem withM_irqEn (s : State) (v : Word) : (s.withM v).irqEn = s.irqEn := rfl
@[simp] theorem withM_status (s : State) (v : Word) : (s.withM v).status = s.status := rfl
@[simp] theorem withM_len (s : State) (v : Word) : (s.withM v).len = s.len := rfl
@[simp] theorem withM_k (s : State) (v : Word) : (s.withM v).k = s.k := rfl
@[simp] theorem withM_m (s : State) (v : Word) : (s.withM v).m = v := rfl
@[simp] theorem withM_s (s : State) (v : Word) : (s.withM v).s = s.s := rfl
@[simp] theorem withM_a (s : State) (v : Word) : (s.withM v).a = s.a := rfl
@[simp] theorem withM_b (s : State) (v : Word) : (s.withM v).b = s.b := rfl
@[simp] theorem withM_w (s : State) (v : Word) : (s.withM v).w = s.w := rfl
@[simp] theorem withM_r0 (s : State) (v : Word) : (s.withM v).r0 = s.r0 := rfl
@[simp] theorem withM_r1 (s : State) (v : Word) : (s.withM v).r1 = s.r1 := rfl
@[simp] theorem withM_pcmd (s : State) (v : Word) : (s.withM v).pcmd = s.pcmd := rfl
@[simp] theorem withM_seq (s : State) (v : Word) : (s.withM v).seq = s.seq := rfl
@[simp] theorem withM_mem (s : State) (v : Word) : (s.withM v).mem = s.mem := rfl
@[simp] theorem withM_agenda (s : State) (v : Word) : (s.withM v).agenda = s.agenda := rfl
@[simp] theorem withM_resp (s : State) (v : Word) : (s.withM v).resp = s.resp := rfl
@[simp] theorem withM_nanDraws (s : State) (v : Word) : (s.withM v).nanDraws = s.nanDraws := rfl
@[simp] theorem withM_readDraws (s : State) (v : Word) : (s.withM v).readDraws = s.readDraws := rfl

/-! ## withS -/

@[simp] theorem withS_pMax (s : State) (v : F64) : (s.withS v).pMax = s.pMax := rfl
@[simp] theorem withS_irqEn (s : State) (v : F64) : (s.withS v).irqEn = s.irqEn := rfl
@[simp] theorem withS_status (s : State) (v : F64) : (s.withS v).status = s.status := rfl
@[simp] theorem withS_len (s : State) (v : F64) : (s.withS v).len = s.len := rfl
@[simp] theorem withS_k (s : State) (v : F64) : (s.withS v).k = s.k := rfl
@[simp] theorem withS_m (s : State) (v : F64) : (s.withS v).m = s.m := rfl
@[simp] theorem withS_s (s : State) (v : F64) : (s.withS v).s = v := rfl
@[simp] theorem withS_a (s : State) (v : F64) : (s.withS v).a = s.a := rfl
@[simp] theorem withS_b (s : State) (v : F64) : (s.withS v).b = s.b := rfl
@[simp] theorem withS_w (s : State) (v : F64) : (s.withS v).w = s.w := rfl
@[simp] theorem withS_r0 (s : State) (v : F64) : (s.withS v).r0 = s.r0 := rfl
@[simp] theorem withS_r1 (s : State) (v : F64) : (s.withS v).r1 = s.r1 := rfl
@[simp] theorem withS_pcmd (s : State) (v : F64) : (s.withS v).pcmd = s.pcmd := rfl
@[simp] theorem withS_seq (s : State) (v : F64) : (s.withS v).seq = s.seq := rfl
@[simp] theorem withS_mem (s : State) (v : F64) : (s.withS v).mem = s.mem := rfl
@[simp] theorem withS_agenda (s : State) (v : F64) : (s.withS v).agenda = s.agenda := rfl
@[simp] theorem withS_resp (s : State) (v : F64) : (s.withS v).resp = s.resp := rfl
@[simp] theorem withS_nanDraws (s : State) (v : F64) : (s.withS v).nanDraws = s.nanDraws := rfl
@[simp] theorem withS_readDraws (s : State) (v : F64) : (s.withS v).readDraws = s.readDraws := rfl

/-! ## withA -/

@[simp] theorem withA_pMax (s : State) (v : C64) : (s.withA v).pMax = s.pMax := rfl
@[simp] theorem withA_irqEn (s : State) (v : C64) : (s.withA v).irqEn = s.irqEn := rfl
@[simp] theorem withA_status (s : State) (v : C64) : (s.withA v).status = s.status := rfl
@[simp] theorem withA_len (s : State) (v : C64) : (s.withA v).len = s.len := rfl
@[simp] theorem withA_k (s : State) (v : C64) : (s.withA v).k = s.k := rfl
@[simp] theorem withA_m (s : State) (v : C64) : (s.withA v).m = s.m := rfl
@[simp] theorem withA_s (s : State) (v : C64) : (s.withA v).s = s.s := rfl
@[simp] theorem withA_a (s : State) (v : C64) : (s.withA v).a = v := rfl
@[simp] theorem withA_b (s : State) (v : C64) : (s.withA v).b = s.b := rfl
@[simp] theorem withA_w (s : State) (v : C64) : (s.withA v).w = s.w := rfl
@[simp] theorem withA_r0 (s : State) (v : C64) : (s.withA v).r0 = s.r0 := rfl
@[simp] theorem withA_r1 (s : State) (v : C64) : (s.withA v).r1 = s.r1 := rfl
@[simp] theorem withA_pcmd (s : State) (v : C64) : (s.withA v).pcmd = s.pcmd := rfl
@[simp] theorem withA_seq (s : State) (v : C64) : (s.withA v).seq = s.seq := rfl
@[simp] theorem withA_mem (s : State) (v : C64) : (s.withA v).mem = s.mem := rfl
@[simp] theorem withA_agenda (s : State) (v : C64) : (s.withA v).agenda = s.agenda := rfl
@[simp] theorem withA_resp (s : State) (v : C64) : (s.withA v).resp = s.resp := rfl
@[simp] theorem withA_nanDraws (s : State) (v : C64) : (s.withA v).nanDraws = s.nanDraws := rfl
@[simp] theorem withA_readDraws (s : State) (v : C64) : (s.withA v).readDraws = s.readDraws := rfl

/-! ## withB -/

@[simp] theorem withB_pMax (s : State) (v : C64) : (s.withB v).pMax = s.pMax := rfl
@[simp] theorem withB_irqEn (s : State) (v : C64) : (s.withB v).irqEn = s.irqEn := rfl
@[simp] theorem withB_status (s : State) (v : C64) : (s.withB v).status = s.status := rfl
@[simp] theorem withB_len (s : State) (v : C64) : (s.withB v).len = s.len := rfl
@[simp] theorem withB_k (s : State) (v : C64) : (s.withB v).k = s.k := rfl
@[simp] theorem withB_m (s : State) (v : C64) : (s.withB v).m = s.m := rfl
@[simp] theorem withB_s (s : State) (v : C64) : (s.withB v).s = s.s := rfl
@[simp] theorem withB_a (s : State) (v : C64) : (s.withB v).a = s.a := rfl
@[simp] theorem withB_b (s : State) (v : C64) : (s.withB v).b = v := rfl
@[simp] theorem withB_w (s : State) (v : C64) : (s.withB v).w = s.w := rfl
@[simp] theorem withB_r0 (s : State) (v : C64) : (s.withB v).r0 = s.r0 := rfl
@[simp] theorem withB_r1 (s : State) (v : C64) : (s.withB v).r1 = s.r1 := rfl
@[simp] theorem withB_pcmd (s : State) (v : C64) : (s.withB v).pcmd = s.pcmd := rfl
@[simp] theorem withB_seq (s : State) (v : C64) : (s.withB v).seq = s.seq := rfl
@[simp] theorem withB_mem (s : State) (v : C64) : (s.withB v).mem = s.mem := rfl
@[simp] theorem withB_agenda (s : State) (v : C64) : (s.withB v).agenda = s.agenda := rfl
@[simp] theorem withB_resp (s : State) (v : C64) : (s.withB v).resp = s.resp := rfl
@[simp] theorem withB_nanDraws (s : State) (v : C64) : (s.withB v).nanDraws = s.nanDraws := rfl
@[simp] theorem withB_readDraws (s : State) (v : C64) : (s.withB v).readDraws = s.readDraws := rfl

/-! ## withW -/

@[simp] theorem withW_pMax (s : State) (v : C64) : (s.withW v).pMax = s.pMax := rfl
@[simp] theorem withW_irqEn (s : State) (v : C64) : (s.withW v).irqEn = s.irqEn := rfl
@[simp] theorem withW_status (s : State) (v : C64) : (s.withW v).status = s.status := rfl
@[simp] theorem withW_len (s : State) (v : C64) : (s.withW v).len = s.len := rfl
@[simp] theorem withW_k (s : State) (v : C64) : (s.withW v).k = s.k := rfl
@[simp] theorem withW_m (s : State) (v : C64) : (s.withW v).m = s.m := rfl
@[simp] theorem withW_s (s : State) (v : C64) : (s.withW v).s = s.s := rfl
@[simp] theorem withW_a (s : State) (v : C64) : (s.withW v).a = s.a := rfl
@[simp] theorem withW_b (s : State) (v : C64) : (s.withW v).b = s.b := rfl
@[simp] theorem withW_w (s : State) (v : C64) : (s.withW v).w = v := rfl
@[simp] theorem withW_r0 (s : State) (v : C64) : (s.withW v).r0 = s.r0 := rfl
@[simp] theorem withW_r1 (s : State) (v : C64) : (s.withW v).r1 = s.r1 := rfl
@[simp] theorem withW_pcmd (s : State) (v : C64) : (s.withW v).pcmd = s.pcmd := rfl
@[simp] theorem withW_seq (s : State) (v : C64) : (s.withW v).seq = s.seq := rfl
@[simp] theorem withW_mem (s : State) (v : C64) : (s.withW v).mem = s.mem := rfl
@[simp] theorem withW_agenda (s : State) (v : C64) : (s.withW v).agenda = s.agenda := rfl
@[simp] theorem withW_resp (s : State) (v : C64) : (s.withW v).resp = s.resp := rfl
@[simp] theorem withW_nanDraws (s : State) (v : C64) : (s.withW v).nanDraws = s.nanDraws := rfl
@[simp] theorem withW_readDraws (s : State) (v : C64) : (s.withW v).readDraws = s.readDraws := rfl

/-! ## withR0 -/

@[simp] theorem withR0_pMax (s : State) (v : C64) : (s.withR0 v).pMax = s.pMax := rfl
@[simp] theorem withR0_irqEn (s : State) (v : C64) : (s.withR0 v).irqEn = s.irqEn := rfl
@[simp] theorem withR0_status (s : State) (v : C64) : (s.withR0 v).status = s.status := rfl
@[simp] theorem withR0_len (s : State) (v : C64) : (s.withR0 v).len = s.len := rfl
@[simp] theorem withR0_k (s : State) (v : C64) : (s.withR0 v).k = s.k := rfl
@[simp] theorem withR0_m (s : State) (v : C64) : (s.withR0 v).m = s.m := rfl
@[simp] theorem withR0_s (s : State) (v : C64) : (s.withR0 v).s = s.s := rfl
@[simp] theorem withR0_a (s : State) (v : C64) : (s.withR0 v).a = s.a := rfl
@[simp] theorem withR0_b (s : State) (v : C64) : (s.withR0 v).b = s.b := rfl
@[simp] theorem withR0_w (s : State) (v : C64) : (s.withR0 v).w = s.w := rfl
@[simp] theorem withR0_r0 (s : State) (v : C64) : (s.withR0 v).r0 = v := rfl
@[simp] theorem withR0_r1 (s : State) (v : C64) : (s.withR0 v).r1 = s.r1 := rfl
@[simp] theorem withR0_pcmd (s : State) (v : C64) : (s.withR0 v).pcmd = s.pcmd := rfl
@[simp] theorem withR0_seq (s : State) (v : C64) : (s.withR0 v).seq = s.seq := rfl
@[simp] theorem withR0_mem (s : State) (v : C64) : (s.withR0 v).mem = s.mem := rfl
@[simp] theorem withR0_agenda (s : State) (v : C64) : (s.withR0 v).agenda = s.agenda := rfl
@[simp] theorem withR0_resp (s : State) (v : C64) : (s.withR0 v).resp = s.resp := rfl
@[simp] theorem withR0_nanDraws (s : State) (v : C64) : (s.withR0 v).nanDraws = s.nanDraws := rfl
@[simp] theorem withR0_readDraws (s : State) (v : C64) : (s.withR0 v).readDraws = s.readDraws := rfl

/-! ## withR1 -/

@[simp] theorem withR1_pMax (s : State) (v : C64) : (s.withR1 v).pMax = s.pMax := rfl
@[simp] theorem withR1_irqEn (s : State) (v : C64) : (s.withR1 v).irqEn = s.irqEn := rfl
@[simp] theorem withR1_status (s : State) (v : C64) : (s.withR1 v).status = s.status := rfl
@[simp] theorem withR1_len (s : State) (v : C64) : (s.withR1 v).len = s.len := rfl
@[simp] theorem withR1_k (s : State) (v : C64) : (s.withR1 v).k = s.k := rfl
@[simp] theorem withR1_m (s : State) (v : C64) : (s.withR1 v).m = s.m := rfl
@[simp] theorem withR1_s (s : State) (v : C64) : (s.withR1 v).s = s.s := rfl
@[simp] theorem withR1_a (s : State) (v : C64) : (s.withR1 v).a = s.a := rfl
@[simp] theorem withR1_b (s : State) (v : C64) : (s.withR1 v).b = s.b := rfl
@[simp] theorem withR1_w (s : State) (v : C64) : (s.withR1 v).w = s.w := rfl
@[simp] theorem withR1_r0 (s : State) (v : C64) : (s.withR1 v).r0 = s.r0 := rfl
@[simp] theorem withR1_r1 (s : State) (v : C64) : (s.withR1 v).r1 = v := rfl
@[simp] theorem withR1_pcmd (s : State) (v : C64) : (s.withR1 v).pcmd = s.pcmd := rfl
@[simp] theorem withR1_seq (s : State) (v : C64) : (s.withR1 v).seq = s.seq := rfl
@[simp] theorem withR1_mem (s : State) (v : C64) : (s.withR1 v).mem = s.mem := rfl
@[simp] theorem withR1_agenda (s : State) (v : C64) : (s.withR1 v).agenda = s.agenda := rfl
@[simp] theorem withR1_resp (s : State) (v : C64) : (s.withR1 v).resp = s.resp := rfl
@[simp] theorem withR1_nanDraws (s : State) (v : C64) : (s.withR1 v).nanDraws = s.nanDraws := rfl
@[simp] theorem withR1_readDraws (s : State) (v : C64) : (s.withR1 v).readDraws = s.readDraws := rfl

/-! ## withPcmd -/

@[simp] theorem withPcmd_pMax (s : State) (v : Word) : (s.withPcmd v).pMax = s.pMax := rfl
@[simp] theorem withPcmd_irqEn (s : State) (v : Word) : (s.withPcmd v).irqEn = s.irqEn := rfl
@[simp] theorem withPcmd_status (s : State) (v : Word) : (s.withPcmd v).status = s.status := rfl
@[simp] theorem withPcmd_len (s : State) (v : Word) : (s.withPcmd v).len = s.len := rfl
@[simp] theorem withPcmd_k (s : State) (v : Word) : (s.withPcmd v).k = s.k := rfl
@[simp] theorem withPcmd_m (s : State) (v : Word) : (s.withPcmd v).m = s.m := rfl
@[simp] theorem withPcmd_s (s : State) (v : Word) : (s.withPcmd v).s = s.s := rfl
@[simp] theorem withPcmd_a (s : State) (v : Word) : (s.withPcmd v).a = s.a := rfl
@[simp] theorem withPcmd_b (s : State) (v : Word) : (s.withPcmd v).b = s.b := rfl
@[simp] theorem withPcmd_w (s : State) (v : Word) : (s.withPcmd v).w = s.w := rfl
@[simp] theorem withPcmd_r0 (s : State) (v : Word) : (s.withPcmd v).r0 = s.r0 := rfl
@[simp] theorem withPcmd_r1 (s : State) (v : Word) : (s.withPcmd v).r1 = s.r1 := rfl
@[simp] theorem withPcmd_pcmd (s : State) (v : Word) : (s.withPcmd v).pcmd = v := rfl
@[simp] theorem withPcmd_seq (s : State) (v : Word) : (s.withPcmd v).seq = s.seq := rfl
@[simp] theorem withPcmd_mem (s : State) (v : Word) : (s.withPcmd v).mem = s.mem := rfl
@[simp] theorem withPcmd_agenda (s : State) (v : Word) : (s.withPcmd v).agenda = s.agenda := rfl
@[simp] theorem withPcmd_resp (s : State) (v : Word) : (s.withPcmd v).resp = s.resp := rfl
@[simp] theorem withPcmd_nanDraws (s : State) (v : Word) : (s.withPcmd v).nanDraws = s.nanDraws := rfl
@[simp] theorem withPcmd_readDraws (s : State) (v : Word) : (s.withPcmd v).readDraws = s.readDraws := rfl

/-! ## withSeq -/

@[simp] theorem withSeq_pMax (s : State) (v : Seq) : (s.withSeq v).pMax = s.pMax := rfl
@[simp] theorem withSeq_irqEn (s : State) (v : Seq) : (s.withSeq v).irqEn = s.irqEn := rfl
@[simp] theorem withSeq_status (s : State) (v : Seq) : (s.withSeq v).status = s.status := rfl
@[simp] theorem withSeq_len (s : State) (v : Seq) : (s.withSeq v).len = s.len := rfl
@[simp] theorem withSeq_k (s : State) (v : Seq) : (s.withSeq v).k = s.k := rfl
@[simp] theorem withSeq_m (s : State) (v : Seq) : (s.withSeq v).m = s.m := rfl
@[simp] theorem withSeq_s (s : State) (v : Seq) : (s.withSeq v).s = s.s := rfl
@[simp] theorem withSeq_a (s : State) (v : Seq) : (s.withSeq v).a = s.a := rfl
@[simp] theorem withSeq_b (s : State) (v : Seq) : (s.withSeq v).b = s.b := rfl
@[simp] theorem withSeq_w (s : State) (v : Seq) : (s.withSeq v).w = s.w := rfl
@[simp] theorem withSeq_r0 (s : State) (v : Seq) : (s.withSeq v).r0 = s.r0 := rfl
@[simp] theorem withSeq_r1 (s : State) (v : Seq) : (s.withSeq v).r1 = s.r1 := rfl
@[simp] theorem withSeq_pcmd (s : State) (v : Seq) : (s.withSeq v).pcmd = s.pcmd := rfl
@[simp] theorem withSeq_seq (s : State) (v : Seq) : (s.withSeq v).seq = v := rfl
@[simp] theorem withSeq_mem (s : State) (v : Seq) : (s.withSeq v).mem = s.mem := rfl
@[simp] theorem withSeq_agenda (s : State) (v : Seq) : (s.withSeq v).agenda = s.agenda := rfl
@[simp] theorem withSeq_resp (s : State) (v : Seq) : (s.withSeq v).resp = s.resp := rfl
@[simp] theorem withSeq_nanDraws (s : State) (v : Seq) : (s.withSeq v).nanDraws = s.nanDraws := rfl
@[simp] theorem withSeq_readDraws (s : State) (v : Seq) : (s.withSeq v).readDraws = s.readDraws := rfl

/-! ## withMem -/

@[simp] theorem withMem_pMax (s : State) (v : List Host.Cell) : (s.withMem v).pMax = s.pMax := rfl
@[simp] theorem withMem_irqEn (s : State) (v : List Host.Cell) : (s.withMem v).irqEn = s.irqEn := rfl
@[simp] theorem withMem_status (s : State) (v : List Host.Cell) : (s.withMem v).status = s.status := rfl
@[simp] theorem withMem_len (s : State) (v : List Host.Cell) : (s.withMem v).len = s.len := rfl
@[simp] theorem withMem_k (s : State) (v : List Host.Cell) : (s.withMem v).k = s.k := rfl
@[simp] theorem withMem_m (s : State) (v : List Host.Cell) : (s.withMem v).m = s.m := rfl
@[simp] theorem withMem_s (s : State) (v : List Host.Cell) : (s.withMem v).s = s.s := rfl
@[simp] theorem withMem_a (s : State) (v : List Host.Cell) : (s.withMem v).a = s.a := rfl
@[simp] theorem withMem_b (s : State) (v : List Host.Cell) : (s.withMem v).b = s.b := rfl
@[simp] theorem withMem_w (s : State) (v : List Host.Cell) : (s.withMem v).w = s.w := rfl
@[simp] theorem withMem_r0 (s : State) (v : List Host.Cell) : (s.withMem v).r0 = s.r0 := rfl
@[simp] theorem withMem_r1 (s : State) (v : List Host.Cell) : (s.withMem v).r1 = s.r1 := rfl
@[simp] theorem withMem_pcmd (s : State) (v : List Host.Cell) : (s.withMem v).pcmd = s.pcmd := rfl
@[simp] theorem withMem_seq (s : State) (v : List Host.Cell) : (s.withMem v).seq = s.seq := rfl
@[simp] theorem withMem_mem (s : State) (v : List Host.Cell) : (s.withMem v).mem = v := rfl
@[simp] theorem withMem_agenda (s : State) (v : List Host.Cell) : (s.withMem v).agenda = s.agenda := rfl
@[simp] theorem withMem_resp (s : State) (v : List Host.Cell) : (s.withMem v).resp = s.resp := rfl
@[simp] theorem withMem_nanDraws (s : State) (v : List Host.Cell) : (s.withMem v).nanDraws = s.nanDraws := rfl
@[simp] theorem withMem_readDraws (s : State) (v : List Host.Cell) : (s.withMem v).readDraws = s.readDraws := rfl

/-! ## withAgenda -/

@[simp] theorem withAgenda_pMax (s : State) (v : List Move) : (s.withAgenda v).pMax = s.pMax := rfl
@[simp] theorem withAgenda_irqEn (s : State) (v : List Move) : (s.withAgenda v).irqEn = s.irqEn := rfl
@[simp] theorem withAgenda_status (s : State) (v : List Move) : (s.withAgenda v).status = s.status := rfl
@[simp] theorem withAgenda_len (s : State) (v : List Move) : (s.withAgenda v).len = s.len := rfl
@[simp] theorem withAgenda_k (s : State) (v : List Move) : (s.withAgenda v).k = s.k := rfl
@[simp] theorem withAgenda_m (s : State) (v : List Move) : (s.withAgenda v).m = s.m := rfl
@[simp] theorem withAgenda_s (s : State) (v : List Move) : (s.withAgenda v).s = s.s := rfl
@[simp] theorem withAgenda_a (s : State) (v : List Move) : (s.withAgenda v).a = s.a := rfl
@[simp] theorem withAgenda_b (s : State) (v : List Move) : (s.withAgenda v).b = s.b := rfl
@[simp] theorem withAgenda_w (s : State) (v : List Move) : (s.withAgenda v).w = s.w := rfl
@[simp] theorem withAgenda_r0 (s : State) (v : List Move) : (s.withAgenda v).r0 = s.r0 := rfl
@[simp] theorem withAgenda_r1 (s : State) (v : List Move) : (s.withAgenda v).r1 = s.r1 := rfl
@[simp] theorem withAgenda_pcmd (s : State) (v : List Move) : (s.withAgenda v).pcmd = s.pcmd := rfl
@[simp] theorem withAgenda_seq (s : State) (v : List Move) : (s.withAgenda v).seq = s.seq := rfl
@[simp] theorem withAgenda_mem (s : State) (v : List Move) : (s.withAgenda v).mem = s.mem := rfl
@[simp] theorem withAgenda_agenda (s : State) (v : List Move) : (s.withAgenda v).agenda = v := rfl
@[simp] theorem withAgenda_resp (s : State) (v : List Move) : (s.withAgenda v).resp = s.resp := rfl
@[simp] theorem withAgenda_nanDraws (s : State) (v : List Move) : (s.withAgenda v).nanDraws = s.nanDraws := rfl
@[simp] theorem withAgenda_readDraws (s : State) (v : List Move) : (s.withAgenda v).readDraws = s.readDraws := rfl

/-! ## withResp -/

@[simp] theorem withResp_pMax (s : State) (v : Option Response) : (s.withResp v).pMax = s.pMax := rfl
@[simp] theorem withResp_irqEn (s : State) (v : Option Response) : (s.withResp v).irqEn = s.irqEn := rfl
@[simp] theorem withResp_status (s : State) (v : Option Response) : (s.withResp v).status = s.status := rfl
@[simp] theorem withResp_len (s : State) (v : Option Response) : (s.withResp v).len = s.len := rfl
@[simp] theorem withResp_k (s : State) (v : Option Response) : (s.withResp v).k = s.k := rfl
@[simp] theorem withResp_m (s : State) (v : Option Response) : (s.withResp v).m = s.m := rfl
@[simp] theorem withResp_s (s : State) (v : Option Response) : (s.withResp v).s = s.s := rfl
@[simp] theorem withResp_a (s : State) (v : Option Response) : (s.withResp v).a = s.a := rfl
@[simp] theorem withResp_b (s : State) (v : Option Response) : (s.withResp v).b = s.b := rfl
@[simp] theorem withResp_w (s : State) (v : Option Response) : (s.withResp v).w = s.w := rfl
@[simp] theorem withResp_r0 (s : State) (v : Option Response) : (s.withResp v).r0 = s.r0 := rfl
@[simp] theorem withResp_r1 (s : State) (v : Option Response) : (s.withResp v).r1 = s.r1 := rfl
@[simp] theorem withResp_pcmd (s : State) (v : Option Response) : (s.withResp v).pcmd = s.pcmd := rfl
@[simp] theorem withResp_seq (s : State) (v : Option Response) : (s.withResp v).seq = s.seq := rfl
@[simp] theorem withResp_mem (s : State) (v : Option Response) : (s.withResp v).mem = s.mem := rfl
@[simp] theorem withResp_agenda (s : State) (v : Option Response) : (s.withResp v).agenda = s.agenda := rfl
@[simp] theorem withResp_resp (s : State) (v : Option Response) : (s.withResp v).resp = v := rfl
@[simp] theorem withResp_nanDraws (s : State) (v : Option Response) : (s.withResp v).nanDraws = s.nanDraws := rfl
@[simp] theorem withResp_readDraws (s : State) (v : Option Response) : (s.withResp v).readDraws = s.readDraws := rfl

/-! ## withNanDraws -/

@[simp] theorem withNanDraws_pMax (s : State) (v : Nat) : (s.withNanDraws v).pMax = s.pMax := rfl
@[simp] theorem withNanDraws_irqEn (s : State) (v : Nat) : (s.withNanDraws v).irqEn = s.irqEn := rfl
@[simp] theorem withNanDraws_status (s : State) (v : Nat) : (s.withNanDraws v).status = s.status := rfl
@[simp] theorem withNanDraws_len (s : State) (v : Nat) : (s.withNanDraws v).len = s.len := rfl
@[simp] theorem withNanDraws_k (s : State) (v : Nat) : (s.withNanDraws v).k = s.k := rfl
@[simp] theorem withNanDraws_m (s : State) (v : Nat) : (s.withNanDraws v).m = s.m := rfl
@[simp] theorem withNanDraws_s (s : State) (v : Nat) : (s.withNanDraws v).s = s.s := rfl
@[simp] theorem withNanDraws_a (s : State) (v : Nat) : (s.withNanDraws v).a = s.a := rfl
@[simp] theorem withNanDraws_b (s : State) (v : Nat) : (s.withNanDraws v).b = s.b := rfl
@[simp] theorem withNanDraws_w (s : State) (v : Nat) : (s.withNanDraws v).w = s.w := rfl
@[simp] theorem withNanDraws_r0 (s : State) (v : Nat) : (s.withNanDraws v).r0 = s.r0 := rfl
@[simp] theorem withNanDraws_r1 (s : State) (v : Nat) : (s.withNanDraws v).r1 = s.r1 := rfl
@[simp] theorem withNanDraws_pcmd (s : State) (v : Nat) : (s.withNanDraws v).pcmd = s.pcmd := rfl
@[simp] theorem withNanDraws_seq (s : State) (v : Nat) : (s.withNanDraws v).seq = s.seq := rfl
@[simp] theorem withNanDraws_mem (s : State) (v : Nat) : (s.withNanDraws v).mem = s.mem := rfl
@[simp] theorem withNanDraws_agenda (s : State) (v : Nat) : (s.withNanDraws v).agenda = s.agenda := rfl
@[simp] theorem withNanDraws_resp (s : State) (v : Nat) : (s.withNanDraws v).resp = s.resp := rfl
@[simp] theorem withNanDraws_nanDraws (s : State) (v : Nat) : (s.withNanDraws v).nanDraws = v := rfl
@[simp] theorem withNanDraws_readDraws (s : State) (v : Nat) : (s.withNanDraws v).readDraws = s.readDraws := rfl

/-! ## withReadDraws -/

@[simp] theorem withReadDraws_pMax (s : State) (v : Nat) : (s.withReadDraws v).pMax = s.pMax := rfl
@[simp] theorem withReadDraws_irqEn (s : State) (v : Nat) : (s.withReadDraws v).irqEn = s.irqEn := rfl
@[simp] theorem withReadDraws_status (s : State) (v : Nat) : (s.withReadDraws v).status = s.status := rfl
@[simp] theorem withReadDraws_len (s : State) (v : Nat) : (s.withReadDraws v).len = s.len := rfl
@[simp] theorem withReadDraws_k (s : State) (v : Nat) : (s.withReadDraws v).k = s.k := rfl
@[simp] theorem withReadDraws_m (s : State) (v : Nat) : (s.withReadDraws v).m = s.m := rfl
@[simp] theorem withReadDraws_s (s : State) (v : Nat) : (s.withReadDraws v).s = s.s := rfl
@[simp] theorem withReadDraws_a (s : State) (v : Nat) : (s.withReadDraws v).a = s.a := rfl
@[simp] theorem withReadDraws_b (s : State) (v : Nat) : (s.withReadDraws v).b = s.b := rfl
@[simp] theorem withReadDraws_w (s : State) (v : Nat) : (s.withReadDraws v).w = s.w := rfl
@[simp] theorem withReadDraws_r0 (s : State) (v : Nat) : (s.withReadDraws v).r0 = s.r0 := rfl
@[simp] theorem withReadDraws_r1 (s : State) (v : Nat) : (s.withReadDraws v).r1 = s.r1 := rfl
@[simp] theorem withReadDraws_pcmd (s : State) (v : Nat) : (s.withReadDraws v).pcmd = s.pcmd := rfl
@[simp] theorem withReadDraws_seq (s : State) (v : Nat) : (s.withReadDraws v).seq = s.seq := rfl
@[simp] theorem withReadDraws_mem (s : State) (v : Nat) : (s.withReadDraws v).mem = s.mem := rfl
@[simp] theorem withReadDraws_agenda (s : State) (v : Nat) : (s.withReadDraws v).agenda = s.agenda := rfl
@[simp] theorem withReadDraws_resp (s : State) (v : Nat) : (s.withReadDraws v).resp = s.resp := rfl
@[simp] theorem withReadDraws_nanDraws (s : State) (v : Nat) : (s.withReadDraws v).nanDraws = s.nanDraws := rfl
@[simp] theorem withReadDraws_readDraws (s : State) (v : Nat) : (s.withReadDraws v).readDraws = v := rfl

end Sys2Proof.Machine
end

