-- ==== Sys2Proof/Laws/Ops.lean ====
section
/-! SUPPORT. What every field of State is after each shared operation of Machine/Ops.lean. -/

namespace Sys2Proof.Machine

/-! ## complete -/

@[simp] theorem complete_pMax (s : State) : (complete s).pMax = s.pMax := rfl
@[simp] theorem complete_irqEn (s : State) : (complete s).irqEn = s.irqEn := rfl
@[simp] theorem complete_status (s : State) : (complete s).status = { s.status with busy := false, done := true } := rfl
@[simp] theorem complete_len (s : State) : (complete s).len = s.len := rfl
@[simp] theorem complete_k (s : State) : (complete s).k = s.k := rfl
@[simp] theorem complete_m (s : State) : (complete s).m = s.m := rfl
@[simp] theorem complete_s (s : State) : (complete s).s = s.s := rfl
@[simp] theorem complete_a (s : State) : (complete s).a = s.a := rfl
@[simp] theorem complete_b (s : State) : (complete s).b = s.b := rfl
@[simp] theorem complete_w (s : State) : (complete s).w = s.w := rfl
@[simp] theorem complete_r0 (s : State) : (complete s).r0 = s.r0 := rfl
@[simp] theorem complete_r1 (s : State) : (complete s).r1 = s.r1 := rfl
@[simp] theorem complete_pcmd (s : State) : (complete s).pcmd = s.pcmd := rfl
@[simp] theorem complete_seq (s : State) : (complete s).seq = s.seq := rfl
@[simp] theorem complete_mem (s : State) : (complete s).mem = s.mem := rfl
@[simp] theorem complete_agenda (s : State) : (complete s).agenda = s.agenda := rfl
@[simp] theorem complete_resp (s : State) : (complete s).resp = s.resp := rfl
@[simp] theorem complete_nanDraws (s : State) : (complete s).nanDraws = s.nanDraws := rfl
@[simp] theorem complete_readDraws (s : State) : (complete s).readDraws = s.readDraws := rfl

/-! ## raiseCmdError -/

@[simp] theorem raiseCmdError_pMax (c : ErrCode) (s : State) : (raiseCmdError c s).pMax = s.pMax := rfl
@[simp] theorem raiseCmdError_irqEn (c : ErrCode) (s : State) : (raiseCmdError c s).irqEn = s.irqEn := rfl
@[simp] theorem raiseCmdError_status (c : ErrCode) (s : State) : (raiseCmdError c s).status = { s.status with busy := false, done := true, err := true, errCode := c } := rfl
@[simp] theorem raiseCmdError_len (c : ErrCode) (s : State) : (raiseCmdError c s).len = s.len := rfl
@[simp] theorem raiseCmdError_k (c : ErrCode) (s : State) : (raiseCmdError c s).k = s.k := rfl
@[simp] theorem raiseCmdError_m (c : ErrCode) (s : State) : (raiseCmdError c s).m = s.m := rfl
@[simp] theorem raiseCmdError_s (c : ErrCode) (s : State) : (raiseCmdError c s).s = s.s := rfl
@[simp] theorem raiseCmdError_a (c : ErrCode) (s : State) : (raiseCmdError c s).a = s.a := rfl
@[simp] theorem raiseCmdError_b (c : ErrCode) (s : State) : (raiseCmdError c s).b = s.b := rfl
@[simp] theorem raiseCmdError_w (c : ErrCode) (s : State) : (raiseCmdError c s).w = s.w := rfl
@[simp] theorem raiseCmdError_r0 (c : ErrCode) (s : State) : (raiseCmdError c s).r0 = s.r0 := rfl
@[simp] theorem raiseCmdError_r1 (c : ErrCode) (s : State) : (raiseCmdError c s).r1 = s.r1 := rfl
@[simp] theorem raiseCmdError_pcmd (c : ErrCode) (s : State) : (raiseCmdError c s).pcmd = s.pcmd := rfl
@[simp] theorem raiseCmdError_seq (c : ErrCode) (s : State) : (raiseCmdError c s).seq = s.seq := rfl
@[simp] theorem raiseCmdError_mem (c : ErrCode) (s : State) : (raiseCmdError c s).mem = s.mem := rfl
@[simp] theorem raiseCmdError_agenda (c : ErrCode) (s : State) : (raiseCmdError c s).agenda = s.agenda := rfl
@[simp] theorem raiseCmdError_resp (c : ErrCode) (s : State) : (raiseCmdError c s).resp = s.resp := rfl
@[simp] theorem raiseCmdError_nanDraws (c : ErrCode) (s : State) : (raiseCmdError c s).nanDraws = s.nanDraws := rfl
@[simp] theorem raiseCmdError_readDraws (c : ErrCode) (s : State) : (raiseCmdError c s).readDraws = s.readDraws := rfl

/-! ## accept -/

@[simp] theorem accept_pMax (v : Word) (s : State) : (accept v s).pMax = s.pMax := rfl
@[simp] theorem accept_irqEn (v : Word) (s : State) : (accept v s).irqEn = s.irqEn := rfl
@[simp] theorem accept_status (v : Word) (s : State) : (accept v s).status = { s.status with busy := true, done := false, err := false, errCode := .none } := rfl
@[simp] theorem accept_len (v : Word) (s : State) : (accept v s).len = s.len := rfl
@[simp] theorem accept_k (v : Word) (s : State) : (accept v s).k = s.k := rfl
@[simp] theorem accept_m (v : Word) (s : State) : (accept v s).m = s.m := rfl
@[simp] theorem accept_s (v : Word) (s : State) : (accept v s).s = s.s := rfl
@[simp] theorem accept_a (v : Word) (s : State) : (accept v s).a = s.a := rfl
@[simp] theorem accept_b (v : Word) (s : State) : (accept v s).b = s.b := rfl
@[simp] theorem accept_w (v : Word) (s : State) : (accept v s).w = s.w := rfl
@[simp] theorem accept_r0 (v : Word) (s : State) : (accept v s).r0 = s.r0 := rfl
@[simp] theorem accept_r1 (v : Word) (s : State) : (accept v s).r1 = s.r1 := rfl
@[simp] theorem accept_pcmd (v : Word) (s : State) : (accept v s).pcmd = v := rfl
@[simp] theorem accept_seq (v : Word) (s : State) : (accept v s).seq = s.seq := rfl
@[simp] theorem accept_mem (v : Word) (s : State) : (accept v s).mem = s.mem := rfl
@[simp] theorem accept_agenda (v : Word) (s : State) : (accept v s).agenda = s.agenda := rfl
@[simp] theorem accept_resp (v : Word) (s : State) : (accept v s).resp = s.resp := rfl
@[simp] theorem accept_nanDraws (v : Word) (s : State) : (accept v s).nanDraws = s.nanDraws := rfl
@[simp] theorem accept_readDraws (v : Word) (s : State) : (accept v s).readDraws = s.readDraws := rfl

/-! ## writeR0 -/

@[simp] theorem writeR0_pMax (r : C64 × Nat) (s : State) : (writeR0 r s).pMax = s.pMax := rfl
@[simp] theorem writeR0_irqEn (r : C64 × Nat) (s : State) : (writeR0 r s).irqEn = s.irqEn := rfl
@[simp] theorem writeR0_status (r : C64 × Nat) (s : State) : (writeR0 r s).status = s.status := rfl
@[simp] theorem writeR0_len (r : C64 × Nat) (s : State) : (writeR0 r s).len = s.len := rfl
@[simp] theorem writeR0_k (r : C64 × Nat) (s : State) : (writeR0 r s).k = s.k := rfl
@[simp] theorem writeR0_m (r : C64 × Nat) (s : State) : (writeR0 r s).m = s.m := rfl
@[simp] theorem writeR0_s (r : C64 × Nat) (s : State) : (writeR0 r s).s = s.s := rfl
@[simp] theorem writeR0_a (r : C64 × Nat) (s : State) : (writeR0 r s).a = s.a := rfl
@[simp] theorem writeR0_b (r : C64 × Nat) (s : State) : (writeR0 r s).b = s.b := rfl
@[simp] theorem writeR0_w (r : C64 × Nat) (s : State) : (writeR0 r s).w = s.w := rfl
@[simp] theorem writeR0_r0 (r : C64 × Nat) (s : State) : (writeR0 r s).r0 = r.1 := rfl
@[simp] theorem writeR0_r1 (r : C64 × Nat) (s : State) : (writeR0 r s).r1 = s.r1 := rfl
@[simp] theorem writeR0_pcmd (r : C64 × Nat) (s : State) : (writeR0 r s).pcmd = s.pcmd := rfl
@[simp] theorem writeR0_seq (r : C64 × Nat) (s : State) : (writeR0 r s).seq = s.seq := rfl
@[simp] theorem writeR0_mem (r : C64 × Nat) (s : State) : (writeR0 r s).mem = s.mem := rfl
@[simp] theorem writeR0_agenda (r : C64 × Nat) (s : State) : (writeR0 r s).agenda = s.agenda := rfl
@[simp] theorem writeR0_resp (r : C64 × Nat) (s : State) : (writeR0 r s).resp = s.resp := rfl
@[simp] theorem writeR0_nanDraws (r : C64 × Nat) (s : State) : (writeR0 r s).nanDraws = r.2 := rfl
@[simp] theorem writeR0_readDraws (r : C64 × Nat) (s : State) : (writeR0 r s).readDraws = s.readDraws := rfl

/-! ## writeFlag -/

@[simp] theorem writeFlag_pMax (v : Bool) (s : State) : (writeFlag v s).pMax = s.pMax := rfl
@[simp] theorem writeFlag_irqEn (v : Bool) (s : State) : (writeFlag v s).irqEn = s.irqEn := rfl
@[simp] theorem writeFlag_status (v : Bool) (s : State) : (writeFlag v s).status = { s.status with flag := v } := rfl
@[simp] theorem writeFlag_len (v : Bool) (s : State) : (writeFlag v s).len = s.len := rfl
@[simp] theorem writeFlag_k (v : Bool) (s : State) : (writeFlag v s).k = s.k := rfl
@[simp] theorem writeFlag_m (v : Bool) (s : State) : (writeFlag v s).m = s.m := rfl
@[simp] theorem writeFlag_s (v : Bool) (s : State) : (writeFlag v s).s = s.s := rfl
@[simp] theorem writeFlag_a (v : Bool) (s : State) : (writeFlag v s).a = s.a := rfl
@[simp] theorem writeFlag_b (v : Bool) (s : State) : (writeFlag v s).b = s.b := rfl
@[simp] theorem writeFlag_w (v : Bool) (s : State) : (writeFlag v s).w = s.w := rfl
@[simp] theorem writeFlag_r0 (v : Bool) (s : State) : (writeFlag v s).r0 = s.r0 := rfl
@[simp] theorem writeFlag_r1 (v : Bool) (s : State) : (writeFlag v s).r1 = s.r1 := rfl
@[simp] theorem writeFlag_pcmd (v : Bool) (s : State) : (writeFlag v s).pcmd = s.pcmd := rfl
@[simp] theorem writeFlag_seq (v : Bool) (s : State) : (writeFlag v s).seq = s.seq := rfl
@[simp] theorem writeFlag_mem (v : Bool) (s : State) : (writeFlag v s).mem = s.mem := rfl
@[simp] theorem writeFlag_agenda (v : Bool) (s : State) : (writeFlag v s).agenda = s.agenda := rfl
@[simp] theorem writeFlag_resp (v : Bool) (s : State) : (writeFlag v s).resp = s.resp := rfl
@[simp] theorem writeFlag_nanDraws (v : Bool) (s : State) : (writeFlag v s).nanDraws = s.nanDraws := rfl
@[simp] theorem writeFlag_readDraws (v : Bool) (s : State) : (writeFlag v s).readDraws = s.readDraws := rfl

/-! ## writeY -/

@[simp] theorem writeY_pMax (wk : Work) (s : State) : (writeY wk s).pMax = s.pMax := rfl
@[simp] theorem writeY_irqEn (wk : Work) (s : State) : (writeY wk s).irqEn = s.irqEn := rfl
@[simp] theorem writeY_status (wk : Work) (s : State) : (writeY wk s).status = s.status := rfl
@[simp] theorem writeY_len (wk : Work) (s : State) : (writeY wk s).len = s.len := rfl
@[simp] theorem writeY_k (wk : Work) (s : State) : (writeY wk s).k = s.k := rfl
@[simp] theorem writeY_m (wk : Work) (s : State) : (writeY wk s).m = s.m := rfl
@[simp] theorem writeY_s (wk : Work) (s : State) : (writeY wk s).s = s.s := rfl
@[simp] theorem writeY_a (wk : Work) (s : State) : (writeY wk s).a = s.a := rfl
@[simp] theorem writeY_b (wk : Work) (s : State) : (writeY wk s).b = s.b := rfl
@[simp] theorem writeY_w (wk : Work) (s : State) : (writeY wk s).w = s.w := rfl
@[simp] theorem writeY_r0 (wk : Work) (s : State) : (writeY wk s).r0 = s.r0 := rfl
@[simp] theorem writeY_r1 (wk : Work) (s : State) : (writeY wk s).r1 = s.r1 := rfl
@[simp] theorem writeY_pcmd (wk : Work) (s : State) : (writeY wk s).pcmd = s.pcmd := rfl
@[simp] theorem writeY_seq (wk : Work) (s : State) : (writeY wk s).seq = wk.seq := rfl
@[simp] theorem writeY_mem (wk : Work) (s : State) : (writeY wk s).mem = memPutSignal s.mem yBase wk.a := rfl
@[simp] theorem writeY_agenda (wk : Work) (s : State) : (writeY wk s).agenda = s.agenda := rfl
@[simp] theorem writeY_resp (wk : Work) (s : State) : (writeY wk s).resp = s.resp := rfl
@[simp] theorem writeY_nanDraws (wk : Work) (s : State) : (writeY wk s).nanDraws = wk.nan := rfl
@[simp] theorem writeY_readDraws (wk : Work) (s : State) : (writeY wk s).readDraws = s.readDraws := rfl

end Sys2Proof.Machine
end

