-- ==== Sys2Proof/Laws/Step.lean ====
section
/-! SUPPORT. Everything a step can do: whose move it is, what a host read answers, what a host write leaves. -/

namespace Sys2Proof.Machine

/-- A step is a turn of the core, with or without an entry of the agenda, or a transaction of the host. -/
theorem step_cases (s : State) :
    (s.agenda = [] ∧ step s = coreTurn s) ∨
    (∃ rest, s.agenda = .core :: rest ∧ step s = coreTurn (s.withAgenda rest)) ∨
    (∃ t rest, s.agenda = .host t :: rest ∧ step s = hostStep t (s.withAgenda rest)) := by
  cases h : s.agenda with
  | nil => exact .inl ⟨rfl, by rw [step, nextMove, h]⟩
  | cons mv rest =>
    cases mv with
    | core => exact .inr (.inl ⟨rest, rfl, by rw [step, nextMove, h]⟩)
    | host t => exact .inr (.inr ⟨t, rest, rfl, by rw [step, nextMove, h]⟩)

/-- The core's turn does nothing while idle, and completes PCMD's command, or an Illegal word, while BUSY. -/
theorem coreTurn_cases (s : State) :
    (s.status.busy = false ∧ coreTurn s = .next s) ∨
    (s.status.busy = true ∧ ∃ i, decode s.pcmd = .command i ∧ coreTurn s = exec i s) ∨
    (s.status.busy = true ∧ ∃ why, decode s.pcmd = .illegal why ∧
      coreTurn s = .next (raiseCmdError .illegalCmd s)) := by
  cases hb : s.status.busy with
  | false => exact .inl ⟨rfl, by simp [coreTurn, hb]⟩
  | true =>
    cases hd : decode s.pcmd with
    | command i => exact .inr (.inl ⟨rfl, i, rfl, by simp [coreTurn, hb, completion, hd]⟩)
    | illegal why => exact .inr (.inr ⟨rfl, why, rfl, by simp [coreTurn, hb, completion, hd]⟩)

/-- A host read changes the response alone, takes one draw and changes the response, or faults at a word that nothing
has written. -/
theorem memRead_cases (p : Place) (s : State) :
    (∃ v, memRead p s = .next (s.withResp (some (readResponse v)))) ∨
    (s.status.busy = true ∧ ∃ v, memRead p s =
      .next ((s.withReadDraws (s.readDraws + 1)).withResp (some (readResponse v)))) ∨
    (∃ addr, (p = .xWord addr ∨ p = .yWord addr) ∧ memWord s.mem addr = none ∧
      memRead p s = .fault .unwrittenSample) := by
  unfold memRead
  split
  · rename_i h
    exact .inr (.inl ⟨by simp_all, _, rfl⟩)
  · split
    · split
      · rename_i h
        exact .inr (.inl ⟨h, _, rfl⟩)
      · exact .inl ⟨_, rfl⟩
    · exact .inl ⟨_, rfl⟩
    · exact .inl ⟨_, rfl⟩
    · rename_i addr _
      cases hm : memWord s.mem addr with
      | none => exact .inr (.inr ⟨addr, .inl rfl, hm, rfl⟩)
      | some v => exact .inl ⟨v, rfl⟩
    · rename_i addr _
      cases hm : memWord s.mem addr with
      | none => exact .inr (.inr ⟨addr, .inr rfl, hm, rfl⟩)
      | some v => exact .inl ⟨v, rfl⟩

/-- A host write is dropped with HAZ set, or acts on a register, or does nothing, or stores a word of X or Y while the
core is idle. -/
theorem memWrite_cases (p : Place) (v : Word) (s : State) :
    (s.status.busy = true ∧ p.guarded = true ∧ memWrite p v s = s.withStatus { s.status with haz := true }) ∨
    (∃ r, p = .reg r ∧ (s.status.busy && p.guarded) = false ∧ memWrite p v s = writeReg s r v) ∨
    (p = .reserved ∧ memWrite p v s = s) ∨
    (s.status.busy = false ∧ ∃ addr, (p = .xWord addr ∨ p = .yWord addr) ∧
      memWrite p v s = s.withMem (memPutWord s.mem addr v)) := by
  by_cases h : (s.status.busy && p.guarded) = true
  · exact .inl ⟨by simp_all, by simp_all, if_pos h⟩
  · cases p with
    | reg r => exact .inr (.inl ⟨r, rfl, by simpa using h, if_neg h⟩)
    | reserved => exact .inr (.inr (.inl ⟨rfl, if_neg h⟩))
    | xWord addr => exact .inr (.inr (.inr ⟨by simpa [Place.guarded] using h, addr, .inl rfl, if_neg h⟩))
    | yWord addr => exact .inr (.inr (.inr ⟨by simpa [Place.guarded] using h, addr, .inr rfl, if_neg h⟩))

/-- A host transaction is answered with ERROR, or is a read or a write of the place at its address. -/
theorem hostStep_cases (t : Transaction) (s : State) :
    (served s.pMax t = none ∧ hostStep t s = .next (s.withResp (some errorResponse))) ∨
    (∃ p, served s.pMax t = some p ∧ t.kind = .read ∧ hostStep t s = memRead p s) ∨
    (∃ p, served s.pMax t = some p ∧ t.kind = .write ∧
      hostStep t s = .next ((memWrite p t.wdata s).withResp (some writeResponse))) := by
  cases hp : served s.pMax t with
  | none => exact .inl ⟨rfl, by rw [hostStep, hp]⟩
  | some p =>
    cases hk : t.kind with
    | read => exact .inr (.inl ⟨p, rfl, rfl, by simp only [hostStep, hp, hk]⟩)
    | write => exact .inr (.inr ⟨p, rfl, rfl, by simp only [hostStep, hp, hk]⟩)

/-- A loaded command word is completed by the very next step, from the state that its acceptance leaves. -/
theorem step_withFetchWord (s : State) (nbits w : Nat) :
    step (s.withFetchWord nbits w) = completion (accept (tableWord nbits w) s) := rfl

/-! ## Runs -/

theorem core_run_next {s t : State} (h : step s = .next t) (k : Nat) :
    Sys2Proof.core.run (k + 1) s = Sys2Proof.core.run k t := by
  simp only [Host.Core.run]
  rw [show Sys2Proof.core.step s = .next t from h]

theorem core_run_fault {s : State} {f : Fault} (h : step s = .fault f) (k : Nat) :
    Sys2Proof.core.run (k + 1) s = .fault f := by
  simp only [Host.Core.run]
  rw [show Sys2Proof.core.step s = .fault f from h]

theorem core_run_zero (s : State) : Sys2Proof.core.run 0 s = .next s := rfl

end Sys2Proof.Machine
end

