-- ==== Sys2Proof/Laws/Bus.lean ====
section
/-! SUPPORT. What stands at an address (R55), and which transactions are served (R56, R60). -/

namespace Sys2Proof.Machine

/-- XMEM and YMEM never reach past 0x0100_0000 bytes (R55). -/
theorem nMax_le (p : PMax) : 16 * p.nMax ≤ 0x01000000 := by
  have := Nat.pow_le_pow_right (show 0 < 2 by omega) p.le_twenty
  unfold PMax.nMax
  omega

theorem placeAt_regs {p : PMax} {a : Nat} (h : a < 0x100) :
    placeAt p a = some (match regAt a with
      | some r => .reg r
      | none => .reserved) := by
  exact if_pos h

theorem placeAt_x {p : PMax} {a : Nat} (h : 0x01000000 ≤ a ∧ a < 0x01000000 + 16 * 2 ^ p.val) :
    placeAt p a = some (.xWord a) := by
  exact (if_neg (by unfold regsEnd; omega)).trans (if_pos h)

theorem placeAt_y {p : PMax} {a : Nat} (h : 0x02000000 ≤ a ∧ a < 0x02000000 + 16 * 2 ^ p.val) :
    placeAt p a = some (.yWord a) := by
  have := nMax_le p
  exact (if_neg (by unfold regsEnd; omega)).trans ((if_neg (by unfold xBase; omega)).trans (if_pos h))

/-- An 8-byte transaction at an 8-aligned address is served exactly where the map has something. -/
theorem served_eq {p : PMax} {t : Transaction} (h1 : t.size = .eight) (h2 : t.addr.toNat % 8 = 0) :
    served p t = placeAt p t.addr.toNat := by
  simp [served, h1, h2]

/-- Every register stands at its own offset. -/
theorem regAt_offset (r : RegName) : regAt r.offset = some r := by cases r <;> rfl

theorem offset_lt (r : RegName) : r.offset < 0x100 := by cases r <;> decide

theorem offset_aligned (r : RegName) : r.offset % 8 = 0 := by cases r <;> rfl

theorem placeAt_offset (p : PMax) (r : RegName) : placeAt p r.offset = some (.reg r) := by
  rw [placeAt_regs (offset_lt r), regAt_offset]

/-- An 8-byte transaction at a register's offset is of that register. -/
theorem served_offset (p : PMax) (k : Kind) (v : Word) (r : RegName) :
    served p ⟨k, BitVec.ofNat 32 r.offset, .eight, v⟩ = some (.reg r) := by
  have hlt := offset_lt r
  have h : (BitVec.ofNat 32 r.offset).toNat = r.offset := by
    rw [BitVec.toNat_ofNat, Nat.mod_eq_of_lt (by omega)]
  rw [served_eq rfl (by rw [h]; exact offset_aligned r)]
  exact (congrArg (placeAt p) h).trans (placeAt_offset p r)

/-- A read at a register's offset. -/
theorem hostStep_read_offset (s : State) (v : Word) (r : RegName) :
    hostStep ⟨.read, BitVec.ofNat 32 r.offset, .eight, v⟩ s = memRead (.reg r) s := by
  rw [hostStep, served_offset]

/-- A write at a register's offset. -/
theorem hostStep_write_offset (s : State) (v : Word) (r : RegName) :
    hostStep ⟨.write, BitVec.ofNat 32 r.offset, .eight, v⟩ s =
      .next ((memWrite (.reg r) v s).withResp (some writeResponse)) := by
  rw [hostStep, served_offset]

/-- A register read while idle answers the register. -/
theorem memRead_reg_idle {s : State} (h : s.status.busy = false) (r : RegName) :
    memRead (.reg r) s = answerRead (readReg s r) s := by
  cases r <;> simp [memRead, h]

/-- A register written while idle takes the write by its access type. -/
theorem memWrite_reg_idle {s : State} (h : s.status.busy = false) (r : RegName) (v : Word) :
    memWrite (.reg r) v s = writeReg s r v := by
  simp [memWrite, h]

/-- The 8-aligned offsets of the window. -/
theorem window_offsets {a : Nat} (h : a < 0x100) (h8 : a % 8 = 0) : ∃ i < 32, a = 8 * i :=
  ⟨a / 8, by omega, by omega⟩

end Sys2Proof.Machine
end

