-- ==== Sys2Proof/Laws/Float.lean ====
section
/-! SUPPORT. The fields of a binary64 pattern, negation, and the drawn NaNs. -/

namespace Sys2Proof.Machine

/-! ## Bit fields -/

theorem fExp_eq (x : F64) : fExp x = x.toNat / 2 ^ 52 % 2 ^ 11 := by
  rw [fExp, BitVec.extractLsb'_toNat, Nat.shiftRight_eq_div_pow]

theorem fFrac_eq (x : F64) : fFrac x = x.toNat % 2 ^ 52 := by
  rw [fFrac, BitVec.extractLsb'_toNat, Nat.shiftRight_zero]

theorem toNat_signed (neg : Bool) (v : BitVec 63) :
    (BitVec.ofBool neg ++ v : F64).toNat = (if neg then 2 ^ 63 else 0) + v.toNat := by
  have h : (BitVec.ofBool neg ++ v : F64).toNat = (BitVec.ofBool neg).toNat <<< 63 ||| v.toNat :=
    BitVec.toNat_append _ _
  rw [h, ← Nat.shiftLeft_add_eq_or_of_lt v.isLt]
  cases neg <;> simp [Nat.shiftLeft_eq]

theorem fSign_signed (neg : Bool) (v : BitVec 63) : fSign (BitVec.ofBool neg ++ v : F64) = neg := by
  have hv := v.isLt
  rw [fSign, BitVec.msb_eq_decide, toNat_signed]
  cases neg
  · simp; omega
  · simp

theorem fExp_signed (neg : Bool) (v : BitVec 63) :
    fExp (BitVec.ofBool neg ++ v : F64) = v.toNat / 2 ^ 52 := by
  have hv := v.isLt
  rw [fExp_eq, toNat_signed]
  cases neg
  · simp; omega
  · simp; omega

theorem fFrac_signed (neg : Bool) (v : BitVec 63) :
    fFrac (BitVec.ofBool neg ++ v : F64) = v.toNat % 2 ^ 52 := by
  have hv := v.isLt
  rw [fFrac_eq, toNat_signed]
  cases neg
  · simp
  · simp; omega

/-- Every f64 is a sign and 63 bits. -/
theorem eq_signed (x : F64) : x = (BitVec.ofBool (fSign x) ++ BitVec.ofNat 63 x.toNat : F64) := by
  apply BitVec.eq_of_toNat_eq
  have hx := x.isLt
  rw [toNat_signed, fSign, BitVec.msb_eq_decide, BitVec.toNat_ofNat]
  simp only [decide_eq_true_eq]
  split <;> omega

/-- Two f64 are equal when their signs, exponents and fractions are. -/
theorem eq_of_fields {x y : F64} (hs : fSign x = fSign y) (he : fExp x = fExp y) (hf : fFrac x = fFrac y) :
    x = y := by
  apply BitVec.eq_of_toNat_eq
  have hx := x.isLt
  have hy := y.isLt
  rw [fExp_eq, fExp_eq] at he
  rw [fFrac_eq, fFrac_eq] at hf
  rw [fSign, fSign, BitVec.msb_eq_decide, BitVec.msb_eq_decide] at hs
  simp only [decide_eq_decide] at hs
  omega

theorem fExp_lt (x : F64) : fExp x < 2 ^ 11 := by rw [fExp_eq]; omega

theorem fFrac_lt (x : F64) : fFrac x < 2 ^ 52 := by rw [fFrac_eq]; omega

/-! ## Negation -/

@[simp] theorem fSign_fneg (x : F64) : fSign (fneg x) = !fSign x := by
  have h : (0x8000000000000000#64).msb = true := by decide
  simp [fSign, fneg, BitVec.msb_xor, h]

@[simp] theorem fExp_fneg (x : F64) : fExp (fneg x) = fExp x := by
  rw [fExp, fExp, fneg, BitVec.extractLsb'_xor]
  congr 1
  have : (0x8000000000000000#64).extractLsb' 52 11 = 0#11 := by decide
  rw [this, BitVec.xor_zero]

@[simp] theorem fFrac_fneg (x : F64) : fFrac (fneg x) = fFrac x := by
  rw [fFrac, fFrac, fneg, BitVec.extractLsb'_xor]
  congr 1
  have : (0x8000000000000000#64).extractLsb' 0 52 = 0#52 := by decide
  rw [this, BitVec.xor_zero]

@[simp] theorem fneg_fneg (x : F64) : fneg (fneg x) = x := by
  rw [fneg, fneg, BitVec.xor_assoc, BitVec.xor_self, BitVec.xor_zero]

@[simp] theorem fMag_fneg (x : F64) : fMag (fneg x) = fMag x := by simp [fMag]

@[simp] theorem fUnits_fneg (x : F64) : fUnits (fneg x) = -fUnits x := by
  cases h : fSign x <;> simp [fUnits, h]

/-! ## Drawn NaNs -/

/-- A drawn NaN is a NaN. -/
theorem fIsNaN_nanDraw (n : Nat) : fIsNaN (nanDraw n) = true := by
  have h : nanDraw n = (BitVec.ofBool (Config.nanOut n).1 ++ (0xFFF#12 ++ (Config.nanOut n).2 : BitVec 63) : F64) := rfl
  have hv : (0xFFF#12 ++ (Config.nanOut n).2 : BitVec 63).toNat = 0xFFF * 2 ^ 51 + (Config.nanOut n).2.toNat := by
    rw [BitVec.toNat_append, ← Nat.shiftLeft_add_eq_or_of_lt (Config.nanOut n).2.isLt, Nat.shiftLeft_eq]
    rfl
  have hp := (Config.nanOut n).2.isLt
  rw [fIsNaN, h, fExp_signed, fFrac_signed, hv]
  simp
  omega

/-! ## Draws -/

/-- A result that is no NaN takes no draw. -/
@[simp] theorem drawNaN_some (x : F64) (n : Nat) : drawNaN (some x) n = (x, n) := rfl

/-- A result that is a NaN takes one draw. -/
@[simp] theorem drawNaN_none (n : Nat) : drawNaN none n = (nanDraw n, n + 1) := rfl

theorem fIsNaN_fZero (neg : Bool) : fIsNaN (fZero neg) = false := by cases neg <;> decide

theorem fIsNaN_fInf (neg : Bool) : fIsNaN (fInf neg) = false := by cases neg <;> decide

theorem packMag_le (n sh : Nat) : packMag n sh ≤ 2047 * 2 ^ 52 := by
  unfold packMag
  exact min_le_right _ _

/-- A packed result is never a NaN. -/
theorem fIsNaN_pack (neg : Bool) (n sh : Nat) : fIsNaN (pack neg n sh) = false := by
  have h := packMag_le n sh
  have hv : (BitVec.ofNat 63 (packMag n sh)).toNat = packMag n sh := by
    rw [BitVec.toNat_ofNat, Nat.mod_eq_of_lt (by omega)]
  rw [fIsNaN, pack, fExp_signed, fFrac_signed, hv, Bool.and_eq_false_iff]
  by_cases he : packMag n sh / 2 ^ 52 = 2047
  · right; simp; omega
  · left; simpa using he

theorem fSign_pack (neg : Bool) (n sh : Nat) : fSign (pack neg n sh) = neg := fSign_signed _ _

@[simp] theorem fSign_fZero (neg : Bool) : fSign (fZero neg) = neg := fSign_signed _ _

/-! ## The operations on a sum and a product do not depend on the order of the operands -/

theorem addCore_comm (a b : F64) : addCore a b = addCore b a := by
  unfold addCore
  cases ha : fIsNaN a <;> cases hb : fIsNaN b <;> cases ia : fIsInf a <;> cases ib : fIsInf b <;>
    simp [add_comm (fUnits b), Bool.and_comm (fSign b)]
  cases sa : fSign a <;> cases sb : fSign b <;> simp
  · apply eq_of_fields <;> simp_all [fIsInf]
  · apply eq_of_fields <;> simp_all [fIsInf]

theorem mulCore_comm (a b : F64) : mulCore a b = mulCore b a := by
  unfold mulCore
  rw [Bool.or_comm (fIsNaN b), Bool.or_comm (fIsInf b), Bool.or_comm (fIsZero b), Nat.mul_comm (fMag b),
    bne_comm (a := fSign b)]

/-! ## Zeros, infinities and finite values -/

theorem fIsZero_iff (x : F64) : fIsZero x = true ↔ fMag x = 0 := by
  have hp : 0 < 2 ^ (fExp x - 1) := Nat.two_pow_pos _
  unfold fIsZero fMag
  split
  · rename_i h
    simp [h]
  · rename_i h
    simp [h]

theorem fUnits_eq_zero_iff (x : F64) : fUnits x = 0 ↔ fMag x = 0 := by
  unfold fUnits
  split <;> omega

/-- A zero is the zero of its sign. -/
theorem eq_fZero {x : F64} (h : fIsZero x = true) : x = fZero (fSign x) := by
  simp only [fIsZero, Bool.and_eq_true, beq_iff_eq] at h
  have e : fExp (fZero (fSign x)) = 0 := by rw [fZero, fExp_signed]; rfl
  have f : fFrac (fZero (fSign x)) = 0 := by rw [fZero, fFrac_signed]; rfl
  exact eq_of_fields (fSign_signed _ _).symm (by rw [h.1, e]) (by rw [h.2, f])

/-- An infinity is the infinity of its sign. -/
theorem eq_fInf {x : F64} (h : fIsInf x = true) : x = fInf (fSign x) := by
  simp only [fIsInf, Bool.and_eq_true, beq_iff_eq] at h
  have e : fExp (fInf (fSign x)) = 2047 := by rw [fInf, fExp_signed]; rfl
  have f : fFrac (fInf (fSign x)) = 0 := by rw [fInf, fFrac_signed]; rfl
  exact eq_of_fields (fSign_signed _ _).symm (by rw [h.1, e]) (by rw [h.2, f])

@[simp] theorem fIsInf_fneg (x : F64) : fIsInf (fneg x) = fIsInf x := by simp [fIsInf]

theorem fIsNaN_of_inf {x : F64} (h : fIsInf x = true) : fIsNaN x = false := by
  simp_all [fIsInf, fIsNaN]

theorem fIsNaN_of_finite {x : F64} (h : fIsFinite x = true) : fIsNaN x = false := by
  simp_all [fIsFinite, fIsNaN]

theorem fIsInf_of_finite {x : F64} (h : fIsFinite x = true) : fIsInf x = false := by
  simp_all [fIsFinite, fIsInf]

theorem fIsFinite_fneg (x : F64) : fIsFinite (fneg x) = fIsFinite x := by simp [fIsFinite]

/-- The sum of two finite values: a zero with its sign, or the exact sum packed (R17, R18). -/
theorem addCore_finite {a b : F64} (ha : fIsFinite a = true) (hb : fIsFinite b = true) :
    addCore a b = if fUnits a + fUnits b = 0 then some (fZero (fSign a && fSign b))
      else some (pack (decide (fUnits a + fUnits b < 0)) (fUnits a + fUnits b).natAbs 0) := by
  simp [addCore, fIsNaN_of_finite ha, fIsNaN_of_finite hb, fIsInf_of_finite ha, fIsInf_of_finite hb]

/-- The product of two finite values: the exact product packed (R17, R18). -/
theorem mulCore_finite {a b : F64} (ha : fIsFinite a = true) (hb : fIsFinite b = true) :
    mulCore a b = some (pack (fSign a != fSign b) (fMag a * fMag b) 1074) := by
  simp [mulCore, fIsNaN_of_finite ha, fIsNaN_of_finite hb, fIsInf_of_finite ha, fIsInf_of_finite hb]

/-- Zero packs to the zero of the sign. -/
theorem pack_zero (neg : Bool) (sh : Nat) : pack neg 0 sh = fZero neg := by
  have : packMag 0 sh = 0 := by simp [packMag, roundShift]
  rw [pack, this]
  rfl

end Sys2Proof.Machine
end

