-- ==== Sys2Proof/Laws/Draws.lean ====
section
/-! SUPPORT. Draws never reach a result that is not a NaN (R19): each arithmetic function gives the same bits, or a NaN
in both cases, on operands that are the same or both a NaN, whatever the draws. -/

namespace Sys2Proof.Machine

theorem sameOrNaN_refl (x : F64) : sameOrNaN x x := .inl rfl

theorem sameOrNaN2_refl (c : C64) : sameOrNaN2 c c := ⟨.inl rfl, .inl rfl⟩

/-- One core result under two draws. -/
theorem sameOrNaN_drawNaN (r : Option F64) (n n' : Nat) : sameOrNaN (drawNaN r n).1 (drawNaN r n').1 := by
  cases r with
  | some x => exact .inl rfl
  | none => exact .inr ⟨fIsNaN_nanDraw n, fIsNaN_nanDraw n'⟩

theorem addCore_of_nan {a b : F64} (h : fIsNaN a = true ∨ fIsNaN b = true) : addCore a b = none := by
  rw [addCore, if_pos (by simpa using h)]

theorem mulCore_of_nan {a b : F64} (h : fIsNaN a = true ∨ fIsNaN b = true) : mulCore a b = none := by
  rw [mulCore, if_pos (by simpa using h)]

theorem sqrtCore_of_nan {a : F64} (h : fIsNaN a = true) : sqrtCore a = none := by
  rw [sqrtCore, if_pos h]

/-- A function of two operands that answers a NaN on every NaN operand respects sameOrNaN. -/
theorem core_congr {f : F64 → F64 → Option F64} (hf : ∀ a b, fIsNaN a = true ∨ fIsNaN b = true → f a b = none)
    {a a' b b' : F64} (ha : sameOrNaN a a') (hb : sameOrNaN b b') : f a b = f a' b' := by
  rcases ha with rfl | ⟨h, h'⟩
  · rcases hb with rfl | ⟨h, h'⟩
    · rfl
    · rw [hf _ _ (.inr h), hf _ _ (.inr h')]
  · rw [hf _ _ (.inl h), hf _ _ (.inl h')]

theorem fIsNaN_fneg (x : F64) : fIsNaN (fneg x) = fIsNaN x := by simp [fIsNaN]

theorem fadd_congr {a a' b b' : F64} (ha : sameOrNaN a a') (hb : sameOrNaN b b') (n n' : Nat) :
    sameOrNaN (fadd a b n).1 (fadd a' b' n').1 := by
  rw [fadd, fadd, core_congr (fun _ _ => addCore_of_nan) ha hb]
  exact sameOrNaN_drawNaN _ _ _

theorem fsub_congr {a a' b b' : F64} (ha : sameOrNaN a a') (hb : sameOrNaN b b') (n n' : Nat) :
    sameOrNaN (fsub a b n).1 (fsub a' b' n').1 := by
  rw [fsub, fsub, core_congr (f := subCore)
    (fun _ _ h => addCore_of_nan (by rwa [fIsNaN_fneg])) ha hb]
  exact sameOrNaN_drawNaN _ _ _

theorem fmul_congr {a a' b b' : F64} (ha : sameOrNaN a a') (hb : sameOrNaN b b') (n n' : Nat) :
    sameOrNaN (fmul a b n).1 (fmul a' b' n').1 := by
  rw [fmul, fmul, core_congr (fun _ _ => mulCore_of_nan) ha hb]
  exact sameOrNaN_drawNaN _ _ _

theorem cadd_congr {a a' b b' : C64} (ha : sameOrNaN2 a a') (hb : sameOrNaN2 b b') (n n' : Nat) :
    sameOrNaN2 (cadd a b n).1 (cadd a' b' n').1 :=
  ⟨fadd_congr ha.1 hb.1 _ _, fadd_congr ha.2 hb.2 _ _⟩

theorem csub_congr {a a' b b' : C64} (ha : sameOrNaN2 a a') (hb : sameOrNaN2 b b') (n n' : Nat) :
    sameOrNaN2 (csub a b n).1 (csub a' b' n').1 :=
  ⟨fsub_congr ha.1 hb.1 _ _, fsub_congr ha.2 hb.2 _ _⟩

theorem cmul_congr {a a' b b' : C64} (ha : sameOrNaN2 a a') (hb : sameOrNaN2 b b') (n n' : Nat) :
    sameOrNaN2 (cmul a b n).1 (cmul a' b' n').1 :=
  ⟨fsub_congr (fmul_congr ha.1 hb.1 _ _) (fmul_congr ha.2 hb.2 _ _) _ _,
   fadd_congr (fmul_congr ha.1 hb.2 _ _) (fmul_congr ha.2 hb.1 _ _) _ _⟩

end Sys2Proof.Machine
end

