-- ==== Sys2Proof/Laws/Memory.lean ====
section
/-! SUPPORT. Memory: what a write leaves to be read, everywhere, and that every write keeps the canonical form. -/

namespace Sys2Proof.Machine

/-! ## Bytes -/

theorem memByte_nil (addr : Nat) : memByte [] addr = none := rfl

theorem memByte_cons (c : Host.Cell) (cs : List Host.Cell) (addr : Nat) :
    memByte (c :: cs) addr = if addr = c.1 then some c.2 else memByte cs addr := by
  obtain ⟨x, v⟩ := c
  by_cases h : addr = x
  · simp [memByte, List.lookup, h]
  · have hx : (addr == x) = false := by simpa using h
    simp [memByte, List.lookup, hx, h]

/-- In canonical form no address below the first entry is listed. -/
theorem memByte_none_of_below {m : List Host.Cell} {addr : Nat} (h : ∀ c ∈ m, addr < c.1) :
    memByte m addr = none := by
  induction m with
  | nil => rfl
  | cons c cs ih =>
    have hc := h c (by simp)
    rw [memByte_cons, if_neg (by omega), ih (fun d hd => h d (by simp [hd]))]

/-- One byte read after one byte written. -/
theorem memByte_memPut (m : List Host.Cell) (addr addr' : Nat) (v : Byte) :
    memByte (memPut addr v m) addr' = if addr' = addr then some v else memByte m addr' := by
  induction m with
  | nil => simp [memPut, memByte_cons, memByte_nil]
  | cons c cs ih =>
    simp only [memPut]
    split
    · rw [memByte_cons]
    · split
      · rename_i h1 h2
        rw [memByte_cons, memByte_cons]
        subst h2
        split <;> simp_all
      · rename_i h1 h2
        rw [memByte_cons, memByte_cons, ih]
        split
        · rename_i h3
          rw [if_neg (by omega)]
        · rfl

theorem mem_memPut {m : List Host.Cell} {addr : Nat} {v : Byte} {d : Host.Cell} (h : d ∈ memPut addr v m) :
    d = (addr, v) ∨ d ∈ m := by
  induction m with
  | nil => simpa [memPut] using h
  | cons c cs ih =>
    simp only [memPut] at h
    split at h
    · simpa using h
    · split at h
      · rcases List.mem_cons.1 h with h | h
        · exact .inl h
        · exact .inr (by simp [h])
      · rcases List.mem_cons.1 h with h | h
        · exact .inr (by simp [h])
        · rcases ih h with h | h
          · exact .inl h
          · exact .inr (by simp [h])

/-- Writing a byte keeps the canonical form. -/
theorem memPut_wf {m : List Host.Cell} (h : Memory.wf m) (addr : Nat) (v : Byte) :
    Memory.wf (memPut addr v m) := by
  induction m with
  | nil => simp [memPut, Memory.wf]
  | cons c cs ih =>
    have hc : ∀ d ∈ cs, c.1 < d.1 := (List.pairwise_cons.1 h).1
    have hcs : Memory.wf cs := (List.pairwise_cons.1 h).2
    simp only [memPut]
    split
    · rename_i hlt
      refine List.pairwise_cons.2 ⟨fun d hd => ?_, h⟩
      rcases List.mem_cons.1 hd with rfl | hd
      · exact hlt
      · exact Nat.lt_trans hlt (hc d hd)
    · split
      · rename_i heq
        subst heq
        exact List.pairwise_cons.2 ⟨hc, hcs⟩
      · rename_i hlt hne
        refine List.pairwise_cons.2 ⟨fun d hd => ?_, ih hcs⟩
        rcases mem_memPut hd with rfl | hd
        · show c.1 < addr
          omega
        · exact hc d hd

/-! ## Runs of bytes and words -/

theorem memPutLE_wf {m : List Host.Cell} (h : Memory.wf m) (addr n v : Nat) :
    Memory.wf (memPutLE m addr n v) := by
  induction n generalizing m addr v with
  | zero => exact h
  | succ n ih => exact ih (memPut_wf h _ _) _ _

theorem memPutWord_wf {m : List Host.Cell} (h : Memory.wf m) (addr : Nat) (v : Word) :
    Memory.wf (memPutWord m addr v) := memPutLE_wf h _ _ _

theorem memPutEntry_wf {m : List Host.Cell} (h : Memory.wf m) (addr : Nat) (c : C64) :
    Memory.wf (memPutEntry m addr c) := memPutWord_wf (memPutWord_wf h _ _) _ _

theorem memPutSignal_wf {m : List Host.Cell} (h : Memory.wf m) (addr : Nat) (cs : List C64) :
    Memory.wf (memPutSignal m addr cs) := by
  induction cs generalizing m addr with
  | nil => exact h
  | cons c cs ih => exact ih (memPutEntry_wf h _ _) _

/-- A byte outside the run of bytes written is unchanged. -/
theorem memByte_memPutLE_outside {m : List Host.Cell} {addr n v x : Nat} (h : x < addr ∨ addr + n ≤ x) :
    memByte (memPutLE m addr n v) x = memByte m x := by
  induction n generalizing m addr v with
  | zero => rfl
  | succ n ih =>
    rw [memPutLE, ih (by omega), memByte_memPut, if_neg (by omega)]

/-- Byte `i` of the run of bytes written is byte `i` of the value. -/
theorem memByte_memPutLE_inside {m : List Host.Cell} {addr n v i : Nat} (h : i < n) :
    memByte (memPutLE m addr n v) (addr + i) = some (BitVec.ofNat 8 (v / 256 ^ i)) := by
  induction n generalizing m addr v i with
  | zero => omega
  | succ n ih =>
    cases i with
    | zero =>
      rw [memPutLE, memByte_memPutLE_outside (by omega), memByte_memPut, if_pos (by omega)]
      simp
    | succ i =>
      rw [memPutLE, show addr + (i + 1) = addr + 1 + i by omega, ih (by omega), Nat.div_div_eq_div_mul,
        Nat.pow_succ, Nat.mul_comm]

/-- The value of a run of bytes depends on those bytes alone. -/
theorem memGetLE_congr {m m' : List Host.Cell} {addr n : Nat}
    (h : ∀ i < n, memByte m (addr + i) = memByte m' (addr + i)) : memGetLE m addr n = memGetLE m' addr n := by
  induction n generalizing addr with
  | zero => rfl
  | succ n ih =>
    have h0 := h 0 (by omega)
    have hs : memGetLE m (addr + 1) n = memGetLE m' (addr + 1) n := by
      refine ih (fun i hi => ?_)
      have := h (i + 1) (by omega)
      rwa [show addr + (i + 1) = addr + 1 + i by omega] at this
    simp only [Nat.add_zero] at h0
    simp only [memGetLE, h0, hs]

/-- The bytes of a value give the value back, cut to their number. -/
theorem memGetLE_of_bytes {m : List Host.Cell} {addr n v : Nat}
    (h : ∀ i < n, memByte m (addr + i) = some (BitVec.ofNat 8 (v / 256 ^ i))) :
    memGetLE m addr n = some (v % 256 ^ n) := by
  induction n generalizing addr v with
  | zero => simp [memGetLE, Nat.mod_one]
  | succ n ih =>
    have h0 := h 0 (by omega)
    have hs : memGetLE m (addr + 1) n = some (v / 256 % 256 ^ n) := by
      refine ih (fun i hi => ?_)
      have := h (i + 1) (by omega)
      rwa [show addr + (i + 1) = addr + 1 + i by omega, Nat.pow_succ, Nat.mul_comm,
        ← Nat.div_div_eq_div_mul] at this
    simp only [Nat.add_zero, Nat.pow_zero, Nat.div_one] at h0
    have hp : 256 ^ (n + 1) = 256 * 256 ^ n := by rw [Nat.pow_succ, Nat.mul_comm]
    simp only [memGetLE, h0, hs, BitVec.toNat_ofNat]
    rw [hp, Nat.mod_mul]

/-- A word read where it was written is the word written. -/
theorem memWord_memPutWord (m : List Host.Cell) (addr : Nat) (v : Word) :
    memWord (memPutWord m addr v) addr = some v := by
  have h : memGetLE (memPutWord m addr v) addr 8 = some (v.toNat % 256 ^ 8) :=
    memGetLE_of_bytes (fun i hi => memByte_memPutLE_inside hi)
  have hv : v.toNat < 256 ^ 8 := by have := v.isLt; omega
  rw [memWord, h, Nat.mod_eq_of_lt hv]
  simp

/-- A byte outside the word written is unchanged. -/
theorem memByte_memPutWord_outside {m : List Host.Cell} {addr x : Nat} {v : Word} (h : x < addr ∨ addr + 8 ≤ x) :
    memByte (memPutWord m addr v) x = memByte m x := memByte_memPutLE_outside h

/-- A word that shares no byte with the word written is unchanged. -/
theorem memWord_memPutWord_outside {m : List Host.Cell} {addr x : Nat} {v : Word}
    (h : x + 8 ≤ addr ∨ addr + 8 ≤ x) : memWord (memPutWord m addr v) x = memWord m x := by
  rw [memWord, memWord, memGetLE_congr (fun i hi => memByte_memPutWord_outside (by omega))]

/-- A word is written exactly when its eight bytes are. -/
theorem memGetLE_isSome_iff (m : List Host.Cell) (addr n : Nat) :
    (memGetLE m addr n).isSome = true ↔ ∀ i < n, (memByte m (addr + i)).isSome = true := by
  induction n generalizing addr with
  | zero => simp [memGetLE]
  | succ n ih =>
    simp only [memGetLE]
    constructor
    · intro h i hi
      cases hb : memByte m addr with
      | none => simp [hb] at h
      | some b =>
        cases hv : memGetLE m (addr + 1) n with
        | none => simp [hb, hv] at h
        | some v =>
          cases i with
          | zero => simp [hb]
          | succ i =>
            have := (ih (addr + 1)).1 (by simp [hv]) i (by omega)
            rwa [show addr + 1 + i = addr + (i + 1) by omega] at this
    · intro h
      have h0 := h 0 (by omega)
      have hs := (ih (addr + 1)).2 (fun i hi => by
        have := h (i + 1) (by omega)
        rwa [show addr + (i + 1) = addr + 1 + i by omega] at this)
      obtain ⟨b, hb⟩ := Option.isSome_iff_exists.1 h0
      obtain ⟨v, hv⟩ := Option.isSome_iff_exists.1 hs
      simp only [Nat.add_zero] at hb
      simp [hb, hv]

theorem memWord_isSome_iff (m : List Host.Cell) (addr : Nat) :
    (memWord m addr).isSome = true ↔ ∀ i < 8, (memByte m (addr + i)).isSome = true := by
  rw [memWord, Option.isSome_map, memGetLE_isSome_iff]

/-! ## Entries and signals -/

theorem memEntry_memPutEntry (m : List Host.Cell) (addr : Nat) (c : C64) :
    memEntry (memPutEntry m addr c) addr = some c := by
  simp only [memEntry, memPutEntry]
  rw [memWord_memPutWord_outside (by omega), memWord_memPutWord, memWord_memPutWord]

theorem memByte_memPutEntry_outside {m : List Host.Cell} {addr x : Nat} {c : C64}
    (h : x < addr ∨ addr + 16 ≤ x) : memByte (memPutEntry m addr c) x = memByte m x := by
  rw [memPutEntry, memByte_memPutWord_outside (by omega), memByte_memPutWord_outside (by omega)]

theorem memWord_congr {m m' : List Host.Cell} {addr : Nat}
    (h : ∀ i < 8, memByte m (addr + i) = memByte m' (addr + i)) : memWord m addr = memWord m' addr := by
  rw [memWord, memWord, memGetLE_congr h]

/-- An entry depends on its sixteen bytes alone. -/
theorem memEntry_congr {m m' : List Host.Cell} {addr : Nat}
    (h : ∀ i < 16, memByte m (addr + i) = memByte m' (addr + i)) : memEntry m addr = memEntry m' addr := by
  rw [memEntry, memEntry, memWord_congr (fun i hi => h i (by omega)),
    memWord_congr (m := m) (m' := m') (addr := addr + 8) (fun i hi => by
      have := h (8 + i) (by omega)
      rwa [← Nat.add_assoc] at this)]

/-- A byte outside the signal written is unchanged. -/
theorem memByte_memPutSignal_outside {m : List Host.Cell} {addr x : Nat} {cs : List C64}
    (h : x < addr ∨ addr + 16 * cs.length ≤ x) : memByte (memPutSignal m addr cs) x = memByte m x := by
  induction cs generalizing m addr with
  | nil => rfl
  | cons c cs ih =>
    simp only [List.length_cons] at h
    rw [memPutSignal, ih (by omega), memByte_memPutEntry_outside (by omega)]

/-- Entry `i` of the signal written is item `i` of the list. -/
theorem memEntry_memPutSignal_inside {m : List Host.Cell} {addr i : Nat} {cs : List C64} (h : i < cs.length) :
    memEntry (memPutSignal m addr cs) (addr + 16 * i) = cs[i]? := by
  induction cs generalizing m addr i with
  | nil => simp at h
  | cons c cs ih =>
    cases i with
    | zero =>
      show memEntry (memPutSignal (memPutEntry m addr c) (addr + 16) cs) addr = some c
      rw [memEntry_congr (m' := memPutEntry m addr c)
        (fun i hi => memByte_memPutSignal_outside (by omega)), memEntry_memPutEntry]
    | succ i =>
      simp only [List.length_cons] at h
      rw [memPutSignal, show addr + 16 * (i + 1) = addr + 16 + 16 * i by omega, ih (by omega),
        List.getElem?_cons_succ]

/-- The signal read is there exactly when every entry of it is, and then it holds them in order. -/
theorem memSignal_eq_some {m : List Host.Cell} {addr n : Nat} {cs : List C64} (h : memSignal m addr n = some cs) :
    cs.length = n ∧ ∀ i < n, memEntry m (addr + 16 * i) = cs[i]? := by
  induction n generalizing addr cs with
  | zero => simp only [memSignal, Option.some.injEq] at h; subst h; simp
  | succ n ih =>
    simp only [memSignal] at h
    split at h
    · rename_i c cs' hc hcs
      obtain rfl := Option.some.inj h
      obtain ⟨hl, hi⟩ := ih hcs
      refine ⟨by simp [hl], fun i hi' => ?_⟩
      cases i with
      | zero => simpa using hc
      | succ i =>
        rw [show addr + 16 * (i + 1) = addr + 16 + 16 * i by omega, hi i (by omega), List.getElem?_cons_succ]
    · exact absurd h (by simp)

theorem memSignal_eq_none_iff {m : List Host.Cell} {addr n : Nat} :
    memSignal m addr n = none ↔ ∃ i < n, memEntry m (addr + 16 * i) = none := by
  induction n generalizing addr with
  | zero => simp [memSignal]
  | succ n ih =>
    simp only [memSignal]
    cases hc : memEntry m addr with
    | none => simp only [true_iff]; exact ⟨0, by omega, by simpa using hc⟩
    | some c =>
      cases hcs : memSignal m (addr + 16) n with
      | none =>
        obtain ⟨i, hi, he⟩ := ih.1 hcs
        simp only [true_iff]
        exact ⟨i + 1, by omega, by rwa [show addr + 16 * (i + 1) = addr + 16 + 16 * i by omega]⟩
      | some cs =>
        simp only [reduceCtorEq, false_iff, not_exists, not_and]
        intro i hi he
        cases i with
        | zero => simp [hc] at he
        | succ i =>
          have : memSignal m (addr + 16) n = none :=
            ih.2 ⟨i, by omega, by rwa [show addr + 16 * (i + 1) = addr + 16 + 16 * i by omega] at he⟩
          simp [hcs] at this

/-- A signal depends on its entries alone. -/
theorem memSignal_congr {m m' : List Host.Cell} {addr n : Nat}
    (h : ∀ i < n, memEntry m (addr + 16 * i) = memEntry m' (addr + 16 * i)) :
    memSignal m addr n = memSignal m' addr n := by
  induction n generalizing addr with
  | zero => rfl
  | succ n ih =>
    have h0 := h 0 (by omega)
    have hs : memSignal m (addr + 16) n = memSignal m' (addr + 16) n := ih (fun i hi => by
      have := h (i + 1) (by omega)
      rwa [show addr + 16 * (i + 1) = addr + 16 + 16 * i by omega] at this)
    simp only [Nat.mul_zero, Nat.add_zero] at h0
    simp only [memSignal, h0, hs]

/-- A signal read where it was written is the signal written. -/
theorem memSignal_memPutSignal (m : List Host.Cell) (addr : Nat) (cs : List C64) :
    memSignal (memPutSignal m addr cs) addr cs.length = some cs := by
  cases h : memSignal (memPutSignal m addr cs) addr cs.length with
  | none =>
    obtain ⟨i, hi, he⟩ := memSignal_eq_none_iff.1 h
    rw [memEntry_memPutSignal_inside hi] at he
    simp at he
    omega
  | some ds =>
    obtain ⟨hl, hi⟩ := memSignal_eq_some h
    refine congrArg some (List.ext_getElem? (fun i => ?_))
    by_cases hlt : i < cs.length
    · rw [← hi i hlt, memEntry_memPutSignal_inside hlt]
    · rw [List.getElem?_eq_none (by omega), List.getElem?_eq_none (by omega)]

end Sys2Proof.Machine
end

