-- ==== Sys2Proof/Laws/Transforms.lean ====
section
/-! SUPPORT. The loops of the transforms: what they keep of the local array. -/

namespace Sys2Proof.Machine

/-- A left fold keeps what each of its steps keeps. -/
theorem foldl_keeps {α β : Type} (P : β → Prop) (f : β → α → β) (h : ∀ b a, P b → P (f b a)) (l : List α) (b : β)
    (hb : P b) : P (l.foldl f b) := by
  induction l generalizing b with
  | nil => exact hb
  | cons a l ih => exact ih _ (h b a hb)

theorem bitrevMove_length (x : List C64) (p : Nat) (y : List C64) (i : Nat) :
    (bitrevMove x p y i).length = y.length := by
  unfold bitrevMove
  split <;> simp

/-- The permutation keeps the length. -/
theorem bitrevPerm_length (x : List C64) (n : Nat) : (bitrevPerm x n).length = x.length :=
  foldl_keeps (fun (y : List C64) => y.length = x.length) _ (fun y i h => by rw [bitrevMove_length, h]) _ _ rfl

theorem dftStep_length (tw : Word → Word → C64) (x : List C64) (n : Nat) (wk : Work) (k : Nat) :
    (dftStep tw x n wk k).a.length = wk.a.length + 1 := by simp [dftStep]

/-- The direct transform appends one output for each of 0 .. n-1. -/
theorem dft_length (tw : Word → Word → C64) (x : List C64) (n : Nat) (wk : Work) :
    (dft tw x n wk).a.length = wk.a.length + n := by
  have h : ∀ (l : List Nat) (wk : Work), (l.foldl (dftStep tw x n) wk).a.length = wk.a.length + l.length := by
    intro l
    induction l with
    | nil => intro wk; rfl
    | cons k l ih => intro wk; rw [List.foldl_cons, ih, dftStep_length, List.length_cons]; omega
  rw [dft, h, List.length_range]

theorem butterflyStep_length (k h : Nat) (wk : Work) (j : Nat) :
    (butterflyStep k h wk j).a.length = wk.a.length := by
  unfold butterflyStep
  split <;> simp

theorem blockStep_length (m : Nat) (wk : Work) (k : Nat) : (blockStep m wk k).a.length = wk.a.length :=
  foldl_keeps (fun (v : Work) => v.a.length = wk.a.length) _ (fun v j h => by rw [butterflyStep_length, h]) _ _ rfl

/-- A stage keeps the length. -/
theorem stage_length (tw : Word → Word → C64) (n m : Nat) (wk : Work) :
    (stage tw n m wk).a.length = wk.a.length :=
  foldl_keeps (fun (v : Work) => v.a.length = wk.a.length) _ (fun v k h => by rw [blockStep_length, h]) _ _ rfl

/-- The stages keep the length. -/
theorem runStages_length (tw : Word → Word → C64) (n : Nat) (wk : Work) :
    (runStages tw n wk).a.length = wk.a.length :=
  foldl_keeps (fun (v : Work) => v.a.length = wk.a.length) _ (fun v m h => by rw [stage_length, h]) _ _ rfl

/-! ## A butterfly touches two entries, a block its own -/

/-- An entry that is not one of its two is unchanged by a butterfly. -/
theorem butterflyStep_other {k h i : Nat} {wk : Work} {j : Nat} (h1 : i ≠ k + j) (h2 : i ≠ k + j + h) :
    (butterflyStep k h wk j).a[i]? = wk.a[i]? := by
  unfold butterflyStep
  split
  · simp [h1.symm, h2.symm]
  · rfl

/-- An entry outside k .. k+m-1 is unchanged by the block at k (R107). -/
theorem blockStep_other {m k i : Nat} {wk : Work} (h : i < k ∨ k + m ≤ i) :
    (blockStep m wk k).a[i]? = wk.a[i]? := by
  have key : ∀ (l : List Nat) (v : Work), (∀ j ∈ l, j < m / 2) →
      (l.foldl (butterflyStep k (m / 2)) v).a[i]? = v.a[i]? := by
    intro l
    induction l with
    | nil => intro v _; rfl
    | cons j l ih =>
      intro v hl
      have hj := hl j (by simp)
      rw [List.foldl_cons, ih _ (fun j hj => hl j (by simp [hj])), butterflyStep_other (by omega) (by omega)]
  exact key _ _ (fun j hj => List.mem_range.1 hj)

end Sys2Proof.Machine
end

