-- ==== Sys2Proof/Laws/Exec.lean ====
section
/-! SUPPORT. Everything a command can do: the three commands' checks in the words of R113, and one lemma per command
that names its outcomes. -/

namespace Sys2Proof.Machine

/-! ## The power-of-two test -/

/-- R21's test is true exactly of the powers of two. -/
theorem isPow2_iff (n : Word) : isPow2 n = true ↔ ∃ p : Nat, n.toNat = 2 ^ p := by
  have hn : isPow2 n = true ↔ n.toNat ≠ 0 ∧ n.toNat &&& (n.toNat - 1) = 0 := by
    simp only [isPow2, Bool.and_eq_true, bne_iff_ne, ne_eq, beq_iff_eq]
    constructor
    · rintro ⟨h0, h1⟩
      have h0' : n.toNat ≠ 0 := fun h => h0 (BitVec.eq_of_toNat_eq (by simpa using h))
      have hs : (n - 1#64).toNat = n.toNat - 1 := by
        have := n.isLt
        rw [BitVec.toNat_sub]
        simp only [BitVec.toNat_ofNat]
        omega
      refine ⟨h0', ?_⟩
      have := congrArg BitVec.toNat h1
      rw [BitVec.toNat_and, hs] at this
      simpa using this
    · rintro ⟨h0, h1⟩
      have hs : (n - 1#64).toNat = n.toNat - 1 := by
        have := n.isLt
        rw [BitVec.toNat_sub]
        simp only [BitVec.toNat_ofNat]
        omega
      refine ⟨fun h => h0 (by simp [h]), BitVec.eq_of_toNat_eq ?_⟩
      rw [BitVec.toNat_and, hs, h1]
      simp
  rw [hn, Nat.ne_zero_and_sub_one_eq_zero_iff_isPowerOfTwo]
  exact Iff.rfl

theorem isPow2_false_iff (s : State) : (!isPow2 s.len) = true ↔ badLength s := by
  rw [Bool.not_eq_true', badLength, ← isPow2_iff]
  simp

/-- The check of a stage size (R103) in the words of R113. -/
theorem badStageSize_iff (s : State) :
    (!isPow2 s.m || decide (operandM s < 2) || decide (operandLen s < operandM s)) = true ↔ badStageSize s := by
  rw [Bool.or_eq_true, Bool.or_eq_true, decide_eq_true_iff, decide_eq_true_iff, Bool.not_eq_true', or_assoc,
    badStageSize, ← isPow2_iff, Bool.not_eq_true]
  exact Iff.rfl

/-! ## The signals -/

theorem signalX_none_iff (s : State) (n : Nat) :
    signalX s n = none ↔ ∃ j < n, memEntry s.mem (xAddr j) = none := memSignal_eq_none_iff

theorem signalY_none_iff (s : State) (n : Nat) :
    signalY s n = none ↔ ∃ j < n, memEntry s.mem (yAddr j) = none := memSignal_eq_none_iff

theorem signalX_length {s : State} {n : Nat} {x : List C64} (h : signalX s n = some x) : x.length = n :=
  (memSignal_eq_some h).1

theorem signalY_length {s : State} {n : Nat} {y : List C64} (h : signalY s n = some y) : y.length = n :=
  (memSignal_eq_some h).1

/-! ## The outcomes of each command -/

/-- BITREV ends with NOT_POW2, with LEN_RANGE, at an unwritten word of X, or with the permutation in Y (R95). -/
theorem execBitrev_cases (s : State) :
    (badLength s ∧ execBitrev s = .next (raiseCmdError .notPow2 s)) ∨
    (¬ badLength s ∧ longLength s ∧ execBitrev s = .next (raiseCmdError .lenRange s)) ∨
    (¬ badLength s ∧ ¬ longLength s ∧ signalX s s.len.toNat = none ∧ execBitrev s = .fault .unwrittenSample) ∨
    (¬ badLength s ∧ ¬ longLength s ∧ ∃ x, signalX s s.len.toNat = some x ∧
      execBitrev s = .next (complete (writeY (startWork (bitrevPerm x s.len.toNat) s) s))) := by
  by_cases h1 : badLength s
  · exact .inl ⟨h1, by rw [execBitrev, if_pos ((isPow2_false_iff s).2 h1)]⟩
  · have n1 : ¬ (!isPow2 s.len) = true := fun h => h1 ((isPow2_false_iff s).1 h)
    by_cases h2 : longLength s
    · exact .inr (.inl ⟨h1, h2, by rw [execBitrev, if_neg n1]; exact if_pos h2⟩)
    · have e : execBitrev s = _ := (if_neg n1).trans (if_neg h2)
      cases hx : signalX s s.len.toNat with
      | none => exact .inr (.inr (.inl ⟨h1, h2, rfl, by rw [e, operandLen, hx]⟩))
      | some x => exact .inr (.inr (.inr ⟨h1, h2, x, rfl, by rw [e, operandLen, hx]⟩))

/-- TWID ends with M_ZERO or with TW(K, M) in R0 (R100). -/
theorem execTwid_cases (s : State) :
    (s.m.toNat = 0 ∧ execTwid s = .next (raiseCmdError .mZero s)) ∨
    (s.m.toNat ≠ 0 ∧ execTwid s = .next (complete (writeR0 (Config.tw s.k s.m, s.nanDraws) s))) := by
  by_cases h : s.m.toNat = 0
  · exact .inl ⟨h, if_pos h⟩
  · exact .inr ⟨h, if_neg h⟩

/-- DFT ends with LEN_RANGE, at an unwritten word of X, or with the transform in Y (R101). -/
theorem execDft_cases (s : State) :
    (longLength s ∧ execDft s = .next (raiseCmdError .lenRange s)) ∨
    (¬ longLength s ∧ signalX s s.len.toNat = none ∧ execDft s = .fault .unwrittenSample) ∨
    (¬ longLength s ∧ ∃ x, signalX s s.len.toNat = some x ∧
      execDft s = .next (complete (writeY (dft Config.tw x s.len.toNat (startWork [] s)) s))) := by
  by_cases h2 : longLength s
  · exact .inl ⟨h2, if_pos h2⟩
  · have e : execDft s = _ := if_neg h2
    cases hx : signalX s s.len.toNat with
    | none => exact .inr (.inl ⟨h2, rfl, by rw [e, operandLen, hx]⟩)
    | some x => exact .inr (.inr ⟨h2, x, rfl, by rw [e, operandLen, hx]⟩)

/-- STAGE ends with NOT_POW2, LEN_RANGE or BAD_STAGE, at an unwritten word of Y, or with the stage in Y (R103). -/
theorem execStage_cases (s : State) :
    (badLength s ∧ execStage s = .next (raiseCmdError .notPow2 s)) ∨
    (¬ badLength s ∧ longLength s ∧ execStage s = .next (raiseCmdError .lenRange s)) ∨
    (¬ badLength s ∧ ¬ longLength s ∧ badStageSize s ∧ execStage s = .next (raiseCmdError .badStage s)) ∨
    (¬ badLength s ∧ ¬ longLength s ∧ ¬ badStageSize s ∧ signalY s s.len.toNat = none ∧
      execStage s = .fault .unwrittenSample) ∨
    (¬ badLength s ∧ ¬ longLength s ∧ ¬ badStageSize s ∧ ∃ y, signalY s s.len.toNat = some y ∧
      execStage s = .next (complete (writeY (stage Config.tw s.len.toNat s.m.toNat (startWork y s)) s))) := by
  by_cases h1 : badLength s
  · exact .inl ⟨h1, by rw [execStage, if_pos ((isPow2_false_iff s).2 h1)]⟩
  · have n1 : ¬ (!isPow2 s.len) = true := fun h => h1 ((isPow2_false_iff s).1 h)
    by_cases h2 : longLength s
    · exact .inr (.inl ⟨h1, h2, by rw [execStage, if_neg n1]; exact if_pos h2⟩)
    · have e : execStage s = _ := (if_neg n1).trans (if_neg h2)
      by_cases h3 : badStageSize s
      · exact .inr (.inr (.inl ⟨h1, h2, h3, by rw [e, if_pos ((badStageSize_iff s).2 h3)]⟩))
      · rw [if_neg (fun h => h3 ((badStageSize_iff s).1 h))] at e
        cases hy : signalY s s.len.toNat with
        | none => exact .inr (.inr (.inr (.inl ⟨h1, h2, h3, rfl, by rw [e, operandLen, hy]⟩)))
        | some y =>
          exact .inr (.inr (.inr (.inr ⟨h1, h2, h3, y, rfl, by rw [e]; simp only [operandLen, operandM, hy]⟩)))

/-- FFT ends with NOT_POW2, with LEN_RANGE, at an unwritten word of X, or with the transform in Y (R105). -/
theorem execFft_cases (s : State) :
    (badLength s ∧ execFft s = .next (raiseCmdError .notPow2 s)) ∨
    (¬ badLength s ∧ longLength s ∧ execFft s = .next (raiseCmdError .lenRange s)) ∨
    (¬ badLength s ∧ ¬ longLength s ∧ signalX s s.len.toNat = none ∧ execFft s = .fault .unwrittenSample) ∨
    (¬ badLength s ∧ ¬ longLength s ∧ ∃ x, signalX s s.len.toNat = some x ∧
      execFft s = .next (complete (writeY (runStages Config.tw s.len.toNat
        (startWork (bitrevPerm x s.len.toNat) s)) s))) := by
  by_cases h1 : badLength s
  · exact .inl ⟨h1, by rw [execFft, if_pos ((isPow2_false_iff s).2 h1)]⟩
  · have n1 : ¬ (!isPow2 s.len) = true := fun h => h1 ((isPow2_false_iff s).1 h)
    by_cases h2 : longLength s
    · exact .inr (.inl ⟨h1, h2, by rw [execFft, if_neg n1]; exact if_pos h2⟩)
    · have e : execFft s = _ := (if_neg n1).trans (if_neg h2)
      cases hx : signalX s s.len.toNat with
      | none => exact .inr (.inr (.inl ⟨h1, h2, rfl, by rw [e, operandLen, hx]⟩))
      | some x => exact .inr (.inr (.inr ⟨h1, h2, x, rfl, by rw [e, operandLen, hx]⟩))

/-! ## Everything a command can do -/

/-- A command ends with an error code and none of its writes; or faults at an unwritten word; or completes with LEN
entries written from Y[0], LEN being at most N_MAX; or completes with result registers or FLAG written. -/
theorem exec_cases (i : Instr) (s : State) :
    (∃ code, code ≠ .none ∧ exec i s = .next (raiseCmdError code s)) ∨
    (i ∈ [.bitrev, .dft, .stage, .fft] ∧ exec i s = .fault .unwrittenSample) ∨
    (i ∈ [.bitrev, .dft, .stage, .fft] ∧ ¬ longLength s ∧ ∃ wk : Work, wk.a.length = s.len.toNat ∧
      exec i s = .next (complete (writeY wk s))) ∨
    (i ∉ [.bitrev, .dft, .stage, .fft] ∧ ∃ r0 r1 n flag, exec i s = .next (complete { s with
      r0 := r0, r1 := r1, nanDraws := n, status := { s.status with flag := flag } })) := by
  cases i with
  | bitrev =>
    rcases execBitrev_cases s with ⟨_, e⟩ | ⟨_, _, e⟩ | ⟨_, _, _, e⟩ | ⟨_, h, x, hx, e⟩
    · exact .inl ⟨_, by decide, e⟩
    · exact .inl ⟨_, by decide, e⟩
    · exact .inr (.inl ⟨by decide, e⟩)
    · exact .inr (.inr (.inl ⟨by decide, h, _, (bitrevPerm_length x _).trans (signalX_length hx), e⟩))
  | twid =>
    rcases execTwid_cases s with ⟨_, e⟩ | ⟨_, e⟩
    · exact .inl ⟨_, by decide, e⟩
    · exact .inr (.inr (.inr ⟨by decide, _, s.r1, s.nanDraws, s.status.flag, e⟩))
  | dft =>
    rcases execDft_cases s with ⟨_, e⟩ | ⟨_, _, e⟩ | ⟨h, x, hx, e⟩
    · exact .inl ⟨_, by decide, e⟩
    · exact .inr (.inl ⟨by decide, e⟩)
    · exact .inr (.inr (.inl ⟨by decide, h, _, by simp [dft_length, startWork], e⟩))
  | stage =>
    rcases execStage_cases s with ⟨_, e⟩ | ⟨_, _, e⟩ | ⟨_, _, _, e⟩ | ⟨_, _, _, _, e⟩ | ⟨_, h, _, y, hy, e⟩
    · exact .inl ⟨_, by decide, e⟩
    · exact .inl ⟨_, by decide, e⟩
    · exact .inl ⟨_, by decide, e⟩
    · exact .inr (.inl ⟨by decide, e⟩)
    · exact .inr (.inr (.inl ⟨by decide, h, _, (stage_length ..).trans (signalY_length hy), e⟩))
  | fft =>
    rcases execFft_cases s with ⟨_, e⟩ | ⟨_, _, e⟩ | ⟨_, _, _, e⟩ | ⟨_, h, x, hx, e⟩
    · exact .inl ⟨_, by decide, e⟩
    · exact .inl ⟨_, by decide, e⟩
    · exact .inr (.inl ⟨by decide, e⟩)
    · exact .inr (.inr (.inl ⟨by decide, h, _,
        (runStages_length ..).trans ((bitrevPerm_length x _).trans (signalX_length hx)), e⟩))
  | nop => exact .inr (.inr (.inr ⟨by decide, s.r0, s.r1, s.nanDraws, s.status.flag, rfl⟩))
  | ispow2 => exact .inr (.inr (.inr ⟨by decide, s.r0, s.r1, s.nanDraws, isPow2 s.len, rfl⟩))
  | cbfly => exact .inr (.inr (.inr ⟨by decide, _, _, _, s.status.flag, rfl⟩))
  | cadd => exact .inr (.inr (.inr ⟨by decide, _, s.r1, _, s.status.flag, rfl⟩))
  | csub => exact .inr (.inr (.inr ⟨by decide, _, s.r1, _, s.status.flag, rfl⟩))
  | cmul => exact .inr (.inr (.inr ⟨by decide, _, s.r1, _, s.status.flag, rfl⟩))
  | cscale => exact .inr (.inr (.inr ⟨by decide, _, s.r1, _, s.status.flag, rfl⟩))
  | cconj => exact .inr (.inr (.inr ⟨by decide, _, s.r1, _, s.status.flag, rfl⟩))
  | cnorm => exact .inr (.inr (.inr ⟨by decide, _, s.r1, _, s.status.flag, rfl⟩))

end Sys2Proof.Machine
end

