-- ==== Sys2Proof/Laws/PerInstr.lean ====
section
/-! SUPPORT. What holds of every command as syntax, one lemma per constructor. -/

namespace Sys2Proof.Laws.Encoding

/-- The command's word is a valid word of the opcode table (R74), and its reads do not include what it writes but
for STAGE, which works on Y in place (R91, R103). -/
def Statement (i : Instr) : Prop :=
  validWord (encode i) = true ∧ i.wellFormed = true ∧ (i = .stage ∨ ∀ o ∈ i.reads, o ∉ i.writes)

theorem nop : Statement .nop := by unfold Statement; decide
theorem cadd : Statement .cadd := by unfold Statement; decide
theorem csub : Statement .csub := by unfold Statement; decide
theorem cmul : Statement .cmul := by unfold Statement; decide
theorem cscale : Statement .cscale := by unfold Statement; decide
theorem cconj : Statement .cconj := by unfold Statement; decide
theorem cnorm : Statement .cnorm := by unfold Statement; decide
theorem cbfly : Statement .cbfly := by unfold Statement; decide
theorem ispow2 : Statement .ispow2 := by unfold Statement; decide
theorem bitrev : Statement .bitrev := by unfold Statement; decide
theorem twid : Statement .twid := by unfold Statement; decide
theorem dft : Statement .dft := by unfold Statement; decide
theorem stage : Statement .stage := by unfold Statement; decide
theorem fft : Statement .fft := by unfold Statement; decide

end Sys2Proof.Laws.Encoding
end

