-- ==== Sys2Proof/Laws/Rounding.lean ====
section
/-! SUPPORT. Rounding: the packing of an exact value into binary64 is IEEE 754's roundTiesToEven. -/

namespace Sys2Proof.Machine

/-! ## Rounding to a multiple of 2^k -/

/-- The rounded quotient is within half a unit of the exact one, and is even where it is exactly half a unit off. -/
theorem roundShift_spec (n k : Nat) :
    2 * |(roundShift n k : ℤ) * 2 ^ k - n| ≤ 2 ^ k ∧
      (2 * |(roundShift n k : ℤ) * 2 ^ k - n| = 2 ^ k → roundShift n k % 2 = 0) := by
  have hn : (n : ℤ) = ((n / 2 ^ k : ℕ) : ℤ) * (2 ^ k : ℕ) + ((n % 2 ^ k : ℕ) : ℤ) := by
    rw [← Nat.cast_mul, ← Nat.cast_add, Nat.div_add_mod' n (2 ^ k)]
  have hr : n % 2 ^ k < 2 ^ k := Nat.mod_lt _ (Nat.two_pow_pos k)
  have hc : ((2 : ℤ) ^ k) = ((2 ^ k : ℕ) : ℤ) := by push_cast; rfl
  unfold roundShift
  generalize n / 2 ^ k = q at *
  generalize n % 2 ^ k = r at *
  rw [hn, hc]
  generalize 2 ^ k = P at *
  simp only
  split
  · rename_i h
    have e : ((q + 1 : ℕ) : ℤ) * (P : ℤ) - ((q : ℤ) * P + r) = (P : ℤ) - r := by push_cast; ring
    rw [e, abs_of_nonneg (by omega)]
    omega
  · rename_i h
    have e : ((q : ℕ) : ℤ) * (P : ℤ) - ((q : ℤ) * P + r) = -(r : ℤ) := by ring
    rw [e, abs_neg, abs_of_nonneg (by omega)]
    omega

/-- The rounded quotient is nearest to `n` among the multiples of 2^k, and even where another is as near. -/
theorem roundShift_nearest {n k : Nat} {c : ℤ} (hc : (2 : ℤ) ^ k ∣ c) :
    |(roundShift n k : ℤ) * 2 ^ k - n| ≤ |c - n| ∧
      (|(roundShift n k : ℤ) * 2 ^ k - n| = |c - n| → c = roundShift n k * 2 ^ k ∨ roundShift n k % 2 = 0) := by
  obtain ⟨z, rfl⟩ := hc
  obtain ⟨h1, h2⟩ := roundShift_spec n k
  have hP : (0 : ℤ) < 2 ^ k := by positivity
  generalize (roundShift n k : ℤ) = m at *
  generalize (2 : ℤ) ^ k = P at *
  by_cases hz : z = m
  · subst hz
    rw [mul_comm]
    exact ⟨le_refl _, fun _ => .inl rfl⟩
  · have hd : P ≤ |P * z - m * P| := by
      have : P * z - m * P = P * (z - m) := by ring
      rw [this, abs_mul, abs_of_pos hP]
      have : 1 ≤ |z - m| := Int.one_le_abs (sub_ne_zero.2 hz)
      nlinarith
    have ht : |P * z - m * P| ≤ |P * z - n| + |m * P - n| := by
      have := abs_sub (P * z - n) (m * P - n)
      have e : P * z - m * P = (P * z - ↑n) - (m * P - ↑n) := by ring
      rw [e]; exact this
    refine ⟨by linarith, fun he => .inr (h2 (by linarith))⟩

/-! ## Packing -/

/-- The number of low bits that a result has no room for. -/
def dropped (n sh : Nat) : Nat := max sh (Nat.log2 n - 52)

theorem packMag_eq (n sh : Nat) :
    packMag n sh = min ((dropped n sh - sh) * 2 ^ 52 + roundShift n (dropped n sh)) (2047 * 2 ^ 52) := rfl

theorem roundShift_le {n k : Nat} (h : n < 2 ^ (53 + k)) : roundShift n k ≤ 2 ^ 53 := by
  have hq : n / 2 ^ k < 2 ^ 53 := by
    rw [Nat.div_lt_iff_lt_mul (Nat.two_pow_pos k), ← Nat.pow_add]
    exact h
  unfold roundShift
  simp only
  split <;> omega

theorem div_le_roundShift (n k : Nat) : n / 2 ^ k ≤ roundShift n k := by
  unfold roundShift
  simp only
  split <;> omega

theorem lt_dropped {n : Nat} (sh : Nat) : n < 2 ^ (53 + dropped n sh) := by
  have h : n < 2 ^ (Nat.log2 n + 1) := Nat.lt_log2_self
  refine lt_of_lt_of_le h (Nat.pow_le_pow_right (by omega) ?_)
  unfold dropped
  omega

theorem le_of_dropped {n sh : Nat} (hn : 0 < n) (h : sh < dropped n sh) : 2 ^ (52 + dropped n sh) ≤ n := by
  have h' : 2 ^ Nat.log2 n ≤ n := Nat.log2_self_le (by omega)
  have e : dropped n sh = Nat.log2 n - 52 := by unfold dropped at *; omega
  have : 52 + dropped n sh = Nat.log2 n := by omega
  rwa [this]

/-- Below the overflow the packed magnitude is the rounded significand at its exponent, and its last bit is the
significand's. -/
theorem pack_fields {d m : Nat} (hm : m ≤ 2 ^ 53) (hd : 0 < d → 2 ^ 52 ≤ m) (hv : d * 2 ^ 52 + m < 2047 * 2 ^ 52)
    {neg : Bool} {x : F64} (hx : x = (BitVec.ofBool neg ++ BitVec.ofNat 63 (d * 2 ^ 52 + m) : F64)) :
    fIsFinite x = true ∧ fMag x = m * 2 ^ d ∧ fFrac x % 2 = m % 2 := by
  have hlt : (BitVec.ofNat 63 (d * 2 ^ 52 + m)).toNat = d * 2 ^ 52 + m := by
    rw [BitVec.toNat_ofNat, Nat.mod_eq_of_lt (by omega)]
  have hE : fExp x = (d * 2 ^ 52 + m) / 2 ^ 52 := by rw [hx, fExp_signed, hlt]
  have hF : fFrac x = (d * 2 ^ 52 + m) % 2 ^ 52 := by rw [hx, fFrac_signed, hlt]
  refine ⟨?_, ?_, ?_⟩
  · rw [fIsFinite, hE]
    simp
    omega
  · rw [fMag, hE, hF]
    rcases Nat.lt_or_ge m (2 ^ 52) with h | h
    · have d0 : d = 0 := by by_contra hne; have := hd (by omega); omega
      subst d0
      rw [if_pos (by omega), Nat.zero_mul, Nat.zero_add, Nat.pow_zero, Nat.mul_one, Nat.mod_eq_of_lt h]
    · rcases Nat.lt_or_ge m (2 ^ 53) with h' | h'
      · have e : (d * 2 ^ 52 + m) / 2 ^ 52 = d + 1 := by omega
        have f : (d * 2 ^ 52 + m) % 2 ^ 52 = m - 2 ^ 52 := by omega
        have g : 2 ^ 52 + (m - 2 ^ 52) = m := by omega
        rw [e, f, if_neg (by omega), Nat.add_sub_cancel, g]
      · have hm' : m = 2 ^ 53 := by omega
        have e : (d * 2 ^ 52 + m) / 2 ^ 52 = d + 2 := by omega
        have f : (d * 2 ^ 52 + m) % 2 ^ 52 = 0 := by omega
        rw [e, f, if_neg (by omega), hm', show d + 2 - 1 = d + 1 by omega, Nat.pow_succ]
        ring
  · rw [hF]; omega

/-- Every finite value is a multiple of 2^k at scale 2^-sh, or below the range where results drop k bits. -/
theorem fMag_multiple_or_small {sh k : Nat} (h : sh ≤ k) (y : F64) :
    2 ^ k ∣ fMag y * 2 ^ sh ∨ (sh < k ∧ fMag y * 2 ^ sh < 2 ^ (52 + k)) := by
  rcases Nat.eq_or_lt_of_le h with rfl | hlt
  · exact .inl (Nat.dvd_mul_left _ _)
  · have hf := fFrac_lt y
    have hk : 2 ^ (52 + k) = 2 ^ (52 + (k - sh)) * 2 ^ sh := by rw [← Nat.pow_add]; congr 1; omega
    have hp : 0 < 2 ^ sh := Nat.two_pow_pos sh
    unfold fMag
    split
    · refine .inr ⟨hlt, ?_⟩
      rw [hk, Nat.mul_lt_mul_right hp]
      exact lt_of_lt_of_le hf (Nat.pow_le_pow_right (by omega) (by omega))
    · by_cases he : k - sh ≤ fExp y - 1
      · refine .inl ?_
        have : k = (k - sh) + sh := by omega
        rw [this, Nat.pow_add]
        exact Nat.mul_dvd_mul (Dvd.dvd.mul_left (Nat.pow_dvd_pow 2 he) _) (Nat.dvd_refl _)
      · refine .inr ⟨hlt, ?_⟩
        rw [hk, Nat.mul_lt_mul_right hp]
        calc (2 ^ 52 + fFrac y) * 2 ^ (fExp y - 1) < 2 ^ 53 * 2 ^ (fExp y - 1) := by
              rw [Nat.mul_lt_mul_right (Nat.two_pow_pos _)]; omega
          _ = 2 ^ (53 + (fExp y - 1)) := (Nat.pow_add ..).symm
          _ ≤ 2 ^ (52 + (k - sh)) := Nat.pow_le_pow_right (by omega) (by omega)

/-- The same of a value with its sign. -/
theorem fUnits_multiple_or_small {sh k : Nat} (h : sh ≤ k) (y : F64) :
    (2 : ℤ) ^ k ∣ fUnits y * 2 ^ sh ∨ (sh < k ∧ |fUnits y * 2 ^ sh| < 2 ^ (52 + k)) := by
  have hm : |fUnits y * 2 ^ sh| = ((fMag y * 2 ^ sh : ℕ) : ℤ) := by
    rw [abs_mul, fUnits]
    push_cast
    rw [abs_of_pos (by positivity : (0 : ℤ) < 2 ^ sh)]
    split <;> simp
  rcases fMag_multiple_or_small h y with hd | ⟨hlt, hs⟩
  · left
    rw [← dvd_abs, hm]
    exact_mod_cast hd
  · right
    rw [hm]
    exact ⟨hlt, by exact_mod_cast hs⟩

/-- The rounded significand at its exponent is nearest to `n` among the finite values. -/
theorem packed_nearest {n sh : Nat} (hn : 0 < n) (y : F64) :
    |(roundShift n (dropped n sh) : ℤ) * 2 ^ dropped n sh - n| ≤ |fUnits y * 2 ^ sh - n| ∧
      (|(roundShift n (dropped n sh) : ℤ) * 2 ^ dropped n sh - n| = |fUnits y * 2 ^ sh - n| →
        fUnits y * 2 ^ sh = roundShift n (dropped n sh) * 2 ^ dropped n sh ∨
          roundShift n (dropped n sh) % 2 = 0) := by
  have hsh : sh ≤ dropped n sh := le_max_left _ _
  rcases fUnits_multiple_or_small hsh y with hd | ⟨hlt, hs⟩
  · exact roundShift_nearest hd
  · have hle := le_of_dropped hn hlt
    have hle' : (2 : ℤ) ^ (52 + dropped n sh) ≤ n := by exact_mod_cast hle
    have hb := (roundShift_nearest (n := n) (k := dropped n sh) (c := 2 ^ (52 + dropped n sh))
      (pow_dvd_pow 2 (by omega))).1
    rw [abs_of_nonpos (by linarith : (2 : ℤ) ^ (52 + dropped n sh) - n ≤ 0)] at hb
    have := abs_lt.1 hs
    have hy : (2 : ℤ) ^ (52 + dropped n sh) - n > fUnits y * 2 ^ sh - n := by linarith
    have hlt' : |(roundShift n (dropped n sh) : ℤ) * 2 ^ dropped n sh - n| < |fUnits y * 2 ^ sh - n| := by
      rw [abs_of_nonpos (by linarith : fUnits y * 2 ^ sh - n ≤ 0)]
      linarith
    exact ⟨le_of_lt hlt', fun he => absurd he (ne_of_lt hlt')⟩

/-- The packed magnitude stays below infinity exactly when the exact value is below the overflow threshold. -/
theorem pack_overflow_iff {n sh : Nat} (hn : 0 < n) :
    2047 * 2 ^ 52 ≤ (dropped n sh - sh) * 2 ^ 52 + roundShift n (dropped n sh) ↔
      (2 ^ 54 - 1) * (2 ^ 2045 * 2 ^ sh) ≤ 2 * n := by
  have hsh : sh ≤ dropped n sh := le_max_left _ _
  have hm : roundShift n (dropped n sh) ≤ 2 ^ 53 := roundShift_le (lt_dropped sh)
  obtain ⟨d, hd⟩ : ∃ d, dropped n sh = d + sh := ⟨dropped n sh - sh, by omega⟩
  have hlow : 0 < d → 2 ^ 52 * 2 ^ (d + sh) ≤ n := fun h => by
    have := le_of_dropped hn (sh := sh) (by omega)
    rwa [hd, Nat.pow_add] at this
  have hhigh : n < 2 ^ 53 * 2 ^ (d + sh) := by
    have := lt_dropped (n := n) sh
    rwa [hd, Nat.pow_add] at this
  have hm' : 0 < d → 2 ^ 52 ≤ roundShift n (d + sh) := fun h => by
    refine le_trans ?_ (div_le_roundShift n (d + sh))
    rw [Nat.le_div_iff_mul_le (Nat.two_pow_pos _)]
    exact hlow h
  rw [hd] at hm
  rw [hd, Nat.add_sub_cancel]
  have hdm := Nat.div_add_mod' n (2 ^ (d + sh))
  have hmod : n % 2 ^ (d + sh) < 2 ^ (d + sh) := Nat.mod_lt _ (Nat.two_pow_pos _)
  rcases Nat.lt_trichotomy d 2045 with h | h | h
  · constructor
    · intro h'; omega
    · intro h'
      exfalso
      have : 2 ^ (d + sh) * 2 ≤ 2 ^ 2045 * 2 ^ sh := by
        rw [← Nat.pow_succ, ← Nat.pow_add]
        exact Nat.pow_le_pow_right (by omega) (by omega)
      generalize 2 ^ 2045 * 2 ^ sh = P at this h'
      generalize 2 ^ (d + sh) = Q at this hhigh
      omega
  · subst h
    rw [← Nat.pow_add]
    unfold roundShift at *
    generalize 2 ^ (2045 + sh) = P at *
    generalize n / P = q at *
    generalize n % P = r at *
    simp only at *
    have hq : q < 2 ^ 53 := by
      by_contra hge
      have : 2 ^ 53 * P ≤ q * P := Nat.mul_le_mul_right _ (by omega)
      omega
    constructor
    · intro h'
      split at h'
      · rename_i hup
        have hq' : q = 2 ^ 53 - 1 := by omega
        subst hq'
        omega
      · omega
    · intro h'
      have hq' : q = 2 ^ 53 - 1 := by
        by_contra hne
        have : q * P ≤ (2 ^ 53 - 2) * P := Nat.mul_le_mul_right _ (by omega)
        omega
      subst hq'
      rw [if_pos (by omega)]
      omega
  · constructor
    · intro _
      have h2 : 2 ^ 2045 * 2 ^ sh * 2 ≤ 2 ^ (d + sh) := by
        rw [← Nat.pow_add, ← Nat.pow_succ]
        exact Nat.pow_le_pow_right (by omega) (by omega)
      have := hlow (by omega)
      generalize 2 ^ 2045 * 2 ^ sh = P at *
      generalize 2 ^ (d + sh) = Q at *
      omega
    · intro _
      have := hm' (by omega)
      omega

/-- **The packing rounds once.** `pack neg n sh`, for `n` not 0, is `n * 2^-(1074+sh)` with its sign, rounded to
nearest, ties to even, with overflow to infinity (R17). -/
theorem pack_roundsTo {n : Nat} (hn : 0 < n) (neg : Bool) (sh : Nat) :
    roundsTo ((if neg then -(n : ℝ) else n) / 2 ^ (1074 + sh)) (pack neg n sh) := by
  have hsh : sh ≤ dropped n sh := le_max_left _ _
  have hm : roundShift n (dropped n sh) ≤ 2 ^ 53 := roundShift_le (lt_dropped sh)
  have hm' : 0 < dropped n sh - sh → 2 ^ 52 ≤ roundShift n (dropped n sh) := fun h => by
    refine le_trans ?_ (div_le_roundShift n _)
    rw [Nat.le_div_iff_mul_le (Nat.two_pow_pos _), ← Nat.pow_add]
    exact le_of_dropped hn (by omega)
  have hnR : (0 : ℝ) < n := by exact_mod_cast hn
  have hD : (0 : ℝ) < 2 ^ (1074 + sh) := by positivity
  have habs : |(if neg then -(n : ℝ) else n) / 2 ^ (1074 + sh)| = n / 2 ^ (1074 + sh) := by
    rw [abs_div, abs_of_pos hD]
    cases neg <;> simp
  have hthr : (2 ^ 1024 - 2 ^ 970 : ℝ) ≤ n / 2 ^ (1074 + sh) ↔
      2047 * 2 ^ 52 ≤ (dropped n sh - sh) * 2 ^ 52 + roundShift n (dropped n sh) := by
    rw [pack_overflow_iff hn, le_div_iff₀ hD]
    have e : (2 ^ 1024 - 2 ^ 970 : ℝ) * 2 ^ (1074 + sh) = (2 ^ 54 - 1) * (2 ^ 2045 * 2 ^ sh) / 2 := by
      rw [pow_add]
      have h1 : (2 : ℝ) ^ 1024 = 2 ^ 970 * 2 ^ 54 := (pow_add 2 970 54)
      have h2 : (2 : ℝ) ^ 2045 = 2 ^ 970 * 2 ^ 1074 * 2 := (pow_succ 2 2044).trans (congrArg (· * 2) (pow_add 2 970 1074))
      rw [h1, h2]
      generalize (2 : ℝ) ^ 970 = x
      generalize (2 : ℝ) ^ 1074 = y
      ring
    rw [e, div_le_iff₀ (by norm_num)]
    constructor
    · intro h
      have : ((2 ^ 54 - 1 : ℕ) : ℝ) * ((2 ^ 2045 * 2 ^ sh : ℕ) : ℝ) ≤ ((2 * n : ℕ) : ℝ) := by
        push_cast
        linarith
      exact_mod_cast this
    · intro h
      have : ((2 ^ 54 - 1 : ℕ) : ℝ) * ((2 ^ 2045 * 2 ^ sh : ℕ) : ℝ) ≤ ((2 * n : ℕ) : ℝ) := by exact_mod_cast h
      push_cast at this
      linarith
  refine ⟨fun hlt => ?_, fun hge => ?_, ?_⟩
  · rw [habs, ← not_le, hthr, not_le] at hlt
    have hx : pack neg n sh = (BitVec.ofBool neg ++
        BitVec.ofNat 63 ((dropped n sh - sh) * 2 ^ 52 + roundShift n (dropped n sh)) : F64) := by
      rw [pack, packMag_eq, min_eq_left (le_of_lt hlt)]
    obtain ⟨hfin, hmag, hpar⟩ := pack_fields hm hm' hlt hx
    have hsgn : fSign (pack neg n sh) = neg := by rw [hx, fSign_signed]
    have hX : (fUnits (pack neg n sh) : ℤ) * 2 ^ sh =
        (if neg then -1 else 1) * ((roundShift n (dropped n sh) : ℤ) * 2 ^ dropped n sh) := by
      have hk : (2 : ℤ) ^ dropped n sh = 2 ^ (dropped n sh - sh) * 2 ^ sh := by
        rw [← pow_add]; congr 1; omega
      rw [fUnits, hsgn, hmag, hk]
      push_cast
      cases neg <;> simp <;> ring
    have hval : ∀ z : F64, fValue z - (if neg then -(n : ℝ) else n) / 2 ^ (1074 + sh) =
        ((fUnits z * 2 ^ sh - (if neg then -1 else 1) * n : ℤ) : ℝ) / 2 ^ (1074 + sh) := fun z => by
      rw [fValue, pow_add]
      push_cast
      have h1 : (2 : ℝ) ^ 1074 ≠ 0 := by positivity
      have h2 : (2 : ℝ) ^ sh ≠ 0 := by positivity
      field_simp
      cases neg <;> simp
    refine ⟨hfin, fun y _ => ?_⟩
    rw [hval, hval, abs_div, abs_div, abs_of_pos hD, div_le_div_iff_of_pos_right hD, div_left_inj' hD.ne', hX]
    cases neg
    · obtain ⟨k1, k2⟩ := packed_nearest (sh := sh) hn y
      simp only [Bool.false_eq_true, if_false, one_mul]
      refine ⟨by exact_mod_cast k1, fun he => ?_⟩
      rcases k2 (by exact_mod_cast he) with h | h
      · left
        have hX' : fUnits (pack false n sh) * 2 ^ sh = fUnits y * 2 ^ sh := by rw [hX, h]; simp
        have := mul_right_cancel₀ (pow_ne_zero sh (two_ne_zero (α := ℤ))) hX'
        rw [fValue, fValue, this]
      · right; rw [hpar]; exact h
    · obtain ⟨k1, k2⟩ := packed_nearest (sh := sh) hn (fneg y)
      rw [fUnits_fneg] at k1 k2
      simp only [if_true, neg_mul, one_mul, sub_neg_eq_add] at *
      have e1 : ∀ z : ℤ, |(-z : ℤ) + n| = |z - n| := fun z => by
        rw [← abs_neg]; congr 1; ring
      have e2 : ∀ z : ℤ, |z + n| = |-z - n| := fun z => by
        rw [← abs_neg]; congr 1; ring
      rw [← Int.cast_abs, ← Int.cast_abs, e1, e2]
      refine ⟨by exact_mod_cast k1, fun he => ?_⟩
      rcases k2 (by exact_mod_cast he) with h | h
      · left
        have hX' : fUnits (pack true n sh) * 2 ^ sh = fUnits y * 2 ^ sh := by rw [hX, ← h]; ring
        have := mul_right_cancel₀ (pow_ne_zero sh (two_ne_zero (α := ℤ))) hX'
        rw [fValue, fValue, this]
      · right; rw [hpar]; exact h
  · rw [habs, hthr] at hge
    have hx : pack neg n sh = fInf neg := by rw [pack, packMag_eq, min_eq_right hge, fInf]
    rw [hx, fIsInf, fInf, fExp_signed, fFrac_signed]
    decide
  · have : fSign (pack neg n sh) = neg := fSign_signed _ _
    rw [this]
    cases neg
    · simp only [Bool.false_eq_true, if_false, false_iff, not_lt]
      positivity
    · simp only [if_true, true_iff]
      exact div_neg_of_neg_of_pos (by linarith) hD

/-! ## Exact results -/

/-- Packing does not depend on the scale. -/
theorem pack_scale (neg : Bool) (n sh : Nat) : pack neg (n * 2 ^ sh) sh = pack neg n 0 := by
  rcases Nat.eq_zero_or_pos n with rfl | hn
  · rw [Nat.zero_mul, pack_zero, pack_zero]
  · have hlog : Nat.log2 (n * 2 ^ sh) = Nat.log2 n + sh := by
      rw [Nat.log2_eq_iff (by positivity), Nat.pow_add, Nat.pow_succ, Nat.pow_add]
      have h1 := Nat.log2_self_le hn.ne'
      have h2 : n < 2 ^ Nat.log2 n * 2 := by rw [← Nat.pow_succ]; exact Nat.lt_log2_self
      have hp := Nat.two_pow_pos sh
      refine ⟨Nat.mul_le_mul_right _ h1, ?_⟩
      calc n * 2 ^ sh < 2 ^ Nat.log2 n * 2 * 2 ^ sh := (Nat.mul_lt_mul_right hp).2 h2
        _ = 2 ^ Nat.log2 n * 2 ^ sh * 2 := by ring
    have hd : dropped (n * 2 ^ sh) sh = dropped n 0 + sh := by
      unfold dropped
      rw [hlog]
      omega
    have hr : roundShift (n * 2 ^ sh) (dropped n 0 + sh) = roundShift n (dropped n 0) := by
      have hp := Nat.two_pow_pos sh
      unfold roundShift
      rw [Nat.pow_add, Nat.mul_div_mul_right _ _ hp, Nat.mul_mod_mul_right]
      generalize n % 2 ^ dropped n 0 = r
      generalize 2 ^ dropped n 0 = P
      have e1 : P * 2 ^ sh < 2 * (r * 2 ^ sh) ↔ P < 2 * r := by
        rw [← Nat.mul_assoc, Nat.mul_lt_mul_right hp]
      have e2 : 2 * (r * 2 ^ sh) = P * 2 ^ sh ↔ 2 * r = P := by
        rw [← Nat.mul_assoc, Nat.mul_left_inj hp.ne']
      simp only [e1, e2]
    rw [pack, pack, packMag_eq, packMag_eq, hd, hr, Nat.add_sub_cancel, Nat.sub_zero]

/-- A magnitude packs to itself: nothing is flushed to zero, and no bit is lost (R18). -/
theorem pack_fMag {x : F64} (hx : fIsFinite x = true) : pack (fSign x) (fMag x) 0 = x := by
  have hf := fFrac_lt x
  have he : fExp x < 2047 := by
    have := fExp_lt x
    simp only [fIsFinite, bne_iff_ne, ne_eq] at hx
    omega
  have key : packMag (fMag x) 0 = fExp x * 2 ^ 52 + fFrac x := by
    rw [packMag_eq, Nat.sub_zero]
    unfold fMag
    split
    · rename_i h0
      have hd : dropped (fFrac x) 0 = 0 := by
        have : Nat.log2 (fFrac x) ≤ 52 := by
          rcases Nat.eq_zero_or_pos (fFrac x) with h | h
          · rw [h]; decide
          · have h' : 2 ^ Nat.log2 (fFrac x) < 2 ^ 52 := lt_of_le_of_lt (Nat.log2_self_le h.ne') hf
            exact le_of_lt ((Nat.pow_lt_pow_iff_right (by omega)).1 h')
        unfold dropped
        omega
      rw [hd, h0, roundShift, Nat.pow_zero, Nat.div_one, Nat.mod_one, if_neg (by omega)]
      omega
    · rename_i h0
      have hp := Nat.two_pow_pos (fExp x - 1)
      have hlog : Nat.log2 ((2 ^ 52 + fFrac x) * 2 ^ (fExp x - 1)) = 52 + (fExp x - 1) := by
        have hs : 2 ^ (52 + (fExp x - 1) + 1) = 2 ^ 53 * 2 ^ (fExp x - 1) := by
          rw [← Nat.pow_add]; congr 1; omega
        rw [Nat.log2_eq_iff (by positivity), hs, Nat.pow_add]
        exact ⟨Nat.mul_le_mul_right _ (by omega), (Nat.mul_lt_mul_right hp).2 (by omega)⟩
      have hd : dropped ((2 ^ 52 + fFrac x) * 2 ^ (fExp x - 1)) 0 = fExp x - 1 := by
        unfold dropped
        rw [hlog]
        omega
      have hr : roundShift ((2 ^ 52 + fFrac x) * 2 ^ (fExp x - 1)) (fExp x - 1) = 2 ^ 52 + fFrac x := by
        unfold roundShift
        rw [Nat.mul_div_cancel _ hp, Nat.mul_mod_left, if_neg (by omega)]
      rw [hd, hr]
      omega
  have hm : (BitVec.ofNat 63 (fExp x * 2 ^ 52 + fFrac x)).toNat = fExp x * 2 ^ 52 + fFrac x := by
    rw [BitVec.toNat_ofNat, Nat.mod_eq_of_lt (by omega)]
  refine eq_of_fields (fSign_pack _ _ _) ?_ ?_
  · rw [pack, key, fExp_signed, hm]; omega
  · rw [pack, key, fFrac_signed, hm]; omega

/-- A result that is not 0, at the scale of the least subnormal, does not pack to a zero (R18). -/
theorem fIsZero_pack {n : Nat} (hn : 0 < n) (neg : Bool) : fIsZero (pack neg n 0) = false := by
  have hpos : 0 < packMag n 0 := by
    rw [packMag_eq, Nat.sub_zero]
    have hq := div_le_roundShift n (dropped n 0)
    rcases Nat.eq_zero_or_pos (dropped n 0) with h | h
    · rw [h, Nat.pow_zero, Nat.div_one] at hq
      rw [h]
      omega
    · omega
  have hle := packMag_le n 0
  have hm : (BitVec.ofNat 63 (packMag n 0)).toNat = packMag n 0 := by
    rw [BitVec.toNat_ofNat, Nat.mod_eq_of_lt (by omega)]
  rw [fIsZero, pack, fExp_signed, fFrac_signed, hm]
  simp
  omega

/-! ## Values -/

theorem fValue_add (a b : F64) : fValue a + fValue b = ((fUnits a + fUnits b : ℤ) : ℝ) / 2 ^ 1074 := by
  rw [fValue, fValue]
  push_cast
  ring

theorem fValue_sub (a b : F64) : fValue a - fValue b = ((fUnits a + fUnits (fneg b) : ℤ) : ℝ) / 2 ^ 1074 := by
  rw [fValue, fValue, fUnits_fneg]
  push_cast
  ring

theorem div_scale_eq_zero_iff (z : ℤ) : (z : ℝ) / 2 ^ 1074 = 0 ↔ z = 0 := by
  rw [div_eq_zero_iff, Int.cast_eq_zero, or_iff_left (pow_ne_zero _ two_ne_zero)]

theorem fValue_eq_zero_iff (a : F64) : fValue a = 0 ↔ fIsZero a = true := by
  rw [fValue, div_scale_eq_zero_iff, fUnits_eq_zero_iff, fIsZero_iff]

end Sys2Proof.Machine
end

