-- ==== Sys2Proof/Laws/Stage.lean ====
section
/-! SUPPORT. What a block and a stage leave, entry by entry, but for the bits of a NaN; what the direct transform leaves,
output by output; and that no hidden value reaches a result. -/

namespace Sys2Proof.Machine

/-- The sum of a butterfly, from its two entries and the rotation factor; draws taken at 0. -/
def bflySum (u b w : C64) : C64 := (cadd u (cmul w b 0).1 0).1

/-- The difference of a butterfly. -/
def bflyDiff (u b w : C64) : C64 := (csub u (cmul w b 0).1 0).1

/-- What the first `r` butterflies of the block at `k` leave: their pairs replaced, every other entry as it was, and the
next rotation factor. -/
structure BlockDone (k h r : Nat) (wm : C64) (wk v : Work) : Prop where
  wm_eq : v.seq.wm = wm
  w_eq : sameOrNaN2 v.seq.w (rotation wm r)
  length_eq : v.a.length = wk.a.length
  other : ∀ i, (∀ j < r, i ≠ k + j ∧ i ≠ k + j + h) → v.a[i]? = wk.a[i]?
  pair : ∀ j < r, ∀ u b, wk.a[k + j]? = some u → wk.a[k + j + h]? = some b →
    ∃ c d, v.a[k + j]? = some c ∧ v.a[k + j + h]? = some d ∧
      sameOrNaN2 c (bflySum u b (rotation wm j)) ∧ sameOrNaN2 d (bflyDiff u b (rotation wm j))

theorem blockDone_range {k h r : Nat} {wk : Work} (hw : wk.seq.w = cOne) (hr : r ≤ h) (hl : k + 2 * h ≤ wk.a.length) :
    BlockDone k h r wk.seq.wm wk ((List.range r).foldl (butterflyStep k h) wk) := by
  induction r with
  | zero =>
    exact ⟨rfl, by rw [List.range_zero, List.foldl_nil, hw]; exact sameOrNaN2_refl _, rfl, fun _ _ => rfl,
      fun j hj => absurd hj (Nat.not_lt_zero j)⟩
  | succ r ih =>
    obtain ⟨h1, h2, h3, h4, h5⟩ := ih (by omega)
    rw [List.range_succ, List.foldl_append, List.foldl_cons, List.foldl_nil]
    generalize (List.range r).foldl (butterflyStep k h) wk = v at *
    have e1 : v.a[k + r]? = wk.a[k + r]? := h4 _ (fun j hj => by omega)
    have e2 : v.a[k + r + h]? = wk.a[k + r + h]? := h4 _ (fun j hj => by omega)
    obtain ⟨u, hu⟩ : ∃ u, wk.a[k + r]? = some u := ⟨_, List.getElem?_eq_getElem (by omega)⟩
    obtain ⟨b, hb⟩ : ∃ b, wk.a[k + r + h]? = some b := ⟨_, List.getElem?_eq_getElem (by omega)⟩
    have ht : sameOrNaN2 (cmul v.seq.w b v.nan).1 (cmul (rotation wk.seq.wm r) b 0).1 :=
      cmul_congr h2 (sameOrNaN2_refl b) _ _
    have step : butterflyStep k h v r =
        { a := (v.a.set (k + r) (bfly u b v.seq.w v.nan).1.1).set (k + r + h) (bfly u b v.seq.w v.nan).1.2
          seq := { v.seq with
            j := r, u := u, t := (cmul v.seq.w b v.nan).1
            w := (cmul v.seq.w v.seq.wm (bfly u b v.seq.w v.nan).2).1 }
          nan := (cmul v.seq.w v.seq.wm (bfly u b v.seq.w v.nan).2).2 } := by
      unfold butterflyStep
      rw [e1, e2, hu, hb]
    rw [step]
    refine ⟨h1, ?_, by simp [h3], ?_, ?_⟩
    · rw [h1]
      exact cmul_congr h2 (sameOrNaN2_refl _) _ _
    · intro i hi
      have := hi r (by omega)
      show ((v.a.set _ _).set _ _)[i]? = _
      rw [List.getElem?_set_ne (by omega), List.getElem?_set_ne (by omega)]
      exact h4 i (fun j hj => hi j (by omega))
    · intro j hj u' b' hu' hb'
      by_cases hjr : j = r
      · subst hjr
        rw [hu] at hu'
        rw [hb] at hb'
        cases hu'
        cases hb'
        refine ⟨(bfly u b v.seq.w v.nan).1.1, (bfly u b v.seq.w v.nan).1.2, ?_, ?_, ?_, ?_⟩
        · show ((v.a.set _ _).set _ _)[_]? = _
          rw [List.getElem?_set_ne (by omega), List.getElem?_set_self (by omega)]
        · show ((v.a.set _ _).set _ _)[_]? = _
          rw [List.getElem?_set_self (by simp; omega)]
        · exact cadd_congr (sameOrNaN2_refl _) ht _ _
        · exact csub_congr (sameOrNaN2_refl _) ht _ _
      · obtain ⟨c, d, hc, hd, rest⟩ := h5 j (by omega) u' b' hu' hb'
        refine ⟨c, d, ?_, ?_, rest⟩
        · show ((v.a.set _ _).set _ _)[_]? = _
          rw [List.getElem?_set_ne (by omega), List.getElem?_set_ne (by omega), hc]
        · show ((v.a.set _ _).set _ _)[_]? = _
          rw [List.getElem?_set_ne (by omega), List.getElem?_set_ne (by omega), hd]

/-- The block at `k`, whole, from any hidden values with the principal twiddle `wm` (R102). -/
theorem blockStep_done {m k : Nat} {wk : Work} (hl : k + 2 * (m / 2) ≤ wk.a.length) :
    BlockDone k (m / 2) (m / 2) wk.seq.wm wk (blockStep m wk k) := by
  have h := blockDone_range (k := k) (h := m / 2) (r := m / 2)
    (wk := { wk with seq := { wk.seq with k := k, w := cOne } }) rfl (le_refl _) hl
  exact ⟨h.wm_eq, h.w_eq, h.length_eq, h.other, h.pair⟩

/-- A stage, whole: each pair of each block is replaced by its butterfly from the entries as they were (R102, R107). -/
theorem stage_entries {tw : Word → Word → C64} {nb m : Nat} {wk : Work} (hm : 0 < m) (heven : m % 2 = 0)
    (hl : nb * m ≤ wk.a.length) {blk j : Nat} {u b : C64} (hb : blk < nb) (hj : j < m / 2)
    (hu : wk.a[blk * m + j]? = some u) (hv : wk.a[blk * m + j + m / 2]? = some b) :
    ∃ c d, (stage tw (nb * m) m wk).a[blk * m + j]? = some c ∧
      (stage tw (nb * m) m wk).a[blk * m + j + m / 2]? = some d ∧
      sameOrNaN2 c (bflySum u b (rotation (tw 1#64 (BitVec.ofNat 64 m)) j)) ∧
      sameOrNaN2 d (bflyDiff u b (rotation (tw 1#64 (BitVec.ofNat 64 m)) j)) := by
  have key : ∀ r, r ≤ nb → ∀ wk : Work, nb * m ≤ wk.a.length →
      let v := ((List.range r).map (· * m)).foldl (blockStep m) wk
      v.a.length = wk.a.length ∧ v.seq.wm = wk.seq.wm ∧ (∀ i, r * m ≤ i → v.a[i]? = wk.a[i]?) ∧
      ∀ blk < r, ∀ j < m / 2, ∀ u b, wk.a[blk * m + j]? = some u → wk.a[blk * m + j + m / 2]? = some b →
        ∃ c d, v.a[blk * m + j]? = some c ∧ v.a[blk * m + j + m / 2]? = some d ∧
          sameOrNaN2 c (bflySum u b (rotation wk.seq.wm j)) ∧ sameOrNaN2 d (bflyDiff u b (rotation wk.seq.wm j)) := by
    intro r
    induction r with
    | zero => intro _ wk _; exact ⟨rfl, rfl, fun _ _ => rfl, fun blk hb => absurd hb (Nat.not_lt_zero blk)⟩
    | succ r ih =>
      intro hr wk hl
      obtain ⟨g1, g2, g3, g4⟩ := ih (by omega) wk hl
      simp only [List.range_succ, List.map_append, List.foldl_append, List.map_cons, List.map_nil, List.foldl_cons,
        List.foldl_nil]
      generalize ((List.range r).map (· * m)).foldl (blockStep m) wk = v at *
      have hrm : (r + 1) * m = r * m + m := Nat.succ_mul r m
      have hle : (r + 1) * m ≤ nb * m := Nat.mul_le_mul_right m hr
      have done := blockStep_done (m := m) (k := r * m) (wk := v) (by omega)
      refine ⟨done.length_eq.trans g1, done.wm_eq.trans g2, fun i hi => ?_, ?_⟩
      · rw [done.other i (fun j hj => by omega)]
        exact g3 i (by omega)
      · intro blk hb j hj u b hu hv
        by_cases hbr : blk = r
        · subst hbr
          rw [← g2]
          exact done.pair j hj u b ((g3 _ (by omega)).trans hu) ((g3 _ (by omega)).trans hv)
        · have hlt : (blk + 1) * m ≤ r * m := Nat.mul_le_mul_right m (by omega)
          have hbm : (blk + 1) * m = blk * m + m := Nat.succ_mul blk m
          obtain ⟨c, d, hc, hd, rest⟩ := g4 blk (by omega) j hj u b hu hv
          refine ⟨c, d, ?_, ?_, rest⟩
          · rw [done.other _ (fun j' hj' => by omega), hc]
          · rw [done.other _ (fun j' hj' => by omega), hd]
  have hn : nb * m / m = nb := Nat.mul_div_cancel nb hm
  unfold stage blockStarts
  rw [hn]
  exact (key nb (le_refl nb) { wk with seq := { wk.seq with m := m, wm := tw 1#64 (BitVec.ofNat 64 m) } } hl).2.2.2
    blk hb j hj u b hu hv

/-! ## The direct transform -/

/-- An output of the direct transform, but for the bits of a NaN (R101). -/
theorem dftEntry_partial (x : List C64) (n k nan t : Nat) (ht : t ≤ x.length) :
    sameOrNaN2 ((List.range t).foldl (dftTerm Config.tw x n k) (cZero, nan)).1
      (dftPartial (fun i => x.getD i ⟨0#64, 0#64⟩) n k t) := by
  induction t with
  | zero => exact sameOrNaN2_refl _
  | succ t ih =>
    have hx : x[t]? = some (x.getD t ⟨0#64, 0#64⟩) := by
      rw [List.getD_eq_getElem?_getD, List.getElem?_eq_getElem (by omega)]
      rfl
    rw [List.range_succ, List.foldl_append, List.foldl_cons, List.foldl_nil, dftTerm, hx]
    exact cadd_congr (ih (by omega)) (cmul_congr (sameOrNaN2_refl _) (sameOrNaN2_refl _) _ _) _ _

/-- The k-th entry that the direct transform leaves is its k-th output, under some draws. -/
theorem dft_entries (x : List C64) (n : Nat) (wk : Work) (hw : wk.a = []) {k : Nat} (hk : k < n) :
    ∃ nan, (dft Config.tw x n wk).a[k]? = some (dftEntry Config.tw x n k nan).1 := by
  have key : ∀ r, r ≤ n → ((List.range r).foldl (dftStep Config.tw x n) wk).a.length = r ∧
      ∀ k < r, ∃ nan, ((List.range r).foldl (dftStep Config.tw x n) wk).a[k]? =
        some (dftEntry Config.tw x n k nan).1 := by
    intro r
    induction r with
    | zero => intro _; exact ⟨by rw [List.range_zero, List.foldl_nil, hw]; rfl, fun k hk => absurd hk (Nat.not_lt_zero k)⟩
    | succ r ih =>
      intro hr
      obtain ⟨hl, hk⟩ := ih (by omega)
      rw [List.range_succ, List.foldl_append, List.foldl_cons, List.foldl_nil]
      generalize (List.range r).foldl (dftStep Config.tw x n) wk = v at *
      refine ⟨by rw [dftStep_length, hl], fun k hk' => ?_⟩
      by_cases h : k = r
      · subst h
        exact ⟨v.nan, by rw [dftStep]; simp [← hl]⟩
      · obtain ⟨nan, e⟩ := hk k (by omega)
        exact ⟨nan, by rw [dftStep]; simp only; rw [List.getElem?_append_left (by omega), e]⟩
  exact (key n (le_refl n)).2 k hk

/-! ## Hidden values (R44) -/

/-- Two folds keep a relation that each of their steps keeps. -/
theorem foldl_rel {α β : Type} (R : β → β → Prop) (f : β → α → β) (h : ∀ b b' a, R b b' → R (f b a) (f b' a))
    (l : List α) (b b' : β) (hb : R b b') : R (l.foldl f b) (l.foldl f b') := by
  induction l generalizing b b' with
  | nil => exact hb
  | cons a l ih => exact ih _ _ (h b b' a hb)

/-- The array and the draws of two works agree. -/
def sameWork (v v' : Work) : Prop := v.a = v'.a ∧ v.nan = v'.nan

theorem blockStep_hidden {m k : Nat} {v v' : Work} (h : sameWork v v') (hm : v.seq.wm = v'.seq.wm) :
    sameWork (blockStep m v k) (blockStep m v' k) ∧ (blockStep m v k).seq.wm = (blockStep m v' k).seq.wm := by
  have := foldl_rel (fun (x y : Work) => sameWork x y ∧ x.seq.wm = y.seq.wm ∧ x.seq.w = y.seq.w)
    (butterflyStep k (m / 2)) (by
      rintro x y j ⟨⟨h1, h2⟩, h3, h4⟩
      unfold butterflyStep
      rw [h1]
      split
      · simp [sameWork, h2, h3, h4]
      · exact ⟨⟨h1, h2⟩, h3, h4⟩)
    (List.range (m / 2)) { v with seq := { v.seq with k := k, w := cOne } }
    { v' with seq := { v'.seq with k := k, w := cOne } } ⟨h, hm, rfl⟩
  exact ⟨this.1, this.2.1⟩

/-- A stage's array and draws do not depend on the hidden values it starts with. -/
theorem stage_hidden (tw : Word → Word → C64) (n m : Nat) {v v' : Work} (h : sameWork v v') :
    sameWork (stage tw n m v) (stage tw n m v') :=
  (foldl_rel (fun (x y : Work) => sameWork x y ∧ x.seq.wm = y.seq.wm) (blockStep m)
    (fun _ _ _ hxy => blockStep_hidden hxy.1 hxy.2) (blockStarts n m)
    { v with seq := { v.seq with m := m, wm := tw 1#64 (BitVec.ofNat 64 m) } }
    { v' with seq := { v'.seq with m := m, wm := tw 1#64 (BitVec.ofNat 64 m) } } ⟨h, rfl⟩).1

theorem runStages_hidden (tw : Word → Word → C64) (n : Nat) {v v' : Work} (h : sameWork v v') :
    sameWork (runStages tw n v) (runStages tw n v') :=
  foldl_rel sameWork _ (fun _ _ m hxy => stage_hidden tw n m hxy) _ _ _ h

theorem dft_hidden (tw : Word → Word → C64) (x : List C64) (n : Nat) {v v' : Work} (h : sameWork v v') :
    sameWork (dft tw x n v) (dft tw x n v') :=
  foldl_rel sameWork _ (fun _ _ k hxy => by
    obtain ⟨h1, h2⟩ := hxy
    unfold dftStep
    rw [h1, h2]
    exact ⟨rfl, rfl⟩) _ _ _ h

/-! ## The stage sizes (R104) -/

/-- The trailing-zero count of 2^p is p (R21). -/
theorem log2Pow2_two_pow {p : Nat} (hp : p < 64) : log2Pow2 (2 ^ p) = p := by
  have key : ∀ fuel p, p < fuel → trailingZeros fuel (2 ^ p) = p := by
    intro fuel
    induction fuel with
    | zero => intro p h; exact absurd h (Nat.not_lt_zero p)
    | succ fuel ih =>
      intro p h
      cases p with
      | zero => rfl
      | succ p =>
        rw [trailingZeros, if_neg (by rw [Nat.pow_succ]; omega), Nat.pow_succ, Nat.mul_div_cancel _ (by omega),
          ih p (by omega)]
        omega
  exact key 64 p hp

theorem stageSizes_two_pow {p : Nat} (hp : p < 64) :
    stageSizes (2 ^ p) = (List.range p).map (fun q => 2 ^ (q + 1)) := by
  rw [stageSizes, log2Pow2_two_pow hp]

/-- rev(i, p) has no bit from p up. -/
theorem rev_lt (i p : Nat) : rev i p < 2 ^ p := by
  induction p generalizing i with
  | zero => exact Nat.one_pos
  | succ p ih =>
    have := ih (i / 2)
    have h2 : i % 2 * 2 ^ p ≤ 1 * 2 ^ p := Nat.mul_le_mul_right _ (by omega)
    rw [rev, Nat.pow_succ]
    omega

end Sys2Proof.Machine
end

