-- ==== Sys2Proof/Machine/HostScript.lean ====
section
/-! DEFINITION. Host script, the notation in which a host's transactions are written down (R78, R79, R80). Its
operations on the host's own variables, labels and control flow belong to the host and do nothing to FFTCORE. -/

namespace Sys2Proof.Machine

/-- A LOC of host script (R78). -/
inductive Loc where
  | reg (r : RegName)
  | xRe (i : Nat) | xIm (i : Nat) | yRe (i : Nat) | yIm (i : Nat)
  | literal (addr : BitVec 32)
  deriving DecidableEq, Repr

/-- A VAL: a literal or a host variable. -/
inductive Val where
  | literal (v : Word)
  | var (name : String)
  deriving DecidableEq, Repr

/-- A COND of host script: an equality or an order between values, or a bit of a variable against 0 or 1 (R78). -/
inductive Cond where
  | eq (x y : Val)
  | less (x y : Val)
  | bit (x : String) (i : Nat) (v : Bool)
  deriving DecidableEq, Repr

/-- An operation of host script (R78). -/
inductive ScriptOp where
  | wr (l : Loc) (v : Val)
  | rd (l : Loc) (x : String)
  | cmd (i : Instr)
  | ifGoto (c : Cond) (label : String)
  | halt
  deriving DecidableEq, Repr

/-- A line of host script: an optional label and one operation (R78). -/
structure ScriptLine where
  label : Option String
  op : ScriptOp
  deriving DecidableEq, Repr

/-- addr(LOC), the address that R55 gives (R78). -/
def Loc.addr : Loc → BitVec 32
  | .reg r => BitVec.ofNat 32 r.offset
  | .xRe i => BitVec.ofNat 32 (xAddr i)
  | .xIm i => BitVec.ofNat 32 (xAddr i + 8)
  | .yRe i => BitVec.ofNat 32 (yAddr i)
  | .yIm i => BitVec.ofNat 32 (yAddr i + 8)
  | .literal addr => addr

/-- `MemWrite(addr, 8, v)` as a transaction. -/
def writeAt (l : Loc) (v : Word) : Transaction := ⟨.write, l.addr, .eight, v⟩

/-- `MemRead(addr, 8)` as a transaction. -/
def readAt (l : Loc) : Transaction := ⟨.read, l.addr, .eight, 0#64⟩

/-- `cmd MNEMONIC` as a transaction: the command's word written to CMD (R78). -/
def commandWrite (i : Instr) : Transaction := writeAt (.reg .cmd) (encode i)

/-- The transaction an operation performs, under the values of the host's variables; none for the host's own
operations and for a variable without a value. -/
def ScriptOp.transaction (vars : List (String × Word)) : ScriptOp → Option Transaction
  | .wr l (.literal v) => some (writeAt l v)
  | .wr l (.var x) => (vars.lookup x).map (writeAt l)
  | .rd l _ => some (readAt l)
  | .cmd i => some (commandWrite i)
  | .ifGoto _ _ => none
  | .halt => none

/-- `wrc X[i], (re, im)` and its like: the two words of a pair, the real part first (R79). -/
def wrcX (i : Nat) (c : C64) : List ScriptOp := [.wr (.xRe i) (.literal c.re), .wr (.xIm i) (.literal c.im)]
def wrcY (i : Nat) (c : C64) : List ScriptOp := [.wr (.yRe i) (.literal c.re), .wr (.yIm i) (.literal c.im)]
def wrcA (c : C64) : List ScriptOp := [.wr (.reg .aRe) (.literal c.re), .wr (.reg .aIm) (.literal c.im)]
def wrcB (c : C64) : List ScriptOp := [.wr (.reg .bRe) (.literal c.re), .wr (.reg .bIm) (.literal c.im)]
def wrcW (c : C64) : List ScriptOp := [.wr (.reg .wRe) (.literal c.re), .wr (.reg .wIm) (.literal c.im)]

/-- `rdc Y[i] -> v` and its like: both words of a pair, into the variables v.re and v.im (R79). -/
def rdcX (i : Nat) (v : String) : List ScriptOp := [.rd (.xRe i) (v ++ ".re"), .rd (.xIm i) (v ++ ".im")]
def rdcY (i : Nat) (v : String) : List ScriptOp := [.rd (.yRe i) (v ++ ".re"), .rd (.yIm i) (v ++ ".im")]
def rdcR0 (v : String) : List ScriptOp := [.rd (.reg .r0Re) (v ++ ".re"), .rd (.reg .r0Im) (v ++ ".im")]
def rdcR1 (v : String) : List ScriptOp := [.rd (.reg .r1Re) (v ++ ".re"), .rd (.reg .r1Im) (v ++ ".im")]

/-- `wait`, with a fresh label: poll STATUS until BUSY reads 0 (R79). -/
def waitLines (fresh : String) : List ScriptLine :=
  [⟨some fresh, .rd (.reg .status) "s"⟩, ⟨none, .ifGoto (.bit "s" 0 true) fresh⟩]

/-- `run MNEMONIC`: the command, then `wait` (R79). -/
def runLines (i : Instr) (fresh : String) : List ScriptLine := ⟨none, .cmd i⟩ :: waitLines fresh

/-- `clr`: clear DONE, ERR and HAZ (R79). -/
def clrOp : ScriptOp := .wr (.reg .status) (.literal 0xE#64)

/-- The literal `f:` of a decimal: the f64 nearest to `digits * 10^exp`, ties to even (R80). -/
def decimalLiteral (neg : Bool) (digits : Nat) (exp : Int) : F64 :=
  if 0 ≤ exp then packRatio neg (digits * 10 ^ exp.toNat) 1
  else packRatio neg digits (10 ^ (-exp).toNat)

/-- The literals `f:inf`, `f:-inf` and `f:nan` (R80). -/
def infLiteral : F64 := 0x7FF0000000000000#64
def negInfLiteral : F64 := 0xFFF0000000000000#64
def nanLiteral : F64 := 0x7FF8000000000000#64

end Sys2Proof.Machine
end

