-- ==== Sys2Proof/Machine/TwRef.lean ====
section
/-! DEFINITION. TW_REF, the reference twiddle configuration of R98. It is not normative and no step uses it: it states
the worked values of the spec, which Sys2Proof/Tests checks. cos and sin are evaluated in fixed point with 512
fraction bits and rounded once (log 21). -/

namespace Sys2Proof.Machine

/-- pi / 2 with 512 fraction bits. -/
def halfPiFixed : Int :=
  0x1921fb54442d18469898cc51701b839a252049c1114cf98e804177d4c76273644a29410f31c6809bbdf2a33679a748636605614dbe4be286e9fc26adadaa3848b

/-- The magnitude of a finite f64 in fixed point, 2^-512; its bits below that are cut off. -/
def toFixed (x : F64) : Int := (fMag x / 2 ^ 562 : Nat)

/-- The f64 nearest to a fixed-point value. -/
def ofFixed (v : Int) : F64 := pack (decide (v < 0)) (v.natAbs * 2 ^ 562) 0

/-- The alternating series `t - t*r2/((i+1)(i+2)) + ...` of cos (from t = 1, i = 0) and sin (from t = r, i = 1), in
fixed point; `r2` is the square of the argument. -/
def taylorFixed (r2 : Int) : Nat → Nat → Int → Int
  | 0, _, _ => 0
  | terms + 1, i, t =>
    t + taylorFixed r2 terms (i + 2) (-(t * r2 / 2 ^ 512) / ((i + 1) * (i + 2) : Nat))

/-- cos and sin of the magnitude of a finite f64, in fixed point: the argument is reduced by the nearest multiple of
pi / 2. -/
def cosSinFixed (x : F64) : Int × Int :=
  let v := toFixed x
  let q := (2 * v + halfPiFixed) / (2 * halfPiFixed)
  let r := v - q * halfPiFixed
  let r2 := r * r / 2 ^ 512
  let c := taylorFixed r2 60 0 (2 ^ 512)
  let s := taylorFixed r2 60 1 r
  if q % 4 = 0 then (c, s)
  else if q % 4 = 1 then (-s, c)
  else if q % 4 = 2 then (-c, -s)
  else (s, -c)

/-- cos_rn (R98). -/
def cosRn (x : F64) : F64 := ofFixed (cosSinFixed x).1

/-- sin_rn (R98); the sine of a zero is that zero. -/
def sinRn (x : F64) : F64 :=
  if fIsZero x then x
  else ofFixed (if fSign x then -(cosSinFixed x).2 else (cosSinFixed x).2)

/-- The angle `fdiv(fmul(-2 pi, u64_to_f64(k)), u64_to_f64(m))` (R98). -/
def twRefAngle (k m : Word) : Option F64 :=
  match mulCore 0xC01921FB54442D18#64 (u64ToF64 k) with
  | some p => divCore p (u64ToF64 m)
  | none => none

/-- TW_REF(k, m), for m > 0 (R98). -/
def twRef (k m : Word) : Option C64 :=
  (twRefAngle k m).map (fun x => ⟨cosRn x, sinRn x⟩)

end Sys2Proof.Machine
end

