-- ==== Sys2Proof/Tests/Slice0.lean ====
section
/-! SUPPORT. The model's own tests. Expected values come from the spec's worked examples (95_test_vectors.md, named L2.x
and P.x here) or are worked by hand from its rules; and one witness for the hypotheses of each statement. -/

namespace Sys2Proof.Machine.Test

set_option Elab.async false

/-! ## Command words (L2.7, R74), written out from the spec -/

theorem test_decode_nop : decodeTableWord 64 0x0 = some .nop := by decide
theorem test_decode_cadd : decodeTableWord 64 0x1 = some .cadd := by decide
theorem test_decode_csub : decodeTableWord 64 0x2 = some .csub := by decide
theorem test_decode_cmul : decodeTableWord 64 0x3 = some .cmul := by decide
theorem test_decode_cscale : decodeTableWord 64 0x4 = some .cscale := by decide
theorem test_decode_cconj : decodeTableWord 64 0x5 = some .cconj := by decide
theorem test_decode_cnorm : decodeTableWord 64 0x6 = some .cnorm := by decide
theorem test_decode_cbfly : decodeTableWord 64 0x7 = some .cbfly := by decide
theorem test_decode_ispow2 : decodeTableWord 64 0x8 = some .ispow2 := by decide
theorem test_decode_bitrev : decodeTableWord 64 0x9 = some .bitrev := by decide
theorem test_decode_twid : decodeTableWord 64 0xA = some .twid := by decide
theorem test_decode_dft : decodeTableWord 64 0xB = some .dft := by decide
theorem test_decode_stage : decodeTableWord 64 0xC = some .stage := by decide
theorem test_decode_fft : decodeTableWord 64 0xD = some .fft := by decide
theorem test_decode_undefined : decodeTableWord 64 0xE = none ∧ decodeTableWord 64 0xFF = none := by decide
theorem test_decode_reserved : decodeTableWord 64 0x101 = none ∧ decodeTableWord 64 0x8000000000000003 = none := by
  decide

/-! ## Well-formedness: one word that each check refuses (R71, R74) -/

theorem test_rsv_refused : rsvIsZero 0x0000000000000101#64 = false := by decide
theorem test_rsv_top_bit_refused : rsvIsZero 0x8000000000000003#64 = false := by decide
theorem test_opc_refused : opcInTable 0x000000000000000E#64 = false := by decide
theorem test_word_refused_by_each : validWord 0x0000000000000101#64 = false ∧ validWord 0x00000000000000FF#64 = false ∧
    validWord 0x000000000000000D#64 = true := by decide

/-! ## A small machine: P_MAX = 10, as the test vectors assume -/

def p10 : PMax := ⟨10, by decide, by decide⟩

/-- Reset, with P_MAX = 10. -/
def s10 : State := { State.reset with pMax := p10 }

/-- Some X written, from X[0]. -/
def withX (s : State) (x : List C64) : State := s.withMem (memPutSignal s.mem xBase x)

/-- Some Y written, from Y[0]. -/
def withY (s : State) (y : List C64) : State := s.withMem (memPutSignal s.mem yBase y)

/-- The step that completes a command word, where it gives a next state. -/
def runWord (w : Nat) (s : State) : Option State :=
  match step (s.withFetchWord 64 w) with
  | .next t => some t
  | .fault _ => none
  | .refused _ => none

/-- One transaction, where it gives a next state. -/
def onBus (t : Transaction) (s : State) : Option State :=
  match hostStep t s with
  | .next u => some u
  | .fault _ => none
  | .refused _ => none

def rd (addr : BitVec 32) : Transaction := ⟨.read, addr, .eight, 0#64⟩
def wr (addr : BitVec 32) (v : Word) : Transaction := ⟨.write, addr, .eight, v⟩

/-- STATUS and Y[i] after a command. -/
def statusAfter (w : Nat) (s : State) : Option Word := (runWord w s).map (fun t => statusWord t.status)
def yAfter (w : Nat) (s : State) (i : Nat) : Option C64 := (runWord w s).bind (fun t => memEntry t.mem (yAddr i))

/-- The operands of the CALU tests. -/
def ab (a b : C64) : State := (s10.withA a).withB b

/-! ## CALU (L2.1) -/

/-- Row 1. -/
theorem test_cadd : (runWord 0x1 (ab ⟨0x3FF8000000000000#64, 0xC000000000000000#64⟩
    ⟨0x3FD0000000000000#64, 0x4010000000000000#64⟩)).map (fun t => (t.r0, statusWord t.status)) =
    some (⟨0x3FFC000000000000#64, 0x4000000000000000#64⟩, 0x2#64) := by decide +kernel

/-- Row 3: overflow. -/
theorem test_cadd_overflow : (runWord 0x1 (ab ⟨0x7FEE42D130773B76#64, 0#64⟩
    ⟨0x7FEE42D130773B76#64, 0#64⟩)).map State.r0 = some ⟨0x7FF0000000000000#64, 0#64⟩ := by decide +kernel

/-- Row 5. -/
theorem test_csub : (runWord 0x2 (ab ⟨0x3FF0000000000000#64, 0x4000000000000000#64⟩
    ⟨0x4008000000000000#64, 0x4014000000000000#64⟩)).map State.r0 =
    some ⟨0xC000000000000000#64, 0xC008000000000000#64⟩ := by decide +kernel

/-- Row 6: the signs of zero. -/
theorem test_csub_zeros : (runWord 0x2 (ab ⟨0x8000000000000000#64, 0x8000000000000000#64⟩
    ⟨0x8000000000000000#64, 0#64⟩)).map State.r0 = some ⟨0#64, 0x8000000000000000#64⟩ := by decide +kernel

/-- Row 7. -/
theorem test_cmul : (runWord 0x3 (ab ⟨0x3FF0000000000000#64, 0x4000000000000000#64⟩
    ⟨0x4008000000000000#64, 0x4010000000000000#64⟩)).map State.r0 =
    some ⟨0xC014000000000000#64, 0x4024000000000000#64⟩ := by decide +kernel

/-- Row 8: (1, +0) is no exact identity. -/
theorem test_cmul_sign_of_zero : (runWord 0x3 (ab ⟨0x3FF0000000000000#64, 0#64⟩
    ⟨0x4008000000000000#64, 0x8000000000000000#64⟩)).map State.r0 = some ⟨0x4008000000000000#64, 0#64⟩ := by
  decide +kernel

/-- Row 18: rounding. -/
theorem test_cscale : (runWord 0x4 ((s10.withA ⟨0x3FB999999999999A#64, 0x3FC999999999999A#64⟩).withS
    0x4008000000000000#64)).map State.r0 = some ⟨0x3FD3333333333334#64, 0x3FE3333333333334#64⟩ := by decide +kernel

/-- Row 19. -/
theorem test_cscale_minus_zero : (runWord 0x4 ((s10.withA ⟨0x3FF0000000000000#64, 0x3FF0000000000000#64⟩).withS
    0x8000000000000000#64)).map State.r0 = some ⟨0x8000000000000000#64, 0x8000000000000000#64⟩ := by decide +kernel

/-- Row 23: a NaN is moved exactly. -/
theorem test_cconj : (runWord 0x5 (s10.withA ⟨0x3FF0000000000000#64, 0x7FF8000000000001#64⟩)).map
    (fun t => (t.r0, t.nanDraws)) = some (⟨0x3FF0000000000000#64, 0xFFF8000000000001#64⟩, 0) := by decide +kernel

/-- Row 25. -/
theorem test_cnorm : (runWord 0x6 (s10.withA ⟨0x3FF0000000000000#64, 0x3FF0000000000000#64⟩)).map State.r0 =
    some ⟨0x3FF6A09E667F3BCD#64, 0#64⟩ := by decide +kernel

/-- Row 28: the square of the least subnormal underflows. -/
theorem test_cnorm_underflow : (runWord 0x6 (s10.withA ⟨0x0000000000000001#64, 0#64⟩)).map State.r0 =
    some ⟨0#64, 0#64⟩ := by decide +kernel

/-- Rows 4, 12, 15, 20 and 30: the invalid operations behind them give a NaN. -/
theorem test_invalid : addCore 0x7FF0000000000000#64 0xFFF0000000000000#64 = none ∧
    subCore 0x7FF0000000000000#64 0x7FF0000000000000#64 = none ∧ mulCore 0#64 0x7FF0000000000000#64 = none ∧
    mulCore 0x7FF0000000000000#64 0#64 = none ∧ addCore 0x7FF0000000000000#64 0x7FF8000000000000#64 = none ∧
    sqrtCore 0xBFF0000000000000#64 = none := by decide +kernel

/-- R17's fdiv and u64_to_f64, by hand: 1/3; and 2^53 + 1, a tie that goes to even. -/
theorem test_div_and_convert : divCore 0x3FF0000000000000#64 0x4008000000000000#64 = some 0x3FD5555555555555#64 ∧
    u64ToF64 0x20000000000001#64 = 0x4340000000000000#64 := by decide +kernel

/-! ## BFU (L2.2) -/

/-- Row 1. -/
theorem test_cbfly : (runWord 0x7 ((ab ⟨0x3FF0000000000000#64, 0x3FF0000000000000#64⟩
    ⟨0x3FF0000000000000#64, 0x4000000000000000#64⟩).withW ⟨0#64, 0xBFF0000000000000#64⟩)).map
    (fun t => (t.r0, t.r1)) = some (⟨0x4008000000000000#64, 0#64⟩, ⟨0xBFF0000000000000#64, 0x4000000000000000#64⟩) := by
  decide +kernel

/-- Row 3: the signs of zero. -/
theorem test_cbfly_zeros : (runWord 0x7 ((ab ⟨0#64, 0x8000000000000000#64⟩
    ⟨0x4008000000000000#64, 0x8000000000000000#64⟩).withW ⟨0x3FF0000000000000#64, 0#64⟩)).map
    (fun t => (t.r0, t.r1)) = some (⟨0x4008000000000000#64, 0#64⟩, ⟨0xC008000000000000#64, 0x8000000000000000#64⟩) := by
  decide +kernel

/-! ## Utilities (R92, L2.3, L2.4, L2.5) -/

theorem test_nop : statusAfter 0x0 s10 = some 0x2#64 := by decide +kernel

theorem test_ispow2 : statusAfter 0x8 (s10.withLen 0x8000000000000000#64) = some 0x12#64 := by decide +kernel

theorem test_ispow2_false : statusAfter 0x8 (s10.withLen 0xFFFFFFFFFFFFFFFF#64) = some 0x2#64 := by decide +kernel

/-- L1.2: [A, B, C, D] gives [A, C, B, D]. -/
theorem test_bitrev : (List.range 4).map (yAfter 0x9 (withX (s10.withLen 4#64)
    [⟨0xA#64, 0xA1#64⟩, ⟨0xB#64, 0xB1#64⟩, ⟨0xC#64, 0xC1#64⟩, ⟨0xD#64, 0xD1#64⟩])) =
    [some ⟨0xA#64, 0xA1#64⟩, some ⟨0xC#64, 0xC1#64⟩, some ⟨0xB#64, 0xB1#64⟩, some ⟨0xD#64, 0xD1#64⟩] := by decide +kernel

theorem test_bitrev_errors : statusAfter 0x9 (s10.withLen 0xFFFFFFFFFFFFFFFF#64) = some 0x206#64 ∧
    statusAfter 0x9 (s10.withLen 2048#64) = some 0x306#64 := by decide +kernel

theorem test_rev : (List.range 16).map (fun i => rev i 4) =
    [0, 8, 4, 12, 2, 10, 6, 14, 1, 9, 5, 13, 3, 11, 7, 15] := by decide

/-- P5: M = 0. -/
theorem test_twid_m_zero : (runWord 0xA ((s10.withK 1#64).withR0 ⟨5#64, 6#64⟩)).map
    (fun t => (statusWord t.status, t.r0)) = some (0x406#64, ⟨5#64, 6#64⟩) := by decide +kernel

theorem test_twid : (runWord 0xA ((s10.withK 5#64).withM 4#64)).map State.r0 = some (Config.tw 5#64 4#64) := rfl

/-! ## TW_REF (L2.5) -/

/-- TW_REF as a total function, for the worked transforms. -/
def twRefTotal (k m : Word) : C64 := (twRef k m).getD cZero

theorem test_twRef_0_4 : twRef 0 4 = some ⟨0x3FF0000000000000#64, 0x8000000000000000#64⟩ := by decide +kernel
theorem test_twRef_1_2 : twRef 1 2 = some ⟨0xBFF0000000000000#64, 0xBCA1A62633145C07#64⟩ := by decide +kernel
theorem test_twRef_1_4 : twRef 1 4 = some ⟨0x3C91A62633145C07#64, 0xBFF0000000000000#64⟩ := by decide +kernel
theorem test_twRef_5_4 : twRef 5 4 = some ⟨0x3CB60FAFBFD97309#64, 0xBFF0000000000000#64⟩ := by decide +kernel
theorem test_twRef_1_16 : twRef 1 16 = some ⟨0x3FED906BCF328D46#64, 0xBFD87DE2A6AEA963#64⟩ := by decide +kernel

/-! ## Transforms (L2.6) -/

/-- x4. -/
def x4 : List C64 :=
  [⟨0x3FF0000000000000#64, 0x4000000000000000#64⟩, ⟨0xBFF0000000000000#64, 0x3FE0000000000000#64⟩,
   ⟨0x3FD0000000000000#64, 0xBFE8000000000000#64⟩, ⟨0x4008000000000000#64, 0#64⟩]

/-- STAGE with M = 2 on bitrev_perm(x4); it does not depend on TW. -/
theorem test_stage : (List.range 4).map (yAfter 0xC (withY ((s10.withLen 4#64).withM 2#64) (bitrevPerm x4 4))) =
    [some ⟨0x3FF4000000000000#64, 0x3FF4000000000000#64⟩, some ⟨0x3FE8000000000000#64, 0x4006000000000000#64⟩,
     some ⟨0x4000000000000000#64, 0x3FE0000000000000#64⟩, some ⟨0xC010000000000000#64, 0x3FE0000000000000#64⟩] := by
  decide +kernel

theorem test_stage_errors : statusAfter 0xC ((s10.withLen 4#64).withM 8#64) = some 0x506#64 ∧
    statusAfter 0xC ((s10.withLen 6#64).withM 3#64) = some 0x206#64 := by decide +kernel

/-- FFT of x4 under TW_REF. -/
theorem test_fft_x4 : (runStages twRefTotal 4 ⟨bitrevPerm x4 4, Seq.reset, 0⟩).a =
    [⟨0x400A000000000000#64, 0x3FFC000000000000#64⟩, ⟨0x3FF3FFFFFFFFFFFF#64, 0x401B000000000000#64⟩,
     ⟨0xBFE8000000000000#64, 0x3FE8000000000000#64⟩, ⟨0x3FD0000000000004#64, 0xBFF4000000000000#64⟩] := by
  decide +kernel

/-- FFT of (1, 2), which does not depend on TW: (3, +0), (-1, +0). -/
theorem test_fft : [yAfter 0xD (withX (s10.withLen 2#64) [⟨0x3FF0000000000000#64, 0#64⟩, ⟨0x4000000000000000#64, 0#64⟩]) 0,
    yAfter 0xD (withX (s10.withLen 2#64) [⟨0x3FF0000000000000#64, 0#64⟩, ⟨0x4000000000000000#64, 0#64⟩]) 1] =
    [some ⟨0x4008000000000000#64, 0#64⟩, some ⟨0xBFF0000000000000#64, 0#64⟩] := by decide +kernel

/-- DFT of x4 under TW_REF; the entry 0 is FFT's. -/
theorem test_dft_x4 : (dft twRefTotal x4 4 ⟨[], Seq.reset, 0⟩).a =
    [⟨0x400A000000000000#64, 0x3FFC000000000000#64⟩, ⟨0x3FF3FFFFFFFFFFFE#64, 0x401B000000000000#64⟩,
     ⟨0xBFE8000000000000#64, 0x3FE7FFFFFFFFFFF7#64⟩, ⟨0x3FD000000000001D#64, 0xBFF4000000000000#64⟩] := by
  decide +kernel

/-- DFT with LEN = 0 completes; with LEN = 2048 it is out of range. -/
theorem test_dft_lengths : statusAfter 0xB s10 = some 0x2#64 ∧ statusAfter 0xB (s10.withLen 2048#64) = some 0x306#64 := by
  decide +kernel

/-- The rotation-factor recurrence for m = 16 under TW_REF, j = 2 and 3: not the table's values. -/
theorem test_recurrence :
    (let wm := twRefTotal 1 16
     let w2 := (cmul (cmul cOne wm 0).1 wm 0).1
     [w2, (cmul w2 wm 0).1]) =
    [⟨0x3FE6A09E667F3BCC#64, 0xBFE6A09E667F3BCD#64⟩, ⟨0x3FD87DE2A6AEA961#64, 0xBFED906BCF328D46#64⟩] := by decide +kernel

/-- A command that reads an unwritten word faults (R48). -/
theorem test_unwritten : step ((s10.withLen 2#64).withFetchWord 64 0xD) = .fault .unwrittenSample := rfl

/-! ## The bus (L2.8, L2.9) -/

theorem test_read_id : (onBus (rd 0x00#32) s10).map State.resp = some (some ⟨.okay, some 0x10A#64⟩) := by decide +kernel

theorem test_read_reserved : (onBus (rd 0x90#32) s10).map State.resp = some (some ⟨.okay, some 0#64⟩) := by decide +kernel

theorem test_narrow_read : (onBus ⟨.read, 0x18#32, .four, 0#64⟩ s10).map State.resp =
    some (some ⟨.error, some 0#64⟩) := by decide +kernel

theorem test_unmapped : (onBus (rd 0x100#32) s10).map State.resp = some (some ⟨.error, some 0#64⟩) ∧
    (onBus (wr 0x01004000#32 1#64) s10).map State.mem = some [] := by decide +kernel

/-- X[1023].im, the last word of XMEM, its bytes little-endian (R59). -/
theorem test_last_x_word : (onBus (wr 0x01003FF8#32 0x0102030405060708#64) s10).map State.mem =
    some [(0x01003FF8, 8#8), (0x01003FF9, 7#8), (0x01003FFA, 6#8), (0x01003FFB, 5#8), (0x01003FFC, 4#8),
      (0x01003FFD, 3#8), (0x01003FFE, 2#8), (0x01003FFF, 1#8)] := by decide +kernel

theorem test_ctrl : ((onBus (wr 0x08#32 0xFFFFFFFFFFFFFFFF#64) s10).bind (onBus (rd 0x08#32))).map State.resp =
    some (some ⟨.okay, some 1#64⟩) := by decide +kernel

/-- All of STATUS set, but NONE's code: a write of ones leaves BUSY and FLAG. -/
theorem test_status_w1c : (onBus (wr 0x18#32 0xFFFFFFFFFFFFFFFF#64)
    (s10.withStatus ⟨true, true, true, true, true, .badStage⟩)).map (fun u => statusWord u.status) = some 0x11#64 := by
  decide +kernel

/-- While BUSY: LEN's write is dropped and sets HAZ, CTRL's is performed. -/
theorem test_busy_writes : (onBus (wr 0x20#32 8#64) (accept 0#64 s10)).map (fun u => (u.len, statusWord u.status)) =
      some (0#64, 0x9#64) ∧
    (onBus (wr 0x08#32 1#64) (accept 0#64 s10)).map State.irqEn = some true := by decide +kernel

/-- P6: the completion first, or the write first. -/
theorem test_race :
    (Sys2Proof.core.run 3 { s10 with len := 4#64, agenda := [.host (wr 0x10#32 0#64), .core, .host (wr 0x20#32 8#64)] } =
      .next { s10 with len := 8#64, status := { Status.reset with done := true }, resp := some writeResponse }) ∧
    (Sys2Proof.core.run 3 { s10 with len := 4#64, agenda := [.host (wr 0x10#32 0#64), .host (wr 0x20#32 8#64), .core] } =
      .next { s10 with len := 4#64, status := { Status.reset with done := true, haz := true },
                       resp := some writeResponse }) := ⟨rfl, rfl⟩

/-- R80's literals. -/
theorem test_literals : decimalLiteral false 15 (-1) = 0x3FF8000000000000#64 ∧
    decimalLiteral true 0 0 = 0x8000000000000000#64 ∧ decimalLiteral false 1 200 = 0x6974E718D7D7625A#64 := by
  decide +kernel

/-- `clr` is a write of 0xE to STATUS, and `cmd FFT` one of 0xD to CMD (R78, R79). -/
theorem test_host_script : clrOp.transaction [] = some (wr 0x18#32 0xE#64) ∧ commandWrite .fft = wr 0x10#32 0xD#64 ∧
    (Loc.yIm 3).addr = 0x02000038#32 := by decide

/-! ## Witnesses: for each statement that has hypotheses, values that meet them, at the edges of each clause -/

/-- An address, from a number. -/
def addrOf (a : Nat) : BitVec 32 := BitVec.ofNat 32 a

def one : F64 := 0x3FF0000000000000#64

def maxFinite : F64 := 0x7FEFFFFFFFFFFFFF#64

theorem fValue_one : fValue one = 1 := by
  rw [fValue, show fUnits one = 2 ^ 1074 by decide +kernel, Int.cast_pow, Int.cast_ofNat]
  exact div_self (pow_ne_zero _ two_ne_zero)

/-- The largest finite value, twice: the sum overflows, the difference is 0; and 1 with 0: neither is 0. -/
theorem witness_SumAndDifferenceRoundOnce : fIsFinite maxFinite = true ∧ fIsFinite one = true ∧
    fValue one + fValue one ≠ 0 ∧ fValue one - fValue 0x0000000000000000#64 ≠ 0 := by
  refine ⟨by decide +kernel, by decide +kernel, by rw [fValue_one]; norm_num, ?_⟩
  rw [fValue_one, fValue, show fUnits 0x0000000000000000#64 = 0 by decide +kernel]
  norm_num

theorem witness_ProductRoundsOnce : fIsFinite one = true ∧ fValue one * fValue one ≠ 0 := by
  refine ⟨by decide +kernel, by rw [fValue_one]; norm_num⟩

theorem witness_SquareRootRoundsOnce : fIsFinite one = true ∧ 0 < fValue one := by
  refine ⟨by decide +kernel, by rw [fValue_one]; norm_num⟩

/-- +0 and -0 in every pair of signs, each the exact sum, difference or product 0; x and -x; a zero times 1; the least
subnormal and the largest finite value; and a sum and a difference that are not 0. -/
theorem witness_ZeroSignsAndSubnormals : (fIsZero 0x8000000000000000#64 = true ∧ fIsZero 0x0000000000000000#64 = true) ∧
    (∀ x ∈ [0, 0x8000000000000000, 1, 0x3FF0000000000000, 0x7FEFFFFFFFFFFFFF, 0xFFEFFFFFFFFFFFFF],
      fIsFinite (BitVec.ofNat 64 x) = true) ∧
    fValue 0x0000000000000000#64 + fValue 0x8000000000000000#64 = 0 ∧ fValue one + fValue (fneg one) = 0 ∧
    fValue 0x8000000000000000#64 - fValue 0x0000000000000000#64 = 0 ∧ fValue one - fValue one = 0 ∧
    fValue 0x8000000000000000#64 * fValue one = 0 ∧ fValue one + fValue one ≠ 0 ∧
    fValue one - fValue 0x0000000000000000#64 ≠ 0 ∧ fMag 0x0000000000000001#64 ≠ 0 ∧ fMag maxFinite ≠ 0 := by
  have hp : fValue 0x0000000000000000#64 = 0 := (fValue_eq_zero_iff _).2 (by decide +kernel)
  have hm : fValue 0x8000000000000000#64 = 0 := (fValue_eq_zero_iff _).2 (by decide +kernel)
  have hn : fValue (fneg one) = -fValue one := by simp [fValue, neg_div]
  refine ⟨by decide +kernel, by decide +kernel, ?_, ?_, ?_, ?_, ?_, ?_, ?_, by decide +kernel, by decide +kernel⟩ <;>
    simp [hp, hm, hn, fValue_one]

/-- A NaN at either edge of the NaN patterns, the infinities, a zero, and a negative value. -/
theorem witness_NaNResultsAreDraws : fIsNaN 0x7FF0000000000001#64 = true ∧ fIsNaN 0xFFFFFFFFFFFFFFFF#64 = true ∧
    fIsInf 0x7FF0000000000000#64 = true ∧ fSign 0x7FF0000000000000#64 = fSign 0x7FF0000000000000#64 ∧
    fIsInf 0xFFF0000000000000#64 = true ∧ fSign 0x7FF0000000000000#64 ≠ fSign 0xFFF0000000000000#64 ∧
    fIsZero 0x8000000000000000#64 = true ∧ fSign 0x8000000000000001#64 = true ∧ fIsZero 0x8000000000000001#64 = false ∧
    fIsNaN 0x8000000000000001#64 = false ∧ fIsNaN (fadd one one 0).1 = false ∧ fIsNaN (fsub one one 0).1 = false ∧
    fIsNaN (fmul one one 0).1 = false ∧ fIsNaN (fsqrt one 0).1 = false := by decide +kernel

/-- The clauses about a result that is a NaN. -/
theorem witness_NaNResultsAreDraws_nan : fIsNaN (fadd 0x7FF0000000000000#64 0xFFF0000000000000#64 0).1 = true ∧
    fIsNaN (fsub 0x7FF0000000000000#64 0x7FF0000000000000#64 0).1 = true ∧
    fIsNaN (fmul 0#64 0x7FF0000000000000#64 0).1 = true ∧ fIsNaN (fsqrt 0xBFF0000000000000#64 0).1 = true :=
  ⟨fIsNaN_nanDraw 0, fIsNaN_nanDraw 0, fIsNaN_nanDraw 0, fIsNaN_nanDraw 0⟩

theorem witness_RevReversesBits : (0 : Nat) < 1 ∧ (3 : Nat) < 4 ∧ (4 : Nat) ≤ 4 ∧ (0 : Nat) ≤ 0 := by decide +kernel

/-- A step of the idle machine. -/
theorem witness_IdIsConstant : ∃ t, step s10 = .next t := ⟨_, rfl⟩

/-- LEN, and A_IM, and W_IM, the last. -/
theorem witness_OperandRegistersHoldEveryValue (v : Word) : s10.status.busy = false ∧
    ∀ z ∈ [(RegName.len, 0x20#32, { s10 with len := v }), (.aIm, 0x48#32, { s10 with a := ⟨s10.a.re, v⟩ }),
        (.wIm, 0x68#32, { s10 with w := ⟨s10.w.re, v⟩ })],
      z ∈ [
        (RegName.len, 0x20#32, { s10 with len := v }), (.k, 0x28#32, { s10 with k := v }),
        (.m, 0x30#32, { s10 with m := v }), (.s, 0x38#32, { s10 with s := v }),
        (.aRe, 0x40#32, { s10 with a := ⟨v, s10.a.im⟩ }), (.aIm, 0x48#32, { s10 with a := ⟨s10.a.re, v⟩ }),
        (.bRe, 0x50#32, { s10 with b := ⟨v, s10.b.im⟩ }), (.bIm, 0x58#32, { s10 with b := ⟨s10.b.re, v⟩ }),
        (.wRe, 0x60#32, { s10 with w := ⟨v, s10.w.im⟩ }), (.wIm, 0x68#32, { s10 with w := ⟨s10.w.re, v⟩ })] := by
  refine ⟨rfl, fun z hz => ?_⟩
  simp only [List.mem_cons, List.not_mem_nil, or_false] at hz ⊢
  rcases hz with rfl | rfl | rfl <;> simp

/-- ID, R0_RE, R1_IM, and the first and last reserved offsets. -/
theorem witness_ReadOnlyAndReservedIgnoreWrites : ∀ a ∈ [0x00, 0x70, 0x88, 0x90, 0xF8],
    (addrOf a).toNat % 8 = 0 ∧ ((addrOf a).toNat = 0x00 ∨ (0x70 ≤ (addrOf a).toNat ∧ (addrOf a).toNat ≤ 0xF8)) ∧
    (0x90 ≤ a → 0x90 ≤ (addrOf a).toNat ∧ (addrOf a).toNat ≤ 0xF8) := by decide +kernel

/-- A busy machine, whose core's turn runs NOP. -/
def busyNop : State := accept 0#64 s10

/-- A busy machine, whose core's turn runs FFT over words that nothing has written. -/
def busyFft : State := accept 0xD#64 (s10.withLen 2#64)

theorem witness_HiddenStateIsUnobservable : (busyNop.status.busy = true ∧ ∃ t, step busyNop = .next t) ∧
    (s10.status.busy = false ∧ ∃ t, step s10 = .next t) ∧ step busyFft = .fault .unwrittenSample :=
  ⟨⟨rfl, _, rfl⟩, ⟨rfl, _, rfl⟩, rfl⟩

/-- The host writes X[0].re. -/
def writesX : State := s10.withAgenda [.host (wr 0x01000000#32 7#64)]

theorem witness_XChangesOnlyByAnIdleHostWrite : ∃ t, step writesX = .next t ∧
    memByte t.mem 0x01000000 ≠ memByte writesX.mem 0x01000000 := ⟨_, rfl, by decide +kernel⟩

/-- The first and last words of XMEM and of YMEM; and the last entry of each, its parts apart. -/
theorem witness_SampleWordIsStoredWhole : s10.status.busy = false ∧
    (∀ a ∈ [0x01000000, 0x01003FF8, 0x02000000, 0x02003FF8], (addrOf a).toNat % 8 = 0 ∧
      ((0x01000000 ≤ (addrOf a).toNat ∧ (addrOf a).toNat < 0x01000000 + 16 * 2 ^ s10.pMax.val) ∨
        (0x02000000 ≤ (addrOf a).toNat ∧ (addrOf a).toNat < 0x02000000 + 16 * 2 ^ s10.pMax.val))) ∧
    memEntry (memPutWord (memPutWord [] 0x01003FF0 7#64) 0x01003FF8 8#64) (xAddr 1023) = some ⟨7#64, 8#64⟩ ∧
    memEntry (memPutWord (memPutWord [] 0x02003FF0 7#64) 0x02003FF8 8#64) (yAddr 1023) = some ⟨7#64, 8#64⟩ := by
  decide +kernel

theorem witness_CmdWriteWhileIdleIsAcceptance : s10.status.busy = false := rfl

theorem witness_CoreTurnRunsTheDecodedCommand : busyNop.status.busy = true ∧ decode busyNop.pcmd = .command .nop ∧
    busyNop.agenda = [] ∧ (s10.withFetchWord 64 0xD).status.busy = true ∧
    decode (s10.withFetchWord 64 0xD).pcmd = .command .fft ∧ (s10.withFetchWord 64 0xD).agenda = [.core] :=
  ⟨rfl, rfl, rfl, rfl, rfl, rfl⟩

/-- The core's turn ends BUSY; a host transaction leaves it. -/
theorem witness_InputsAreStableWhileBusy : busyNop.status.busy = true ∧ (∃ t, step busyNop = .next t) ∧
    ∃ t, step (busyNop.withAgenda [.host (wr 0x20#32 8#64)]) = .next t ∧ t.status.busy = true :=
  ⟨rfl, ⟨_, rfl⟩, _, rfl, rfl⟩

/-- A machine with a word of X, and the host's write of another. -/
def invState : State := (withX s10 [⟨one, one⟩]).withAgenda [.host (wr 0x02000008#32 7#64)]

theorem witness_InvariantIsKeptByEveryStep : invState.Inv ∧ ∃ t, step invState = .next t := ⟨by decide +kernel, _, rfl⟩

/-- Each reason for ERROR: the size, the alignment, the addresses just outside the three regions. -/
theorem witness_UnservedAccessesGetError : Size.four ≠ .eight ∧ (0x4#32).toNat % 8 ≠ 0 ∧
    ∀ a ∈ [0x100, 0x00FFFFF8, 0x01004000, 0x01FFFFF8, 0x02004000, 0xFFFFFFF8],
      ¬ ((addrOf a).toNat < 0x100 ∨ (0x01000000 ≤ (addrOf a).toNat ∧ (addrOf a).toNat < 0x01000000 + 16 * 2 ^ s10.pMax.val) ∨
        (0x02000000 ≤ (addrOf a).toNat ∧ (addrOf a).toNat < 0x02000000 + 16 * 2 ^ s10.pMax.val)) := by decide +kernel

/-- The edges of the map; ID, STATUS and R1_IM while idle; and a written word of X and of Y. -/
theorem witness_MappedAccessesAreServed : (rd 0x01000000#32).size = .eight ∧ (rd 0x01000000#32).kind = .read ∧
    (wr 0xF8#32 0#64).kind = .write ∧
    (∀ a ∈ [0x00, 0xF8, 0x01000000, 0x01003FF8, 0x02000000, 0x02003FF8], (addrOf a).toNat % 8 = 0 ∧
      ((addrOf a).toNat < 0x100 ∨ (0x01000000 ≤ (addrOf a).toNat ∧ (addrOf a).toNat < 0x01000000 + 16 * 2 ^ s10.pMax.val) ∨
        (0x02000000 ≤ (addrOf a).toNat ∧ (addrOf a).toNat < 0x02000000 + 16 * 2 ^ s10.pMax.val))) ∧
    s10.status.busy = false ∧
    (∀ z ∈ [(0x00, idWord p10), (0x18, statusWord s10.status), (0x88, s10.r1.im)], (addrOf z.1, z.2) ∈ [
      (0x00#32, BitVec.ofNat 64 (0x0100 + s10.pMax.val)), (0x08#32, if s10.irqEn then 1#64 else 0#64),
      (0x18#32, statusWord s10.status), (0x20#32, s10.len), (0x28#32, s10.k), (0x30#32, s10.m), (0x38#32, s10.s),
      (0x40#32, s10.a.re), (0x48#32, s10.a.im), (0x50#32, s10.b.re), (0x58#32, s10.b.im), (0x60#32, s10.w.re),
      (0x68#32, s10.w.im), (0x70#32, s10.r0.re), (0x78#32, s10.r0.im), (0x80#32, s10.r1.re), (0x88#32, s10.r1.im)]) ∧
    memWord (memPutWord [] 0x01003FF8 7#64) (addrOf 0x01003FF8).toNat = some 7#64 ∧
    memWord (memPutWord [] 0x02000000 7#64) (addrOf 0x02000000).toNat = some 7#64 := by
  refine ⟨rfl, rfl, rfl, by decide +kernel, rfl, ?_, by decide +kernel, by decide +kernel⟩
  intro z hz
  simp only [List.mem_cons, List.not_mem_nil, or_false] at hz
  rcases hz with rfl | rfl | rfl <;> decide +kernel

theorem witness_ReadsHaveNoSideEffects : (rd 0x18#32).kind = .read ∧ ∃ u, hostStep (rd 0x18#32) s10 = .next u :=
  ⟨rfl, _, rfl⟩

/-- The edges of the guarded places, CTRL, STATUS, and the edges of the ignored ones. -/
theorem witness_WritesWhileBusy : busyNop.status.busy = true ∧
    (∀ a ∈ [0x10, 0x20, 0x68, 0x01000000, 0x01003FF8, 0x02000000, 0x02003FF8],
      (addrOf a).toNat % 8 = 0 ∧ ((addrOf a).toNat = 0x10 ∨ (0x20 ≤ (addrOf a).toNat ∧ (addrOf a).toNat ≤ 0x68) ∨
        (0x01000000 ≤ (addrOf a).toNat ∧ (addrOf a).toNat < 0x01000000 + 16 * 2 ^ busyNop.pMax.val) ∨
        (0x02000000 ≤ (addrOf a).toNat ∧ (addrOf a).toNat < 0x02000000 + 16 * 2 ^ busyNop.pMax.val))) ∧
    (0x08#32).toNat = 0x08 ∧ (0x18#32).toNat = 0x18 ∧
    (∀ a ∈ [0x00, 0x70, 0xF8], (addrOf a).toNat % 8 = 0 ∧
      ((addrOf a).toNat = 0x00 ∨ (0x70 ≤ (addrOf a).toNat ∧ (addrOf a).toNat ≤ 0xF8))) := by decide +kernel

/-- R0_RE, R1_IM and the edges of YMEM; STATUS; ID, CMD and W_IM; and a written word of X. -/
theorem witness_ReadsWhileBusy : busyNop.status.busy = true ∧
    (∀ a ∈ [0x70, 0x88, 0x02000000, 0x02003FF8], (addrOf a).toNat % 8 = 0 ∧
      ((0x70 ≤ (addrOf a).toNat ∧ (addrOf a).toNat ≤ 0x88) ∨
        (0x02000000 ≤ (addrOf a).toNat ∧ (addrOf a).toNat < 0x02000000 + 16 * 2 ^ busyNop.pMax.val))) ∧
    (0x18#32).toNat = 0x18 ∧
    (∀ z ∈ [(0x00, idWord p10), (0x10, 0#64), (0x68, busyNop.w.im)], (addrOf z.1).toNat % 8 = 0 ∧ (addrOf z.1, z.2) ∈ [
      (0x00#32, BitVec.ofNat 64 (0x0100 + busyNop.pMax.val)), (0x08#32, if busyNop.irqEn then 1#64 else 0#64),
      (0x10#32, 0#64), (0x20#32, busyNop.len), (0x28#32, busyNop.k), (0x30#32, busyNop.m), (0x38#32, busyNop.s),
      (0x40#32, busyNop.a.re), (0x48#32, busyNop.a.im), (0x50#32, busyNop.b.re), (0x58#32, busyNop.b.im),
      (0x60#32, busyNop.w.re), (0x68#32, busyNop.w.im)]) ∧
    memWord (accept 0#64 (withX s10 [⟨7#64, 8#64⟩])).mem 0x01000000 = some 7#64 := by
  refine ⟨rfl, by decide +kernel, rfl, ?_, by decide +kernel⟩
  intro z hz
  simp only [List.mem_cons, List.not_mem_nil, or_false] at hz
  rcases hz with rfl | rfl | rfl <;> decide +kernel

theorem witness_DecodeFollowsTheOpcodeMap : (0x101#64).extractLsb' 8 56 ≠ 0#56 ∧ (0xD#64).extractLsb' 8 56 = 0#56 ∧
    (0xE#64).extractLsb' 8 56 = 0#56 ∧ 0x0E ≤ ((0xE#64).extractLsb' 0 8).toNat ∧
    0x0E ≤ ((0xFF#64).extractLsb' 0 8).toNat := by decide +kernel

theorem witness_IllegalWordEndsWithIllegalCmd : decode 0xE#64 = .illegal .undefinedOpcode ∧
    decode 0x101#64 = .illegal .reservedBits ∧ s10.status.busy = false ∧ (accept 0xE#64 s10).status.busy = true ∧
    (accept 0xE#64 s10).pcmd = 0xE#64 ∧ (accept 0xE#64 s10).agenda = [] ∧
    (s10.withFetchWord 64 0xE).agenda = [.core] := by decide +kernel

theorem witness_CnormIsNeverNegative : ∃ t, exec .cnorm s10 = .next t := ⟨_, rfl⟩

theorem witness_BitrevPermIsItsOwnInverse : (0 : Nat) < 64 ∧ [cZero].length = 2 ^ 0 ∧ x4.length = 2 ^ 2 := by decide +kernel

/-- LEN = 0, 3 and 2^64 - 1 are bad; 2048 is good and long; 1 and 1024 are good and in range. -/
theorem lengths : badLength (s10.withLen 0#64) ∧ badLength (s10.withLen 3#64) ∧
    badLength (s10.withLen 0xFFFFFFFFFFFFFFFF#64) ∧ ¬ badLength (s10.withLen 2048#64) ∧
    longLength (s10.withLen 2048#64) ∧ ¬ longLength (s10.withLen 1024#64) := by
  refine ⟨?_, ?_, ?_, ?_, by simp [longLength, s10, p10, PMax.nMax], by simp [longLength, s10, p10, PMax.nMax]⟩
  · rw [← isPow2_false_iff]; decide +kernel
  · rw [← isPow2_false_iff]; decide +kernel
  · rw [← isPow2_false_iff]; decide +kernel
  · rw [← isPow2_false_iff]; decide +kernel

/-- x4 in X, LEN = 4. -/
def fourInX : State := withX (s10.withLen 4#64) x4

/-- x4 in Y, LEN = 4, M = 4. -/
def fourInY : State := withY ((s10.withLen 4#64).withM 4#64) x4

theorem fourInX_written : ∀ i < 4, memEntry fourInX.mem (xAddr i) = x4[i]? := by decide +kernel

theorem fourInY_written : ∀ i < 4, memEntry fourInY.mem (yAddr i) = x4[i]? := by decide +kernel

theorem fourInX_short : ¬ longLength fourInX := by simp [longLength, fourInX, withX, s10, p10, PMax.nMax]

theorem fourInY_short : ¬ longLength fourInY := by simp [longLength, fourInY, withY, s10, p10, PMax.nMax]

theorem witness_BitrevResult : badLength (s10.withLen 3#64) ∧
    (¬ badLength (s10.withLen 2048#64) ∧ longLength (s10.withLen 2048#64)) ∧
    (fourInX.len.toNat = 2 ^ 2 ∧ ¬ longLength fourInX ∧ x4.length = 2 ^ 2 ∧
      ∀ i < 2 ^ 2, memEntry fourInX.mem (xAddr i) = x4[i]?) :=
  ⟨lengths.2.1, ⟨lengths.2.2.2.1, lengths.2.2.2.2.1⟩, rfl, fourInX_short, rfl, fourInX_written⟩

theorem witness_TwidResult : s10.m = 0#64 ∧ (s10.withM 1#64).m ≠ 0#64 := by decide +kernel

/-- LEN = 4, and the empty signal, LEN = 0. -/
theorem witness_DftResult : longLength (s10.withLen 2048#64) ∧
    (¬ longLength fourInX ∧ x4.length = fourInX.len.toNat ∧
      ∀ i < fourInX.len.toNat, memEntry fourInX.mem (xAddr i) = x4[i]?) ∧
    (¬ longLength s10 ∧ ([] : List C64).length = s10.len.toNat) :=
  ⟨lengths.2.2.2.2.1, ⟨fourInX_short, rfl, fourInX_written⟩, by simp [longLength, s10, State.reset], rfl⟩

/-- n = 4, m = 4: one block of two butterflies. -/
theorem witness_StageResult : badLength (s10.withLen 3#64) ∧
    (¬ badLength (s10.withLen 2048#64) ∧ longLength (s10.withLen 2048#64)) ∧
    (¬ badLength ((s10.withLen 4#64).withM 8#64) ∧ ¬ longLength ((s10.withLen 4#64).withM 8#64) ∧
      badStageSize ((s10.withLen 4#64).withM 8#64)) ∧ fourInY.len.toNat = 2 ^ 2 ∧ ¬ longLength fourInY ∧ fourInY.m.toNat = 2 ^ (1 + 1) ∧
    1 < 2 ∧ x4.length = 2 ^ 2 ∧ (∀ i < 2 ^ 2, memEntry fourInY.mem (yAddr i) = x4[i]?) ∧
    (0 < 2 ^ (2 - (1 + 1)) ∧ 1 < 2 ^ 1 ∧ x4[0 * 2 ^ (1 + 1) + 1]? = some ⟨0xBFF0000000000000#64, 0x3FE0000000000000#64⟩ ∧
      x4[0 * 2 ^ (1 + 1) + 1 + 2 ^ 1]? = some ⟨0x4008000000000000#64, 0#64⟩) :=
  ⟨lengths.2.1, ⟨lengths.2.2.2.1, lengths.2.2.2.2.1⟩,
   ⟨by rw [← isPow2_false_iff]; decide +kernel, by simp [longLength, s10, p10, PMax.nMax], .inr (.inr (by decide +kernel))⟩,
   rfl, fourInY_short, rfl, by decide +kernel, rfl, fourInY_written, by decide +kernel, by decide +kernel, rfl, rfl⟩

theorem fourInX_all : ∀ i < 2 ^ 2, memEntry fourInX.mem (xAddr i) ≠ none := by
  intro i h
  rw [fourInX_written i h]
  have h' : i < x4.length := h
  simp [h']

/-- LEN = 4, and LEN = 1. -/
theorem witness_FftCompletes : badLength (s10.withLen 0#64) ∧
    (¬ badLength (s10.withLen 2048#64) ∧ longLength (s10.withLen 2048#64)) ∧
    (fourInX.len.toNat = 2 ^ 2 ∧ ¬ longLength fourInX ∧ ∀ i < 2 ^ 2, memEntry fourInX.mem (xAddr i) ≠ none) ∧
    ((withX (s10.withLen 1#64) [cOne]).len.toNat = 2 ^ 0 ∧
      ∀ i < 2 ^ 0, memEntry (withX (s10.withLen 1#64) [cOne]).mem (xAddr i) ≠ none) :=
  ⟨lengths.1, ⟨lengths.2.2.2.1, lengths.2.2.2.2.1⟩, ⟨rfl, fourInX_short, fourInX_all⟩, rfl, by decide +kernel⟩

theorem witness_FftEqualsBitrevThenStages : fourInX.len.toNat = 2 ^ 2 ∧ ¬ longLength fourInX ∧
    ∀ i < 2 ^ 2, memEntry fourInX.mem (xAddr i) ≠ none := ⟨rfl, fourInX_short, fourInX_all⟩

/-- A twiddle function that is (1, 0) everywhere. -/
def flat (_ _ : Word) : C64 := cOne

theorem witness_ImpulseAndConstantAreExact (m : Word) (_ : m = 2#64 ∨ m = 4#64) :
    fIsFinite (flat 1#64 m).re = true ∧ fIsFinite (flat 1#64 m).im = true :=
  show fIsFinite cOne.re = true ∧ fIsFinite cOne.im = true by decide +kernel

theorem witness_FftButterflyCount : (0 : Nat) < 64 ∧ (63 : Nat) < 64 := by decide +kernel

/-- STAGE with M = 8 above LEN = 4; and NOP, which has no error. -/
theorem witness_FirstErrorIsReportedAlone : hasError .stage ((s10.withLen 4#64).withM 8#64) .badStage ∧
    noError .nop s10 ∧ ∃ t, exec .nop s10 = .next t := by
  refine ⟨.inr ⟨?_, .inr ⟨?_, .inl ⟨.inr (.inr (by decide +kernel)), rfl⟩⟩⟩, by simp [noError, causes], _, rfl⟩
  · rw [← isPow2_false_iff]; decide +kernel
  · simp [longLength, s10, p10, PMax.nMax]

/-- DFT of a written signal misses nothing; DFT of an unwritten one misses X[0]. -/
theorem witness_CommandsCompleteUnlessAWordIsUnwritten : (noError .dft fourInX ∧ ¬ missesWord .dft fourInX) ∧
    (noError .dft (s10.withLen 1#64) ∧ missesWord .dft (s10.withLen 1#64)) := by
  refine ⟨⟨?_, ?_⟩, ?_, .inl ⟨by decide +kernel, 0, by decide +kernel, rfl⟩⟩
  · have := fourInX_short
    simpa [noError, causes]
  · rintro (⟨_, j, hj, h⟩ | ⟨h, _⟩)
    · exact fourInX_all j hj h
    · revert h; decide +kernel
  · simp [noError, causes, longLength, s10, p10, PMax.nMax]

theorem witness_RegisterCommandsFrame : ∃ t, exec .cbfly s10 = .next t := ⟨_, rfl⟩

theorem witness_TransformsFrame : Instr.dft ∈ [Instr.bitrev, .dft, .stage, .fft] ∧ (∃ t, exec .dft s10 = .next t) ∧
    (noError .dft s10 → yAddr s10.len.toNat ≤ yAddr 0) := ⟨by decide +kernel, ⟨_, rfl⟩, fun _ => le_refl _⟩

/-- Two states that agree on LEN and on X[0 .. 3], and differ in X[4]. -/
theorem witness_ResultsDependOnTheReadsAlone :
    fourInX.pMax = (withX (s10.withLen 4#64) (x4 ++ [cOne])).pMax ∧
    fourInX.nanDraws = (withX (s10.withLen 4#64) (x4 ++ [cOne])).nanDraws ∧
    (∀ i < 4, memEntry fourInX.mem (xAddr i) = memEntry (withX (s10.withLen 4#64) (x4 ++ [cOne])).mem (xAddr i)) ∧
    (noError .nop s10 ∧ ∃ t, exec .nop s10 = .next t) ∧
    exec .fft (s10.withLen 2#64) = .fault .unwrittenSample := by
  refine ⟨rfl, rfl, by decide +kernel, ⟨by simp [noError, causes], _, rfl⟩, rfl⟩

theorem witness_InterruptFollowsDone : (∃ t, hostStep (wr 0x18#32 2#64) s10 = .next t) ∧ (2#64).getLsbD 1 = true ∧
    (s10.status.busy = false ∧ ∃ t, hostStep (wr 0x10#32 0#64) s10 = .next t) ∧
    ((∃ t, hostStep (wr 0x08#32 0#64) s10 = .next t) ∧ (0#64).getLsbD 0 = false) ∧ ∃ t, exec .nop s10 = .next t :=
  ⟨⟨_, rfl⟩, by decide +kernel, ⟨rfl, _, rfl⟩, ⟨⟨_, rfl⟩, by decide +kernel⟩, _, rfl⟩

theorem witness_IdleCoreKeepsItsState : s10.status.busy = false ∧ s10.agenda = [] ∧
    (s10.withAgenda [.core]).status.busy = false ∧ (s10.withAgenda [.core]).agenda = .core :: [] :=
  ⟨rfl, rfl, rfl, rfl⟩

theorem witness_HostTurnIsOneTransaction : writesX.agenda = .host (wr 0x01000000#32 7#64) :: [] := rfl

theorem witness_AcceptedCommandsComplete : busyNop.status.busy = true := rfl

/-- The infinities, with the largest finite value, with one another, and as the factor of a subnormal and of an infinity. -/
theorem witness_InfinitiesAndRootsOfZero :
    (∀ x ∈ [0x7FF0000000000000, 0xFFF0000000000000], fIsInf (BitVec.ofNat 64 x) = true) ∧ fIsFinite maxFinite = true ∧
    fIsFinite 0x8000000000000000#64 = true ∧ fSign 0xFFF0000000000000#64 = fSign 0xFFF0000000000000#64 ∧
    fSign 0x7FF0000000000000#64 ≠ fSign 0xFFF0000000000000#64 ∧
    (∀ x ∈ [0x8000000000000001, 0x7FF0000000000000],
      fIsNaN (BitVec.ofNat 64 x) = false ∧ fIsZero (BitVec.ofNat 64 x) = false) := by decide +kernel

end Sys2Proof.Machine.Test
end

section
/-! PROOFS of the statements of 00_scope.md, the arithmetic: the bit reversal of R22. -/

namespace Sys2Proof.Machine

/-- Bits of rev(i, p): bit `b` is bit `p - 1 - b` of `i` below `p` (R22). Each step puts bit 0 of `i` on top, at `p`. -/
theorem testBit_rev {i p b : Nat} (h : b < p) : (rev i p).testBit b = i.testBit (p - 1 - b) := by
  induction p generalizing i with
  | zero => omega
  | succ p ih =>
    rw [rev, Nat.mul_comm, Nat.testBit_two_pow_mul_add _ (rev_lt _ p)]
    split
    · rename_i hb
      rw [ih hb, Nat.testBit_div_two]
      congr 1
      omega
    · obtain rfl : b = p := by omega
      simp

theorem testBit_rev_of_le {i p b : Nat} (h : p ≤ b) : (rev i p).testBit b = false :=
  Nat.testBit_lt_two_pow (lt_of_lt_of_le (rev_lt i p) (Nat.pow_le_pow_right (by omega) h))

/-- Settles O6, by induction on the number of bits. -/
theorem revReversesBits : Obligations.RevReversesBits :=
  ⟨fun _ _ _ => testBit_rev, fun _ _ _ => testBit_rev_of_le, rfl⟩

end Sys2Proof.Machine
end

section
/-! PROOFS of the statements of 00_scope.md: sums, differences and products of finite values (R17). -/

namespace Sys2Proof.Machine

/-- The difference is the sum with the second operand negated. -/
theorem fsub_eq_fadd_fneg (a b : F64) (n : Nat) : fsub a b n = fadd a (fneg b) n := rfl

/-- The packing of a whole number of units, not 0, rounds it once. -/
theorem pack_int_roundsTo {z : ℤ} (hz : z ≠ 0) : roundsTo ((z : ℝ) / 2 ^ 1074) (pack (decide (z < 0)) z.natAbs 0) := by
  have habs : (z.natAbs : ℝ) = |(z : ℝ)| := by rw [Nat.cast_natAbs, Int.cast_abs]
  have h := pack_roundsTo (Int.natAbs_pos.2 hz) (decide (z < 0)) 0
  have hval : (if decide (z < 0) = true then -(z.natAbs : ℝ) else z.natAbs) = z := by
    rw [habs]
    rcases lt_or_ge z 0 with hneg | hpos
    · rw [if_pos (by simpa using hneg), abs_of_neg (by exact_mod_cast hneg), neg_neg]
    · rw [if_neg (by simpa using hpos), abs_of_nonneg (by exact_mod_cast hpos)]
  rwa [hval, Nat.add_zero] at h

/-- A sum of finite values that is not exactly 0 is the exact sum packed. -/
theorem fadd_of_sum_ne_zero {a b : F64} (ha : fIsFinite a = true) (hb : fIsFinite b = true)
    (hz : fUnits a + fUnits b ≠ 0) (n : Nat) :
    fadd a b n = (pack (decide (fUnits a + fUnits b < 0)) (fUnits a + fUnits b).natAbs 0, n) := by
  rw [fadd, addCore_finite ha hb, if_neg hz, drawNaN_some]

/-- The product of finite values is the exact product packed. -/
theorem fmul_of_finite {a b : F64} (ha : fIsFinite a = true) (hb : fIsFinite b = true) (n : Nat) :
    fmul a b n = (pack (fSign a != fSign b) (fMag a * fMag b) 1074, n) := by
  rw [fmul, mulCore_finite ha hb, drawNaN_some]

theorem fValue_fneg (b : F64) : fValue (fneg b) = -fValue b := by
  rw [fValue, fValue, fUnits_fneg, Int.cast_neg, neg_div]

/-- The exact sum is 0 exactly when it is in units. -/
theorem fValue_add_eq_zero_iff (a b : F64) : fValue a + fValue b = 0 ↔ fUnits a + fUnits b = 0 := by
  rw [fValue_add, div_scale_eq_zero_iff]

/-- The exact product is 0 exactly when the product of the magnitudes is. -/
theorem fValue_mul_eq_zero_iff (a b : F64) : fValue a * fValue b = 0 ↔ fMag a * fMag b = 0 := by
  rw [mul_eq_zero, fValue_eq_zero_iff, fValue_eq_zero_iff, fIsZero_iff, fIsZero_iff, Nat.mul_eq_zero]

/-- The exact product: the product of the magnitudes at twice the scale, with the XOR of the signs. -/
theorem fValue_mul (a b : F64) : fValue a * fValue b =
    (if (fSign a != fSign b) = true then -((fMag a * fMag b : ℕ) : ℝ) else (fMag a * fMag b : ℕ)) / 2 ^ (1074 + 1074) := by
  rw [fValue, fValue, div_mul_div_comm, ← pow_add, fUnits, fUnits]
  cases fSign a <;> cases fSign b <;> simp

/-- fadd rounds a sum of finite values that is not 0 once. -/
theorem fadd_roundsTo {a b : F64} (ha : fIsFinite a = true) (hb : fIsFinite b = true)
    (hz : fValue a + fValue b ≠ 0) (n : Nat) : ∃ x, fadd a b n = (x, n) ∧ roundsTo (fValue a + fValue b) x := by
  have hz' : fUnits a + fUnits b ≠ 0 := fun h => hz ((fValue_add_eq_zero_iff a b).2 h)
  refine ⟨_, fadd_of_sum_ne_zero ha hb hz' n, ?_⟩
  rw [fValue_add]
  exact pack_int_roundsTo hz'

/-- Settles O1: the exact sum in units is packed, and the packing rounds once; fsub is fadd of the negated operand. -/
theorem sumAndDifferenceRoundOnce : Obligations.SumAndDifferenceRoundOnce := by
  intro a b n ha hb
  refine ⟨fun hz => fadd_roundsTo ha hb hz n, fun hz => ?_⟩
  rw [fsub_eq_fadd_fneg]
  rw [sub_eq_add_neg, ← fValue_fneg] at hz ⊢
  exact fadd_roundsTo ha (by rwa [fIsFinite_fneg]) hz n

/-- Settles O2: the product of the magnitudes, not 0, is packed at twice the scale, and the packing rounds once. -/
theorem productRoundsOnce : Obligations.ProductRoundsOnce := by
  intro a b n ha hb hz
  refine ⟨_, fmul_of_finite ha hb n, ?_⟩
  have hpos : 0 < fMag a * fMag b := Nat.pos_of_ne_zero fun h => hz ((fValue_mul_eq_zero_iff a b).2 h)
  rw [fValue_mul]
  exact pack_roundsTo hpos _ 1074

end Sys2Proof.Machine
end

section
/-! PROOFS of the statements of 00_scope.md: the square root (R17). The root is taken on integers; where it is inexact,
a last bit stands for what is left of it, and no value halfway between two results lies that near. -/

namespace Sys2Proof.Machine

/-! ## The integer root -/

/-- The root found bit by bit: from an `r` that is the root up to 2^b, the rest of the bits give the integer root. -/
theorem isqrtFrom_eq_sqrt {n b r : Nat} (hle : r ^ 2 ≤ n) (hlt : n < (r + 2 ^ b) ^ 2) :
    isqrtFrom n b r = Nat.sqrt n := by
  induction b generalizing r with
  | zero => exact Nat.eq_sqrt'.2 ⟨hle, hlt⟩
  | succ b ih =>
    rw [isqrtFrom]
    split
    · rename_i h
      exact ih h (by rwa [Nat.add_assoc, ← Nat.two_mul, ← Nat.pow_succ'])
    · rename_i h
      exact ih hle (not_le.1 h)

/-- The significand of a finite value, the factor of 2^(fExp - 1) in its magnitude. -/
def significand (x : F64) : Nat := if fExp x = 0 then fFrac x else 2 ^ 52 + fFrac x

theorem significand_lt (x : F64) : significand x < 2 ^ 53 := by
  have hf := fFrac_lt x
  unfold significand
  split <;> omega

theorem fMag_eq_significand (x : F64) : fMag x = significand x * 2 ^ (fExp x - 1) := by
  unfold fMag significand
  split
  · rename_i h; simp [h]
  · rfl

/-- The integer whose root sqrtMag takes: the significand, doubled where the exponent is odd, times 4^54. -/
def sqrtRadicand (x : F64) : Nat :=
  (if (fExp x - 1) % 2 = 1 then 2 * significand x else significand x) * 4 ^ 54

theorem sqrtRadicand_eq (x : F64) : sqrtRadicand x = significand x * 2 ^ ((fExp x - 1) % 2) * 4 ^ 54 := by
  unfold sqrtRadicand
  rcases Nat.mod_two_eq_zero_or_one (fExp x - 1) with h | h
  · rw [h, if_neg (by omega), Nat.pow_zero, Nat.mul_one]
  · rw [h, if_pos rfl, Nat.pow_one, Nat.mul_comm 2]

theorem sqrtRadicand_lt (x : F64) : sqrtRadicand x < 2 ^ 162 := by
  have hc := significand_lt x
  unfold sqrtRadicand
  split <;> omega

theorem le_sqrtRadicand {x : F64} (hx : fMag x ≠ 0) : 2 ^ 108 ≤ sqrtRadicand x := by
  have hc : significand x ≠ 0 := fun h => hx (by rw [fMag_eq_significand, h, Nat.zero_mul])
  unfold sqrtRadicand
  split <;> omega

/-- Twice the integer root of `n`, with a last bit that is set where the root is inexact. -/
def stickyRoot (n : Nat) : Nat := 2 * Nat.sqrt n + if Nat.sqrt n * Nat.sqrt n = n then 0 else 1

theorem sqrtMag_eq (x : F64) :
    sqrtMag x = pack false (stickyRoot (sqrtRadicand x) * 2 ^ ((fExp x - 1) / 2 + 482)) 0 := by
  have hr : isqrtFrom (sqrtRadicand x) 82 0 = Nat.sqrt (sqrtRadicand x) :=
    isqrtFrom_eq_sqrt (Nat.zero_le _) (lt_trans (sqrtRadicand_lt x) (by decide))
  rw [stickyRoot, ← hr]
  rfl

/-- The square of the result's scale and the 4^54 of the radicand make up the 2^1074 of a squared unit. -/
theorem four_mul_rootScale_sq (h : Nat) : 4 * 4 ^ 54 * (2 ^ (h + 482)) ^ 2 = 2 ^ (2 * h) * 2 ^ 1074 := by
  rw [show 4 * 4 ^ 54 = 2 ^ 110 by norm_num, ← Nat.pow_mul, ← Nat.pow_add, ← Nat.pow_add]
  exact congrArg (2 ^ ·) (by omega)

/-- The radicand at its scale: the magnitude times 2^1074, which is the root's square in units. -/
theorem fMag_eq_sqrtRadicand (x : F64) :
    fMag x * 2 ^ 1074 = 4 * sqrtRadicand x * (2 ^ ((fExp x - 1) / 2 + 482)) ^ 2 := by
  have hscale := four_mul_rootScale_sq ((fExp x - 1) / 2)
  have hexp : 2 ^ (fExp x - 1) = 2 ^ ((fExp x - 1) % 2) * 2 ^ (2 * ((fExp x - 1) / 2)) := by
    rw [← Nat.pow_add, Nat.mod_add_div]
  rw [fMag_eq_significand, hexp, sqrtRadicand_eq]
  generalize 2 ^ (2 * ((fExp x - 1) / 2)) = U at *
  generalize 2 ^ ((fExp x - 1) / 2 + 482) = S at *
  generalize 2 ^ ((fExp x - 1) % 2) = D
  calc significand x * (D * U) * 2 ^ 1074 = significand x * D * (U * 2 ^ 1074) := by simp only [Nat.mul_assoc]
    _ = significand x * D * (4 * 4 ^ 54 * S ^ 2) := by rw [hscale]
    _ = 4 * (significand x * D * 4 ^ 54) * S ^ 2 := by ring

/-- The exact root of a positive value, in units: twice the real root of the radicand, at the result's scale. -/
theorem sqrt_fValue {x : F64} (hs : fSign x = false) :
    Real.sqrt (fValue x) = 2 * Real.sqrt (sqrtRadicand x) * 2 ^ ((fExp x - 1) / 2 + 482) / 2 ^ 1074 := by
  have hM : (fMag x : ℝ) * 2 ^ 1074 = 4 * sqrtRadicand x * (2 ^ ((fExp x - 1) / 2 + 482)) ^ 2 := by
    exact_mod_cast fMag_eq_sqrtRadicand x
  have hsq : fValue x = (2 * Real.sqrt (sqrtRadicand x) * 2 ^ ((fExp x - 1) / 2 + 482) / 2 ^ 1074) ^ 2 := by
    have hroot := Real.sq_sqrt (Nat.cast_nonneg (α := ℝ) (sqrtRadicand x))
    have hT : (2 : ℝ) ^ 1074 ≠ 0 := pow_ne_zero _ two_ne_zero
    rw [fValue, fUnits, hs, if_neg Bool.false_ne_true, Int.cast_natCast, div_pow, mul_pow, mul_pow, hroot,
      eq_div_iff (pow_ne_zero 2 hT), sq ((2 : ℝ) ^ 1074), ← mul_assoc, div_mul_cancel₀ _ hT, hM,
      show (2 : ℝ) ^ 2 = 4 by norm_num]
  rw [hsq, Real.sqrt_sq (by positivity)]

/-! ## A last bit for what is left -/

/-- Where the point halfway between `X` and `Y` is not inside (A, B), the nearer of the two for one number inside is the
nearer for every number inside. -/
theorem eq_or_closer_of_no_midpoint {X Y N Q A B : ℝ} (hAN : A < N) (hNB : N < B) (hAQ : A < Q) (hQB : Q < B)
    (hmid : X + Y ≤ 2 * A ∨ 2 * B ≤ X + Y) (h : |X - N| ≤ |Y - N|) : X = Y ∨ |X - Q| < |Y - Q| := by
  rw [← sq_lt_sq]
  rw [← sq_le_sq] at h
  rcases lt_trichotomy X Y with hXY | hXY | hXY
  · right
    rcases hmid with hm | hm <;> nlinarith
  · exact .inl hXY
  · right
    rcases hmid with hm | hm <;> nlinarith

/-- A power of two from 2^52 units up is a finite value. -/
theorem exists_fUnits_two_pow {j : Nat} (hlo : 52 ≤ j) (hhi : j ≤ 2097) :
    ∃ y, fIsFinite y = true ∧ fUnits y = 2 ^ j := by
  obtain ⟨hfin, hmag, -⟩ :=
    pack_fields (d := j - 52) (m := 2 ^ 52) (neg := false) (by omega) (by omega) (by omega) rfl
  refine ⟨_, hfin, ?_⟩
  rw [fUnits, fSign_signed, hmag, ← Nat.pow_add, Nat.add_sub_cancel' hlo]
  simp

/-- Two multiples of P have no halfway point strictly between consecutive multiples of P / 2. -/
theorem no_midpoint_of_dvd {P X Y s : ℤ} (hP : 0 < P) (hX : P ∣ X) (hY : P ∣ Y) :
    X + Y ≤ s * P ∨ (s + 1) * P ≤ X + Y := by
  obtain ⟨c, hc⟩ := Int.dvd_add hX hY
  rw [hc, mul_comm P c]
  rcases le_or_gt c s with h | h
  · exact .inl (mul_le_mul_of_nonneg_right h hP.le)
  · exact .inr (mul_le_mul_of_nonneg_right h hP.le)

/-- The distances of a value from a real number, in units. -/
theorem abs_fValue_sub (y : F64) (q : ℝ) : |fValue y - q / 2 ^ 1074| = |(fUnits y : ℝ) - q| / 2 ^ 1074 := by
  rw [fValue, ← sub_div, abs_div, abs_of_pos (by positivity : (0 : ℝ) < 2 ^ 1074)]

/-- The comparison of two such distances. -/
theorem abs_fValue_sub_le_iff (x y : F64) (q : ℝ) :
    |fValue x - q / 2 ^ 1074| ≤ |fValue y - q / 2 ^ 1074| ↔ |(fUnits x : ℝ) - q| ≤ |(fUnits y : ℝ) - q| := by
  rw [abs_fValue_sub, abs_fValue_sub, div_le_div_iff_of_pos_right (by positivity)]

/-- A value that is no multiple of 2^(E+2) is further from a number of 2^(E+55) and above than 2^(E+54) is. -/
theorem exists_multiple_closer {N : ℝ} {E : Nat} (hE : E ≤ 2042) (hN : 2 ^ (E + 55) ≤ N) {y : F64}
    (hy : ¬ (2 : ℤ) ^ (E + 2) ∣ fUnits y) : ∃ z, fIsFinite z = true ∧ (2 : ℤ) ^ (E + 2) ∣ fUnits z ∧
      |(fUnits z : ℝ) - N| < |(fUnits y : ℝ) - N| := by
  have h := fUnits_multiple_or_small (Nat.zero_le (E + 2)) y
  rw [pow_zero, mul_one, show 52 + (E + 2) = E + 54 by omega] at h
  obtain ⟨-, hsmall⟩ := h.resolve_left hy
  obtain ⟨z, hz, hzu⟩ := exists_fUnits_two_pow (j := E + 54) (by omega) (by omega)
  refine ⟨z, hz, by rw [hzu]; exact pow_dvd_pow 2 (by omega), ?_⟩
  have hyz : (fUnits y : ℝ) < fUnits z := by
    rw [hzu]
    exact_mod_cast lt_of_abs_lt hsmall
  have hzN : (fUnits z : ℝ) ≤ N := by
    rw [hzu]
    push_cast
    exact le_trans (pow_le_pow_right₀ (by norm_num) (by omega)) hN
  rw [abs_of_nonpos (by linarith), abs_of_nonpos (by linarith)]
  linarith

/-- **The last bit keeps the rounding right.** What is nearest to (2r+1) * 2^E units is nearest to every number strictly
between 2r * 2^E and (2r+2) * 2^E, for an `r` of at least 55 bits. -/
theorem nearestEven_of_sticky {r E : Nat} (hr : 2 ^ 54 ≤ r) (hE : E ≤ 2042) {Q : ℝ} (hlo : 2 * r * 2 ^ E < Q)
    (hhi : Q < (2 * r + 2) * 2 ^ E) {x : F64} (hx : nearestEven ((2 * r + 1) * 2 ^ E / 2 ^ 1074) x) :
    nearestEven (Q / 2 ^ 1074) x := by
  have hP : (0 : ℝ) < 2 ^ E := by positivity
  have hnear : ∀ y, fIsFinite y = true →
      |(fUnits x : ℝ) - (2 * r + 1) * 2 ^ E| ≤ |(fUnits y : ℝ) - (2 * r + 1) * 2 ^ E| := fun y hy =>
    (abs_fValue_sub_le_iff x y _).1 (hx.2 y hy).1
  have hA : (2 : ℝ) ^ (E + 55) ≤ 2 * r * 2 ^ E := by
    rw [pow_add, mul_comm, pow_succ' 2 54]
    exact mul_le_mul_of_nonneg_right (by exact_mod_cast Nat.mul_le_mul_left 2 hr) hP.le
  have hdvd : (2 : ℤ) ^ (E + 2) ∣ fUnits x := by
    by_contra hndvd
    obtain ⟨z, hz, -, hlt⟩ := exists_multiple_closer (N := (2 * r + 1) * 2 ^ E) hE (by linarith) hndvd
    exact absurd (hnear z hz) (not_le.2 hlt)
  have hmultiple : ∀ y, fIsFinite y = true → (2 : ℤ) ^ (E + 2) ∣ fUnits y →
      (fUnits x : ℝ) = fUnits y ∨ |(fUnits x : ℝ) - Q| < |(fUnits y : ℝ) - Q| := fun y hy hdy => by
    refine eq_or_closer_of_no_midpoint (by linarith) (by linarith) hlo hhi ?_ (hnear y hy)
    have hmid := no_midpoint_of_dvd (s := r) (by positivity) hdvd hdy
    have e1 : 2 * (2 * (r : ℝ) * 2 ^ E) = ((r * 2 ^ (E + 2) : ℤ) : ℝ) := by push_cast; ring
    have e2 : 2 * ((2 * (r : ℝ) + 2) * 2 ^ E) = (((r + 1) * 2 ^ (E + 2) : ℤ) : ℝ) := by push_cast; ring
    rw [e1, e2]
    exact_mod_cast hmid
  have hclose : ∀ y, fIsFinite y = true →
      (fUnits x : ℝ) = fUnits y ∨ |(fUnits x : ℝ) - Q| < |(fUnits y : ℝ) - Q| := fun y hy => by
    by_cases hdy : (2 : ℤ) ^ (E + 2) ∣ fUnits y
    · exact hmultiple y hy hdy
    · obtain ⟨z, hz, hdz, hlt⟩ := exists_multiple_closer hE (hA.trans hlo.le) hdy
      rcases hmultiple z hz hdz with he | hxz
      · exact .inr (by rwa [he])
      · exact .inr (hxz.trans hlt)
  refine ⟨hx.1, fun y hy => ?_⟩
  rw [abs_fValue_sub, abs_fValue_sub, div_le_div_iff_of_pos_right (by positivity), div_left_inj' (by positivity)]
  rcases hclose y hy with he | hlt
  · exact ⟨by rw [he], fun _ => .inl (by rw [fValue, fValue, he])⟩
  · exact ⟨hlt.le, fun he => absurd he hlt.ne⟩

/-! ## The root rounded once -/

/-- Below 2^2097 units nothing overflows: rounding a positive number is finding the nearest value. -/
theorem roundsTo_iff_of_small {Q : ℝ} (hpos : 0 < Q) (hQ : Q < 2 ^ 2097) {x : F64} :
    roundsTo (Q / 2 ^ 1074) x ↔ nearestEven (Q / 2 ^ 1074) x ∧ fSign x = false := by
  have hT : (0 : ℝ) < 2 ^ 1074 := by positivity
  have habs : |Q / 2 ^ 1074| < 2 ^ 1024 - 2 ^ 970 := by
    rw [abs_of_pos (div_pos hpos hT), div_lt_iff₀ hT]
    refine lt_of_lt_of_le hQ ?_
    have h1 : (2 : ℝ) ^ 2097 = 2 ^ 1023 * 2 ^ 1074 := pow_add 2 1023 1074
    have h2 : (2 : ℝ) ^ 1024 = 2 * 2 ^ 1023 := pow_succ' 2 1023
    have h3 : (2 : ℝ) ^ 970 ≤ 2 ^ 1023 := pow_le_pow_right₀ (by norm_num) (by omega)
    rw [h1, h2]
    generalize (2 : ℝ) ^ 1023 = u at *
    generalize (2 : ℝ) ^ 970 = v at *
    exact mul_le_mul_of_nonneg_right (by linarith) hT.le
  have hnot : ¬ Q / 2 ^ 1074 < 0 := not_lt.2 (div_pos hpos hT).le
  rw [roundsTo]
  simp [habs, hnot, not_le.2 habs]

/-- **The root is rounded once.** The integer root with its last bit packs to the real root rounded. -/
theorem pack_stickyRoot_roundsTo {n E : Nat} (hn : 2 ^ 108 ≤ n) (hn' : n < 2 ^ 162) (hE : E ≤ 2000) :
    roundsTo (2 * Real.sqrt n * 2 ^ E / 2 ^ 1074) (pack false (stickyRoot n * 2 ^ E) 0) := by
  have hr : 2 ^ 54 ≤ Nat.sqrt n := Nat.le_sqrt'.2 (by omega)
  have hr' : Nat.sqrt n < 2 ^ 81 := Nat.sqrt_lt'.2 (by omega)
  have hpos : 0 < stickyRoot n * 2 ^ E := Nat.mul_pos (by unfold stickyRoot; omega) (Nat.two_pow_pos E)
  have hpack : roundsTo ((stickyRoot n : ℝ) * 2 ^ E / 2 ^ 1074) (pack false (stickyRoot n * 2 ^ E) 0) := by
    have h := pack_roundsTo hpos false 0
    rw [if_neg (by decide), Nat.add_zero] at h
    exact_mod_cast h
  by_cases hsq : Nat.sqrt n * Nat.sqrt n = n
  · have hroot : Real.sqrt n = Nat.sqrt n := by
      rw [Real.sqrt_eq_iff_mul_self_eq (Nat.cast_nonneg _) (Nat.cast_nonneg _)]
      exact_mod_cast hsq.symm
    rw [stickyRoot, if_pos hsq, Nat.add_zero] at hpack ⊢
    rw [hroot]
    exact_mod_cast hpack
  · have hlo : (Nat.sqrt n : ℝ) < Real.sqrt n := by
      refine lt_of_le_of_ne Real.nat_sqrt_le_real_sqrt fun he => hsq ?_
      have := Real.mul_self_sqrt (Nat.cast_nonneg (α := ℝ) n)
      rw [← he] at this
      exact_mod_cast this
    have hhi : Real.sqrt n < Nat.sqrt n + 1 := Real.real_sqrt_lt_nat_sqrt_succ
    have hst : (stickyRoot n : ℝ) = 2 * Nat.sqrt n + 1 := by
      rw [stickyRoot, if_neg hsq]
      push_cast
      rfl
    have hrR : (Nat.sqrt n : ℝ) + 1 ≤ 2 ^ 81 := by exact_mod_cast hr'
    have hP : (0 : ℝ) < 2 ^ E := by positivity
    have hbound : (2 * (Nat.sqrt n : ℝ) + 2) * 2 ^ E ≤ 2 ^ 2097 := calc
      (2 * (Nat.sqrt n : ℝ) + 2) * 2 ^ E ≤ 2 ^ 82 * 2 ^ E := mul_le_mul_of_nonneg_right (by linarith) hP.le
      _ = 2 ^ (82 + E) := (pow_add 2 82 E).symm
      _ ≤ 2 ^ 2097 := pow_le_pow_right₀ (by norm_num) (by omega)
    have hr0 : (0 : ℝ) ≤ Nat.sqrt n := Nat.cast_nonneg _
    rw [hst, roundsTo_iff_of_small (by positivity) (lt_of_lt_of_le (by gcongr; norm_num) hbound)] at hpack
    rw [roundsTo_iff_of_small (mul_pos (by linarith) hP)
      (lt_of_lt_of_le (mul_lt_mul_of_pos_right (by linarith) hP) hbound)]
    exact ⟨nearestEven_of_sticky hr (by omega) (mul_lt_mul_of_pos_right (by linarith) hP)
      (mul_lt_mul_of_pos_right (by linarith) hP) hpack.1, hpack.2⟩

/-- A positive value has sign bit 0 and a magnitude that is not 0. -/
theorem fSign_eq_false_of_pos {a : F64} (ha : 0 < fValue a) : fSign a = false ∧ fMag a ≠ 0 := by
  have hu : 0 < fUnits a := by
    have := (div_pos_iff_of_pos_right (by positivity : (0 : ℝ) < 2 ^ 1074)).1 ha
    exact_mod_cast this
  rw [fUnits] at hu
  cases hs : fSign a
  · exact ⟨rfl, fun h => by simp [hs, h] at hu⟩
  · rw [hs, if_pos rfl] at hu
    omega

/-- The root of a finite positive value is computed by sqrtMag. -/
theorem fsqrt_of_pos {a : F64} (ha : fIsFinite a = true) (hs : fSign a = false) (hm : fMag a ≠ 0) (n : Nat) :
    fsqrt a n = (sqrtMag a, n) := by
  have hz : ¬ fIsZero a = true := fun h => hm ((fIsZero_iff a).1 h)
  simp [fsqrt, sqrtCore, fIsNaN_of_finite ha, fIsInf_of_finite ha, hs, hz]

/-- Settles O3: the integer root of the scaled significand with its last bit is packed, which rounds the real root once. -/
theorem squareRootRoundsOnce : Obligations.SquareRootRoundsOnce := by
  intro a n ha hpos
  obtain ⟨hs, hm⟩ := fSign_eq_false_of_pos hpos
  have he := fExp_lt a
  refine ⟨_, fsqrt_of_pos ha hs hm n, ?_⟩
  rw [sqrt_fValue hs, sqrtMag_eq]
  exact pack_stickyRoot_roundsTo (le_sqrtRadicand hm) (sqrtRadicand_lt a) (by omega)

end Sys2Proof.Machine
end

section
/-! PROOFS of the statements of 00_scope.md: the signs of zeros (R18), NaN results (R19) and infinities. -/

namespace Sys2Proof.Machine

/-! ## The two zeros and the two infinities, as patterns -/

theorem fZero_eq (neg : Bool) : fZero neg = if neg = true then 0x8000000000000000#64 else 0x0000000000000000#64 := by
  cases neg <;> decide

theorem fInf_eq (neg : Bool) : fInf neg = if neg = true then 0xFFF0000000000000#64 else 0x7FF0000000000000#64 := by
  cases neg <;> decide

theorem fMag_fZero (neg : Bool) : fMag (fZero neg) = 0 := by cases neg <;> decide

theorem fIsZero_fZero (neg : Bool) : fIsZero (fZero neg) = true := (fIsZero_iff _).2 (fMag_fZero neg)

theorem fIsFinite_of_zero {x : F64} (h : fIsZero x = true) : fIsFinite x = true := by
  simp_all [fIsZero, fIsFinite]

theorem fIsZero_of_inf {x : F64} (h : fIsInf x = true) : fIsZero x = false := by
  simp_all [fIsInf, fIsZero]

/-! ## The operations, given what their cores answer -/

theorem fmul_comm (a b : F64) (n : Nat) : fmul a b n = fmul b a n := by rw [fmul, fmul, mulCore_comm]

theorem fadd_comm (a b : F64) (n : Nat) : fadd a b n = fadd b a n := by rw [fadd, fadd, addCore_comm]

theorem fadd_of_none {a b : F64} (h : addCore a b = none) (n : Nat) : fadd a b n = (nanDraw n, n + 1) := by
  rw [fadd, h, drawNaN_none]

theorem fmul_of_none {a b : F64} (h : mulCore a b = none) (n : Nat) : fmul a b n = (nanDraw n, n + 1) := by
  rw [fmul, h, drawNaN_none]

theorem fsqrt_of_none {a : F64} (h : sqrtCore a = none) (n : Nat) : fsqrt a n = (nanDraw n, n + 1) := by
  rw [fsqrt, h, drawNaN_none]

theorem fsqrt_of_some {a x : F64} (h : sqrtCore a = some x) (n : Nat) : fsqrt a n = (x, n) := by
  rw [fsqrt, h, drawNaN_some]

/-! ## Exact zeros and exact values -/

/-- A sum of finite values that is exactly 0 is -0 where both signs are set, and +0 otherwise. -/
theorem fadd_of_sum_zero {a b : F64} (ha : fIsFinite a = true) (hb : fIsFinite b = true)
    (hz : fUnits a + fUnits b = 0) (n : Nat) : fadd a b n = (fZero (fSign a && fSign b), n) := by
  rw [fadd, addCore_finite ha hb, if_pos hz, drawNaN_some]

/-- A product of finite values that is exactly 0 is the zero of the XOR of the signs. -/
theorem fmul_of_product_zero {a b : F64} (ha : fIsFinite a = true) (hb : fIsFinite b = true)
    (hz : fMag a * fMag b = 0) (n : Nat) : fmul a b n = (fZero (fSign a != fSign b), n) := by
  rw [fmul_of_finite ha hb, hz, pack_zero]

/-- A sum of finite values that is not exactly 0 is no zero. -/
theorem fIsZero_fadd {a b : F64} (ha : fIsFinite a = true) (hb : fIsFinite b = true)
    (hz : fUnits a + fUnits b ≠ 0) (n : Nat) : fIsZero (fadd a b n).1 = false := by
  rw [fadd_of_sum_ne_zero ha hb hz]
  exact fIsZero_pack (Int.natAbs_pos.2 hz) _

/-- The sign and the magnitude of a value's units. -/
theorem fUnits_sign_natAbs {x : F64} (hm : fMag x ≠ 0) :
    decide (fUnits x < 0) = fSign x ∧ (fUnits x).natAbs = fMag x := by
  unfold fUnits
  cases fSign x <;> simp [Nat.pos_of_ne_zero hm]

/-- A finite value that is not a zero, plus a zero, is that value bit for bit. -/
theorem fadd_zero_right {x z : F64} (hx : fIsFinite x = true) (hm : fMag x ≠ 0) (hz : fIsZero z = true) (n : Nat) :
    fadd x z n = (x, n) := by
  have hz0 : fUnits z = 0 := (fUnits_eq_zero_iff z).2 ((fIsZero_iff z).1 hz)
  have hx0 : fUnits x ≠ 0 := fun h => hm ((fUnits_eq_zero_iff x).1 h)
  obtain ⟨hsign, habs⟩ := fUnits_sign_natAbs hm
  rw [fadd_of_sum_ne_zero hx (fIsFinite_of_zero hz) (by rwa [hz0, Int.add_zero]), hz0, Int.add_zero, hsign, habs,
    pack_fMag hx]

theorem fMag_fOne : fMag fOne = 2 ^ 1074 := by
  have he : fExp fOne = 1023 := by decide
  have hf : fFrac fOne = 0 := by decide
  rw [fMag, he, hf, if_neg (by decide), Nat.add_zero, ← Nat.pow_add]

/-- A finite value times 1.0 is that value bit for bit. -/
theorem fmul_fOne {x : F64} (hx : fIsFinite x = true) (n : Nat) : fmul x fOne n = (x, n) := by
  have hs : fSign fOne = false := by decide
  rw [fmul_of_finite hx (by decide), fMag_fOne, pack_scale, hs, Bool.bne_false, pack_fMag hx]

/-- Settles O4: an exact zero has the sign that addCore and mulCore give it, and an exact value packs to itself. -/
theorem zeroSignsAndSubnormals : Obligations.ZeroSignsAndSubnormals := by
  refine ⟨fun _ => rfl, fun _ => rfl, fun x n hx => ?_, fun x y n hx hy => ?_, fun a b n ha hb => ?_,
    fun x n hx hm => ?_⟩
  · rw [fsub_eq_fadd_fneg, fadd_of_sum_zero hx (by rwa [fIsFinite_fneg]) (by simp), fSign_fneg, Bool.and_not_self]
    rfl
  · have hz : fMag x * fMag y = 0 := by rw [(fIsZero_iff x).1 hx, Nat.zero_mul]
    exact ⟨_, fmul_of_product_zero (fIsFinite_of_zero hx) (fIsFinite_of_zero hy) hz n, fIsZero_fZero _, fSign_fZero _⟩
  · have hb' : fIsFinite (fneg b) = true := by rwa [fIsFinite_fneg]
    simp only [fsub_eq_fadd_fneg, sub_eq_add_neg, ← fValue_fneg, fValue_add_eq_zero_iff, fValue_mul_eq_zero_iff, ne_eq]
    refine ⟨fun hz => ?_, fun hz => ?_, fun hz => ?_, fun hz => fIsZero_fadd ha hb hz n,
      fun hz => fIsZero_fadd ha hb' hz n⟩
    · rw [fadd_of_sum_zero ha hb hz, fZero_eq]
      simp only [Bool.and_eq_true]
    · rw [fadd_of_sum_zero ha hb' hz, fZero_eq]
      simp only [Bool.and_eq_true, fSign_fneg, Bool.not_eq_true']
    · rw [fmul_of_product_zero ha hb hz, fZero_eq]
      simp
  · exact ⟨fmul_fOne hx n, fadd_zero_right hx hm (by decide) n, fadd_zero_right hx hm (by decide) n⟩

/-! ## NaN results -/

/-- A sum that is not drawn is an operand, a zero or a packed value, and so no NaN. -/
theorem fIsNaN_of_addCore {a b x : F64} (h : addCore a b = some x) : fIsNaN x = false := by
  unfold addCore at h
  split at h
  · cases h
  · rename_i hn
    simp only [Bool.or_eq_true, not_or, Bool.not_eq_true] at hn
    obtain ⟨ha, hb⟩ := hn
    split at h
    · split at h
      · cases h
      · obtain rfl := Option.some.inj h
        exact ha
    · split at h
      · obtain rfl := Option.some.inj h
        exact hb
      · simp only at h
        split at h <;> obtain rfl := Option.some.inj h
        · exact fIsNaN_fZero _
        · exact fIsNaN_pack _ _ _

/-- A product that is not drawn is an infinity or a packed value. -/
theorem fIsNaN_of_mulCore {a b x : F64} (h : mulCore a b = some x) : fIsNaN x = false := by
  unfold mulCore at h
  split at h
  · cases h
  · split at h
    · split at h
      · cases h
      · obtain rfl := Option.some.inj h
        exact fIsNaN_fInf _
    · obtain rfl := Option.some.inj h
      exact fIsNaN_pack _ _ _

/-- A root that is not drawn is the operand, no NaN, or a packed value. -/
theorem fIsNaN_of_sqrtCore {a x : F64} (h : sqrtCore a = some x) : fIsNaN x = false := by
  unfold sqrtCore at h
  split at h
  · cases h
  · rename_i hn
    split at h
    · obtain rfl := Option.some.inj h
      simpa using hn
    · split at h
      · cases h
      · split at h <;> obtain rfl := Option.some.inj h
        · simpa using hn
        · exact fIsNaN_pack _ _ _

/-- Where no answer of the core is a NaN, a NaN result is the next draw, and any other result takes none. -/
theorem drawNaN_nan_iff_drawn {r : Option F64} (hr : ∀ x, r = some x → fIsNaN x = false) (n : Nat) :
    (fIsNaN (drawNaN r n).1 = false → (drawNaN r n).2 = n) ∧
      (fIsNaN (drawNaN r n).1 = true → drawNaN r n = (nanDraw n, n + 1)) := by
  cases r with
  | none => simp [fIsNaN_nanDraw]
  | some x => simp [hr x rfl]

/-- Bit 51 of a drawn NaN, the lowest bit above the payload, is 1 (log 4). -/
theorem getLsbD_nanDraw_quiet (n : Nat) : (nanDraw n).getLsbD 51 = true := by
  rw [nanDraw, BitVec.getLsbD_append (n := 1) (m := 63), if_pos (by decide), BitVec.getLsbD_append (n := 12) (m := 51),
    if_neg (by decide)]
  decide

/-- Two infinities of opposite signs have no sum. -/
theorem addCore_opposite_infs {a b : F64} (ha : fIsInf a = true) (hb : fIsInf b = true) (hs : fSign a ≠ fSign b) :
    addCore a b = none := by
  simp [addCore, fIsNaN_of_inf ha, fIsNaN_of_inf hb, ha, hb, hs]

/-- A zero times an infinity has no product. -/
theorem mulCore_zero_inf {a b : F64} (ha : fIsZero a = true) (hb : fIsInf b = true) : mulCore a b = none := by
  simp [mulCore, fIsNaN_of_finite (fIsFinite_of_zero ha), fIsNaN_of_inf hb, ha, hb]

/-- A value below zero, -inf among them, has no root. -/
theorem sqrtCore_negative {a : F64} (hs : fSign a = true) (hz : fIsZero a = false) : sqrtCore a = none := by
  simp [sqrtCore, hs, hz]

/-- Settles O5: an operand that is a NaN or an invalid operation leaves the core without an answer, which draws; an
answer of the core is never a NaN. -/
theorem naNResultsAreDraws : Obligations.NaNResultsAreDraws := by
  have hadd := fun a b n => drawNaN_nan_iff_drawn (fun _ => fIsNaN_of_addCore (a := a) (b := b)) n
  have hmul := fun a b n => drawNaN_nan_iff_drawn (fun _ => fIsNaN_of_mulCore (a := a) (b := b)) n
  have hsqrt := fun a n => drawNaN_nan_iff_drawn (fun _ => fIsNaN_of_sqrtCore (a := a)) n
  refine ⟨fun a b n h => ⟨fadd_of_none (addCore_of_nan h) n, ?_, fmul_of_none (mulCore_of_nan h) n⟩,
    fun a n h => fsqrt_of_none (sqrtCore_of_nan h) n,
    fun a b n ha hb hs => ?_,
    fun a b n ha hb hs => fadd_of_none (addCore_opposite_infs ha hb hs) n,
    fun a b n ha hb => ?_,
    fun a n hs hz _ => fsqrt_of_none (sqrtCore_negative hs hz) n,
    fun n => ⟨fIsNaN_nanDraw n, getLsbD_nanDraw_quiet n⟩,
    fun a b n => ⟨(hadd a b n).1, (hadd a (fneg b) n).1, (hmul a b n).1, (hsqrt a n).1⟩,
    fun a b n => ⟨(hadd a b n).2, (hadd a (fneg b) n).2, (hmul a b n).2, (hsqrt a n).2⟩⟩
  · exact fadd_of_none (addCore_of_nan (by rwa [fIsNaN_fneg])) n
  · exact fadd_of_none (addCore_opposite_infs ha (by rwa [fIsInf_fneg]) (by simp [hs])) n
  · rw [fmul_comm b a]
    exact ⟨fmul_of_none (mulCore_zero_inf ha hb) n, fmul_of_none (mulCore_zero_inf ha hb) n⟩

/-! ## Infinities -/

/-- An infinity plus what does not cancel it, a finite value or an infinity of its sign, is that infinity. -/
theorem fadd_inf_left {a b : F64} (ha : fIsInf a = true) (hb : fIsNaN b = false)
    (hs : fIsInf b = true → fSign a = fSign b) (n : Nat) : fadd a b n = (a, n) := by
  have hcore : addCore a b = some a := by
    simp only [addCore, fIsNaN_of_inf ha, hb, ha]
    cases hi : fIsInf b
    · rfl
    · simp [hs hi]
  rw [fadd, hcore, drawNaN_some]

/-- An infinity plus a finite value is that infinity. -/
theorem fadd_inf_finite {a b : F64} (ha : fIsInf a = true) (hb : fIsFinite b = true) (n : Nat) :
    fadd a b n = (a, n) :=
  fadd_inf_left ha (fIsNaN_of_finite hb) (by simp [fIsInf_of_finite hb]) n

/-- An infinity times a value that is neither a zero nor a NaN is the infinity of the XOR of the signs. -/
theorem fmul_inf_left {a b : F64} (ha : fIsInf a = true) (hb : fIsNaN b = false) (hz : fIsZero b = false) (n : Nat) :
    fmul a b n = (fInf (fSign a != fSign b), n) := by
  have hcore : mulCore a b = some (fInf (fSign a != fSign b)) := by
    simp [mulCore, fIsNaN_of_inf ha, hb, ha, fIsZero_of_inf ha, hz]
  rw [fmul, hcore, drawNaN_some]

/-- Settles O60: by the operations' rules on an infinity, in either order, and the roots of three patterns. -/
theorem infinitiesAndRootsOfZero : Obligations.InfinitiesAndRootsOfZero := by
  refine ⟨fun a b n ha hb => ?_, fun a b n ha hb => ⟨fun hs => ?_, fun hs => ?_⟩, fun a b n ha hb hz => ?_,
    fun _ => fsqrt_of_some (by decide) _, fun _ => fsqrt_of_some (by decide) _, fun _ => fsqrt_of_some (by decide) _⟩
  · have ha' : fIsInf (fneg a) = true := by rwa [fIsInf_fneg]
    have hb' : fIsFinite (fneg b) = true := by rwa [fIsFinite_fneg]
    rw [fsub_eq_fadd_fneg, fsub_eq_fadd_fneg, fadd_comm b a, fadd_comm b (fneg a)]
    exact ⟨fadd_inf_finite ha hb n, fadd_inf_finite ha hb n, fadd_inf_finite ha hb' n, fadd_inf_finite ha' hb n⟩
  · exact fadd_inf_left ha (fIsNaN_of_inf hb) (fun _ => hs) n
  · exact fadd_inf_left ha (by rw [fIsNaN_fneg, fIsNaN_of_inf hb]) (fun _ => by simp [Bool.eq_not, hs]) n
  · rw [fmul_comm b a, fmul_inf_left ha hb hz, fInf_eq]
    simp

end Sys2Proof.Machine
end

section
/-! PROOFS of the statements of 10_state.md: how each command ends (R48, R50, R115) and what it leaves unchanged (R74,
R81, R116). -/

namespace Sys2Proof.Machine

/-! ## Errors and missing words -/

/-- A cause that is reported holds. -/
theorem exists_of_firstCause {code : ErrCode} {l : List (Prop × ErrCode)} (h : firstCause code l) : ∃ c ∈ l, c.1 := by
  induction l with
  | nil => exact h.elim
  | cons c cs ih =>
    rcases h with ⟨hc, -⟩ | ⟨-, h⟩
    · exact ⟨c, List.mem_cons_self, hc⟩
    · obtain ⟨d, hd, hd'⟩ := ih h
      exact ⟨d, List.mem_cons_of_mem c hd, hd'⟩

theorem not_noError_of_hasError {i : Instr} {s : State} {code : ErrCode} (h : hasError i s code) : ¬ noError i s := by
  obtain ⟨c, hc, hc'⟩ := exists_of_firstCause h
  exact fun hn => hn c hc hc'

theorem missesWord_iff_signalX {i : Instr} (hx : .memX ∈ i.reads) (hy : .memY ∉ i.reads) (s : State) :
    missesWord i s ↔ signalX s s.len.toNat = none := by simp [missesWord, hx, hy, signalX_none_iff]

theorem missesWord_iff_signalY {i : Instr} (hx : .memX ∉ i.reads) (hy : .memY ∈ i.reads) (s : State) :
    missesWord i s ↔ signalY s s.len.toNat = none := by simp [missesWord, hx, hy, signalY_none_iff]

theorem not_missesWord_of_no_signal {i : Instr} (hx : .memX ∉ i.reads) (hy : .memY ∉ i.reads) (s : State) :
    ¬ missesWord i s := by simp [missesWord, hx, hy]

/-! ## The endings of a command -/

/-- `t` is `s` after a command that stores no signal: it has completed, and of R0, R1 and FLAG only what the command's
row of R74 writes has changed. -/
structure ResultsWritten (i : Instr) (s t : State) : Prop where
  completed : ∃ r0 r1 n flag, t = complete { s with r0, r1, nanDraws := n, status := { s.status with flag } }
  r0_eq : .resR0 ∉ i.writes → t.r0 = s.r0
  r1_eq : .resR1 ∉ i.writes → t.r1 = s.r1
  flag_eq : .flag ∉ i.writes → t.status.flag = s.status.flag

/-- The four endings: the first error is reported; the signal has an unwritten word; LEN entries are written from Y[0];
or results are written. -/
def EndsAs (i : Instr) (s : State) (o : Host.Outcome State Fault Refusal) : Prop :=
  (∃ code, hasError i s code ∧ o = .next (raiseCmdError code s)) ∨
  (noError i s ∧ missesWord i s ∧ o = .fault .unwrittenSample) ∨
  (noError i s ∧ ¬ missesWord i s ∧ i ∈ [.bitrev, .dft, .stage, .fft] ∧
    ∃ wk : Work, wk.a.length = s.len.toNat ∧ o = .next (complete (writeY wk s))) ∨
  (noError i s ∧ ¬ missesWord i s ∧ i ∉ [.bitrev, .dft, .stage, .fft] ∧ ∃ t, o = .next t ∧ ResultsWritten i s t)

theorem bitrev_endsAs (s : State) : EndsAs .bitrev s (exec .bitrev s) := by
  have misses := missesWord_iff_signalX (i := .bitrev) (by decide) (by decide) s
  rcases execBitrev_cases s with ⟨h, e⟩ | ⟨h₁, h₂, e⟩ | ⟨h₁, h₂, hx, e⟩ | ⟨h₁, h₂, x, hx, e⟩
  · exact .inl ⟨_, .inl ⟨h, rfl⟩, e⟩
  · exact .inl ⟨_, .inr ⟨h₁, .inl ⟨h₂, rfl⟩⟩, e⟩
  · exact .inr (.inl ⟨by simp [noError, causes, h₁, h₂], misses.2 hx, e⟩)
  · exact .inr (.inr (.inl ⟨by simp [noError, causes, h₁, h₂], by simp [misses, hx], by decide, _,
      (bitrevPerm_length x _).trans (signalX_length hx), e⟩))

theorem dft_endsAs (s : State) : EndsAs .dft s (exec .dft s) := by
  have misses := missesWord_iff_signalX (i := .dft) (by decide) (by decide) s
  rcases execDft_cases s with ⟨h, e⟩ | ⟨h, hx, e⟩ | ⟨h, x, hx, e⟩
  · exact .inl ⟨_, .inl ⟨h, rfl⟩, e⟩
  · exact .inr (.inl ⟨by simp [noError, causes, h], misses.2 hx, e⟩)
  · exact .inr (.inr (.inl ⟨by simp [noError, causes, h], by simp [misses, hx], by decide, _,
      by simp [dft_length, startWork], e⟩))

theorem stage_endsAs (s : State) : EndsAs .stage s (exec .stage s) := by
  have misses := missesWord_iff_signalY (i := .stage) (by decide) (by decide) s
  rcases execStage_cases s with ⟨h, e⟩ | ⟨h₁, h₂, e⟩ | ⟨h₁, h₂, h₃, e⟩ | ⟨h₁, h₂, h₃, hy, e⟩ | ⟨h₁, h₂, h₃, y, hy, e⟩
  · exact .inl ⟨_, .inl ⟨h, rfl⟩, e⟩
  · exact .inl ⟨_, .inr ⟨h₁, .inl ⟨h₂, rfl⟩⟩, e⟩
  · exact .inl ⟨_, .inr ⟨h₁, .inr ⟨h₂, .inl ⟨h₃, rfl⟩⟩⟩, e⟩
  · exact .inr (.inl ⟨by simp [noError, causes, h₁, h₂, h₃], misses.2 hy, e⟩)
  · exact .inr (.inr (.inl ⟨by simp [noError, causes, h₁, h₂, h₃], by simp [misses, hy], by decide, _,
      (stage_length ..).trans (signalY_length hy), e⟩))

theorem fft_endsAs (s : State) : EndsAs .fft s (exec .fft s) := by
  have misses := missesWord_iff_signalX (i := .fft) (by decide) (by decide) s
  rcases execFft_cases s with ⟨h, e⟩ | ⟨h₁, h₂, e⟩ | ⟨h₁, h₂, hx, e⟩ | ⟨h₁, h₂, x, hx, e⟩
  · exact .inl ⟨_, .inl ⟨h, rfl⟩, e⟩
  · exact .inl ⟨_, .inr ⟨h₁, .inl ⟨h₂, rfl⟩⟩, e⟩
  · exact .inr (.inl ⟨by simp [noError, causes, h₁, h₂], misses.2 hx, e⟩)
  · exact .inr (.inr (.inl ⟨by simp [noError, causes, h₁, h₂], by simp [misses, hx], by decide, _,
      (runStages_length ..).trans ((bitrevPerm_length x _).trans (signalX_length hx)), e⟩))

/-- A command that writes R0 and neither R1 nor FLAG. -/
theorem resultsWritten_r0 {i : Instr} (hi : i.writes = [.resR0]) (s : State) (r : C64 × Nat) :
    ResultsWritten i s (complete (writeR0 r s)) :=
  ⟨⟨r.1, s.r1, r.2, s.status.flag, rfl⟩, fun h => by simp [hi] at h, fun _ => rfl, fun _ => rfl⟩

theorem twid_endsAs (s : State) : EndsAs .twid s (exec .twid s) := by
  rcases execTwid_cases s with ⟨h, e⟩ | ⟨h, e⟩
  · exact .inl ⟨_, .inl ⟨h, rfl⟩, e⟩
  · exact .inr (.inr (.inr ⟨by simp only [noError, causes]; simpa using h,
      not_missesWord_of_no_signal (by decide) (by decide) s, by decide, _, e, resultsWritten_r0 rfl s _⟩))

/-- Every command ends in one of the four ways. -/
theorem exec_endsAs (i : Instr) (s : State) : EndsAs i s (exec i s) := by
  have results : ∀ {t}, causes i s = [] → .memX ∉ i.reads → .memY ∉ i.reads → i ∉ [.bitrev, .dft, .stage, .fft] →
      exec i s = .next t → ResultsWritten i s t → EndsAs i s (exec i s) := fun hc hx hy hi e hr =>
    .inr (.inr (.inr ⟨by simp [noError, hc], not_missesWord_of_no_signal hx hy s, hi, _, e, hr⟩))
  cases i with
  | bitrev => exact bitrev_endsAs s
  | dft => exact dft_endsAs s
  | stage => exact stage_endsAs s
  | fft => exact fft_endsAs s
  | twid => exact twid_endsAs s
  | nop =>
    exact results rfl (by decide) (by decide) (by decide) rfl
      ⟨⟨s.r0, s.r1, s.nanDraws, s.status.flag, rfl⟩, fun _ => rfl, fun _ => rfl, fun _ => rfl⟩
  | ispow2 =>
    exact results rfl (by decide) (by decide) (by decide) rfl
      ⟨⟨s.r0, s.r1, s.nanDraws, isPow2 s.len, rfl⟩, fun _ => rfl, fun _ => rfl, fun h => absurd h (by decide)⟩
  | cbfly =>
    exact results rfl (by decide) (by decide) (by decide) rfl
      ⟨⟨_, _, _, s.status.flag, rfl⟩, fun h => absurd h (by decide), fun h => absurd h (by decide), fun _ => rfl⟩
  | cadd | csub | cmul | cscale | cconj | cnorm =>
    exact results rfl (by decide) (by decide) (by decide) rfl (resultsWritten_r0 rfl s _)

/-! ## The frames -/

theorem resR1_not_mem_writes {i : Instr} (h : i ≠ .cbfly) : .resR1 ∉ i.writes := by revert h; cases i <;> decide

theorem flag_not_mem_writes {i : Instr} (h : i ≠ .ispow2) : .flag ∉ i.writes := by revert h; cases i <;> decide

theorem raiseCmdError_frame (code : ErrCode) (s : State) :
    operandsKept s (raiseCmdError code s) ∧ hostSideKept s (raiseCmdError code s) := by
  simp [operandsKept, hostSideKept]

theorem writeY_frame (wk : Work) (s : State) :
    operandsKept s (complete (writeY wk s)) ∧ hostSideKept s (complete (writeY wk s)) := by
  simp [operandsKept, hostSideKept]

theorem ResultsWritten.frame {i : Instr} {s t : State} (h : ResultsWritten i s t) :
    operandsKept s t ∧ hostSideKept s t ∧ t.seq = s.seq ∧ t.mem = s.mem ∧ t.status.haz = s.status.haz ∧
      t.status = { s.status.completed with flag := t.status.flag } := by
  obtain ⟨r0, r1, n, flag, rfl⟩ := h.completed
  simp [operandsKept, hostSideKept, Status.completed]

/-- Settles O52: by the four endings of a command. -/
theorem commandsCompleteUnlessAWordIsUnwritten : Obligations.CommandsCompleteUnlessAWordIsUnwritten := by
  intro i s
  rcases exec_endsAs i s with ⟨code, he, e⟩ | ⟨hn, hm, e⟩ | ⟨hn, hm, -, wk, -, e⟩ | ⟨hn, hm, -, t, e, ht⟩
  · have hn := not_noError_of_hasError he
    exact ⟨fun h => absurd h hn, fun h => absurd h hn, by simp [e]⟩
  · exact ⟨fun _ h => absurd hm h, fun _ _ => e, by simp [e]⟩
  · exact ⟨fun _ _ => ⟨_, e, rfl⟩, fun _ h => absurd h hm, by simp [e]⟩
  · obtain ⟨-, -, -, -, -, hs⟩ := ht.frame
    exact ⟨fun _ _ => ⟨t, e, hs⟩, fun _ h => absurd h hm, by simp [e]⟩

/-- Settles O53: what is left of the row of R74 is unchanged, and an error writes nothing. -/
theorem registerCommandsFrame : Obligations.RegisterCommandsFrame := by
  intro i s t hi e
  have hT : i ∉ [.bitrev, .dft, .stage, .fft] := by revert hi; cases i <;> decide
  rcases exec_endsAs i s with ⟨code, -, e'⟩ | ⟨-, -, e'⟩ | ⟨-, -, h, -⟩ | ⟨-, -, -, u, e', hu⟩
  · obtain rfl : raiseCmdError code s = t := by simpa [e'] using e
    obtain ⟨ho, hh⟩ := raiseCmdError_frame code s
    exact ⟨ho, hh, rfl, fun _ => rfl, fun _ => rfl, fun _ => rfl, fun _ => rfl, rfl⟩
  · simp [e'] at e
  · exact absurd h hT
  · obtain rfl : u = t := by simpa [e'] using e
    obtain ⟨ho, hh, hq, hm, hz, -⟩ := hu.frame
    exact ⟨ho, hh, hq, fun _ => by rw [hm], fun h => hu.r0_eq (by rcases h with rfl | rfl <;> decide),
      fun h => hu.r1_eq (resR1_not_mem_writes h), fun h => hu.flag_eq (flag_not_mem_writes h), hz⟩

/-- Settles O54: an error writes nothing, and without one only the LEN entries from Y[0] are stored. -/
theorem transformsFrame : Obligations.TransformsFrame := by
  intro i s t hi e
  rcases exec_endsAs i s with ⟨code, -, e'⟩ | ⟨-, -, e'⟩ | ⟨hn, -, -, wk, hl, e'⟩ | ⟨-, -, h, -⟩
  · obtain rfl : raiseCmdError code s = t := by simpa [e'] using e
    obtain ⟨ho, hh⟩ := raiseCmdError_frame code s
    exact ⟨ho, hh, rfl, rfl, rfl, rfl, fun _ _ => rfl⟩
  · simp [e'] at e
  · obtain rfl : complete (writeY wk s) = t := by simpa [e'] using e
    obtain ⟨ho, hh⟩ := writeY_frame wk s
    exact ⟨ho, hh, rfl, rfl, rfl, rfl, fun b hb => memByte_memPutSignal_outside (by
      have := hb hn
      rwa [hl])⟩
  · exact absurd hi h

end Sys2Proof.Machine
end

section
/-! PROOFS of the statements of 10_state.md: what a step changes: ID (R28), X (R45), a running command's inputs (R51). -/

namespace Sys2Proof.Machine

/-! ## The core's turn -/

/-- A command that ends keeps the operands and every byte below Y, and clears BUSY. -/
theorem exec_next_keeps {i : Instr} {s t : State} (e : exec i s = .next t) :
    operandsKept s t ∧ t.status.busy = false ∧ ∀ x < yBase, memByte t.mem x = memByte s.mem x := by
  rcases exec_endsAs i s with ⟨code, -, e'⟩ | ⟨-, -, e'⟩ | ⟨-, -, -, wk, -, e'⟩ | ⟨-, -, -, u, e', hu⟩
  · obtain rfl : raiseCmdError code s = t := by simpa [e'] using e
    exact ⟨(raiseCmdError_frame code s).1, rfl, fun _ _ => rfl⟩
  · simp [e'] at e
  · obtain rfl : complete (writeY wk s) = t := by simpa [e'] using e
    exact ⟨(writeY_frame wk s).1, rfl, fun x hx => memByte_memPutSignal_outside (.inl hx)⟩
  · obtain rfl : u = t := by simpa [e'] using e
    obtain ⟨ho, -, -, hm, -, hs⟩ := hu.frame
    exact ⟨ho, by rw [hs]; rfl, fun x _ => by rw [hm]⟩

/-- The core's turn changes nothing while idle; while BUSY it clears BUSY and keeps the operands and the bytes below Y. -/
theorem coreTurn_next_cases {s t : State} (e : coreTurn s = .next t) :
    (s.status.busy = false ∧ t = s) ∨
    (s.status.busy = true ∧ operandsKept s t ∧ t.status.busy = false ∧
      ∀ x < yBase, memByte t.mem x = memByte s.mem x) := by
  rcases coreTurn_cases s with ⟨hb, e'⟩ | ⟨hb, i, -, e'⟩ | ⟨hb, why, -, e'⟩
  · obtain rfl : s = t := by simpa [e'] using e
    exact .inl ⟨hb, rfl⟩
  · exact .inr ⟨hb, exec_next_keeps (e' ▸ e)⟩
  · obtain rfl : raiseCmdError .illegalCmd s = t := by simpa [e'] using e
    exact .inr ⟨hb, (raiseCmdError_frame _ s).1, rfl, fun _ _ => rfl⟩

/-! ## The host's transactions -/

/-- A transaction that is answered changes the response and the model's draw count alone, or is a served write. -/
theorem hostStep_next_cases {tr : Transaction} {s u : State} (e : hostStep tr s = .next u) :
    (∃ r n, u = { s with resp := r, readDraws := n }) ∨
    (∃ p, served s.pMax tr = some p ∧ tr.kind = .write ∧
      u = (memWrite p tr.wdata s).withResp (some writeResponse)) := by
  rcases hostStep_cases tr s with ⟨-, e'⟩ | ⟨p, -, -, e'⟩ | ⟨p, hp, hk, e'⟩
  · rw [e'] at e
    cases e
    exact .inl ⟨_, s.readDraws, rfl⟩
  · rw [e'] at e
    rcases memRead_cases p s with ⟨v, e''⟩ | ⟨-, v, e''⟩ | ⟨_, -, -, e''⟩
    · rw [e''] at e
      cases e
      exact .inl ⟨_, s.readDraws, rfl⟩
    · rw [e''] at e
      cases e
      exact .inl ⟨_, _, rfl⟩
    · simp [e''] at e
  · rw [e'] at e
    cases e
    exact .inr ⟨p, hp, hk, rfl⟩

@[simp] theorem writeReg_pMax (s : State) (r : RegName) (v : Word) : (writeReg s r v).pMax = s.pMax := by
  cases r <;> rfl

@[simp] theorem writeReg_mem (s : State) (r : RegName) (v : Word) : (writeReg s r v).mem = s.mem := by
  cases r <;> rfl

theorem hostStep_pMax {tr : Transaction} {s u : State} (e : hostStep tr s = .next u) : u.pMax = s.pMax := by
  rcases hostStep_next_cases e with ⟨r, n, rfl⟩ | ⟨p, -, -, rfl⟩
  · rfl
  · rcases memWrite_cases p tr.wdata s with ⟨-, -, h⟩ | ⟨r, -, -, h⟩ | ⟨-, h⟩ | ⟨-, a, -, h⟩ <;> simp [h]

/-- What stands at a mapped address, and where (R55). -/
theorem placeAt_cases {p : PMax} {a : Nat} {q : Place} (h : placeAt p a = some q) :
    (a < regsEnd ∧ (q = .reserved ∨ ∃ r, q = .reg r)) ∨
    ((xBase ≤ a ∧ a < xBase + 16 * p.nMax) ∧ q = .xWord a) ∨
    ((yBase ≤ a ∧ a < yBase + 16 * p.nMax) ∧ q = .yWord a) := by
  unfold placeAt at h
  split at h
  · rename_i hr
    obtain rfl := Option.some.inj h
    cases regAt a with
    | none => exact .inl ⟨hr, .inl rfl⟩
    | some r => exact .inl ⟨hr, .inr ⟨r, rfl⟩⟩
  · split at h
    · exact .inr (.inl ⟨‹_›, (Option.some.inj h).symm⟩)
    · split at h
      · exact .inr (.inr ⟨‹_›, (Option.some.inj h).symm⟩)
      · cases h

/-- A served transaction has size 8 and an aligned, mapped address (R56). -/
theorem served_some {p : PMax} {tr : Transaction} {q : Place} (h : served p tr = some q) :
    tr.size = .eight ∧ tr.addr.toNat % 8 = 0 ∧ placeAt p tr.addr.toNat = some q := by
  unfold served at h
  split at h
  · cases h
  · split at h
    · cases h
    · exact ⟨by simp_all, by simp_all, h⟩

theorem served_word {p : PMax} {tr : Transaction} {a : Nat} {q : Place} (hq : q = .xWord a ∨ q = .yWord a)
    (h : served p tr = some q) : tr.size = .eight ∧ tr.addr.toNat = a := by
  obtain ⟨hs, -, hp⟩ := served_some h
  refine ⟨hs, ?_⟩
  rcases placeAt_cases hp with ⟨-, rfl | ⟨r, rfl⟩⟩ | ⟨-, rfl⟩ | ⟨-, rfl⟩
  · simp at hq
  · simp at hq
  · simpa using hq
  · simpa using hq

/-- A transaction leaves memory alone, or is an idle host's 8-byte write of a word of X or Y. -/
theorem hostStep_mem {tr : Transaction} {s u : State} (e : hostStep tr s = .next u) :
    u.mem = s.mem ∨ (s.status.busy = false ∧ tr.kind = .write ∧ tr.size = .eight ∧
      u.mem = memPutWord s.mem tr.addr.toNat tr.wdata) := by
  rcases hostStep_next_cases e with ⟨r, n, rfl⟩ | ⟨p, hp, hk, rfl⟩
  · exact .inl rfl
  · rcases memWrite_cases p tr.wdata s with ⟨-, -, h⟩ | ⟨r, -, -, h⟩ | ⟨-, h⟩ | ⟨hb, a, ha, h⟩
    · exact .inl (by simp [h])
    · exact .inl (by simp [h])
    · exact .inl (by simp [h])
    · obtain ⟨hs, rfl⟩ := served_word ha hp
      exact .inr ⟨hb, hk, hs, by simp [h]⟩

/-- While BUSY a transaction changes IRQ_EN, STATUS without BUSY and FLAG, the response and the draw count alone
(R133). -/
theorem hostStep_busy {tr : Transaction} {s u : State} (hb : s.status.busy = true) (e : hostStep tr s = .next u) :
    ∃ irqEn status resp readDraws, u = { s with irqEn, status, resp, readDraws } ∧ status.flag = s.status.flag := by
  rcases hostStep_next_cases e with ⟨r, n, rfl⟩ | ⟨p, -, -, rfl⟩
  · exact ⟨s.irqEn, s.status, r, n, rfl, rfl⟩
  · rcases memWrite_cases p tr.wdata s with ⟨-, -, h⟩ | ⟨r, rfl, hg, h⟩ | ⟨-, h⟩ | ⟨hi, -⟩
    · exact ⟨s.irqEn, { s.status with haz := true }, _, s.readDraws, by rw [h]; rfl, rfl⟩
    · rw [h]
      cases r with
      | id | r0Re | r0Im | r1Re | r1Im => exact ⟨s.irqEn, s.status, _, s.readDraws, rfl, rfl⟩
      | ctrl => exact ⟨_, s.status, _, s.readDraws, rfl, rfl⟩
      | status => exact ⟨s.irqEn, _, _, s.readDraws, rfl, rfl⟩
      | _ => simp [hb, Place.guarded] at hg
    · exact ⟨s.irqEn, s.status, _, s.readDraws, by rw [h]; rfl, rfl⟩
    · simp [hb] at hi

/-! ## Steps -/

theorem coreTurn_pMax {s t : State} (e : coreTurn s = .next t) : t.pMax = s.pMax := by
  rcases coreTurn_next_cases e with ⟨-, rfl⟩ | ⟨-, ⟨hp, -⟩, -⟩
  · rfl
  · exact hp

theorem step_pMax {s t : State} (e : step s = .next t) : t.pMax = s.pMax := by
  rcases step_cases s with ⟨-, e'⟩ | ⟨rest, -, e'⟩ | ⟨tr, rest, -, e'⟩ <;> rw [e'] at e
  · exact coreTurn_pMax e
  · exact coreTurn_pMax (s := s.withAgenda rest) e
  · exact hostStep_pMax (s := s.withAgenda rest) e

/-- ID's word, as a number (R28). -/
theorem idWord_eq (p : PMax) : idWord p = BitVec.ofNat 64 (0x0100 + p.val) := by
  obtain ⟨n, h₁, h₂⟩ := p
  simp only [idWord]
  interval_cases n <;> decide

/-- A register whose reads are never draws answers its word, BUSY or not (R134). -/
theorem memRead_reg_stable {r : RegName} (hu : (Place.reg r).unstable = false) (hr : r ≠ .status) (s : State) :
    memRead (.reg r) s = answerRead (readReg s r) s := by
  cases r with
  | status => exact absurd rfl hr
  | _ => exact if_neg (by simp [hu])

/-- Settles O7: ID is read at offset 0, and no step changes P_MAX. -/
theorem idIsConstant : Obligations.IdIsConstant := by
  refine ⟨fun s => ?_, fun s t r e hr => ?_⟩
  · rw [← idWord_eq]
    exact (hostStep_read_offset s 0#64 .id).trans (memRead_reg_stable rfl (by decide) s)
  · subst hr
    exact congrArg idWord (step_pMax e)

/-- The core's turn stores nothing below Y: no command writes X (R45). -/
theorem coreTurn_x {s t : State} (e : coreTurn s = .next t) {x : Nat} (hx : x < yBase) :
    memByte t.mem x = memByte s.mem x := by
  rcases coreTurn_next_cases e with ⟨-, rfl⟩ | ⟨-, -, -, hm⟩
  · rfl
  · exact hm x hx

/-- Settles O14: the core's turn keeps X, and a host step stores the one word it writes, while idle. -/
theorem xChangesOnlyByAnIdleHostWrite : Obligations.XChangesOnlyByAnIdleHostWrite := by
  intro s t x e hx hne
  rcases step_cases s with ⟨-, e'⟩ | ⟨rest, -, e'⟩ | ⟨tr, rest, ha, e'⟩ <;> rw [e'] at e
  · exact absurd (coreTurn_x e hx) hne
  · exact absurd (coreTurn_x e hx) hne
  · rcases hostStep_mem e with hm | ⟨hb, hk, hs, hm⟩
    · exact absurd (congrArg (memByte · x) hm) hne
    · refine ⟨hb, tr, rest, ha, hk, hs, ?_⟩
      by_contra hout
      exact hne (by rw [hm]; exact memByte_memPutWord_outside (by omega))

/-- What a step from a BUSY state keeps: the inputs, and while BUSY lasts PCMD, Y and the results (R51). -/
def inputsKept (s t : State) : Prop :=
  (t.len = s.len ∧ t.k = s.k ∧ t.m = s.m ∧ t.s = s.s ∧ t.a = s.a ∧ t.b = s.b ∧ t.w = s.w) ∧
  (∀ x < yBase, memByte t.mem x = memByte s.mem x) ∧
  (t.status.busy = true → t.pcmd = s.pcmd ∧ (∀ x, memByte t.mem x = memByte s.mem x) ∧
    t.r0 = s.r0 ∧ t.r1 = s.r1 ∧ t.status.flag = s.status.flag)

theorem coreTurn_inputsKept {s t : State} (hb : s.status.busy = true) (e : coreTurn s = .next t) : inputsKept s t := by
  rcases coreTurn_next_cases e with ⟨hi, -⟩ | ⟨-, ⟨-, -, hops⟩, ht, hx⟩
  · simp [hb] at hi
  · exact ⟨hops, hx, fun h => by simp [ht] at h⟩

theorem hostStep_inputsKept {tr : Transaction} {s t : State} (hb : s.status.busy = true) (e : hostStep tr s = .next t) :
    inputsKept s t := by
  obtain ⟨irqEn, status, resp, readDraws, rfl, hf⟩ := hostStep_busy hb e
  exact ⟨⟨rfl, rfl, rfl, rfl, rfl, rfl, rfl⟩, fun _ _ => rfl, fun _ => ⟨rfl, fun _ => rfl, rfl, rfl, hf⟩⟩

/-- Settles O18: the core's turn ends BUSY and keeps the inputs; a host step while BUSY keeps them and the outputs. -/
theorem inputsAreStableWhileBusy : Obligations.InputsAreStableWhileBusy := by
  intro s t hb e
  rcases step_cases s with ⟨-, e'⟩ | ⟨rest, -, e'⟩ | ⟨tr, rest, -, e'⟩ <;> rw [e'] at e
  · exact coreTurn_inputsKept hb e
  · exact coreTurn_inputsKept (s := s.withAgenda rest) hb e
  · exact hostStep_inputsKept (s := s.withAgenda rest) hb e

end Sys2Proof.Machine
end

section
/-! PROOFS of the statements of 10_state.md: the registers of the window (R26 to R42), acceptance (R49), completion (R50)
and reset (R53). -/

namespace Sys2Proof.Machine

/-! ## Writes of the window -/

/-- A write that R133 does not guard acts, BUSY or not. -/
theorem memWrite_reg_unguarded {r : RegName} (h : (Place.reg r).guarded = false) (v : Word) (s : State) :
    memWrite (.reg r) v s = writeReg s r v := if_neg (by simp [h])

theorem memWrite_readOnly {r : RegName} (h : r.access = .ro) (v : Word) (s : State) : memWrite (.reg r) v s = s := by
  cases r with
  | id | r0Re | r0Im | r1Re | r1Im => exact memWrite_reg_unguarded rfl v s
  | _ => cases h

theorem memWrite_reserved (v : Word) (s : State) : memWrite .reserved v s = s := if_neg (by simp [Place.guarded])

theorem memRead_reserved (s : State) : memRead .reserved s = answerRead 0#64 s := if_neg (by simp [Place.unstable])

/-- Settles O8: CTRL is neither guarded nor unstable. -/
theorem ctrlStoresIrqEnAlone : Obligations.CtrlStoresIrqEnAlone := by
  intro s v
  refine ⟨⟨none, ?_⟩, ?_⟩
  · refine (hostStep_write_offset s v .ctrl).trans ?_
    rw [memWrite_reg_unguarded rfl]
    rfl
  · refine (hostStep_read_offset s v .ctrl).trans ((memRead_reg_stable rfl (by decide) s).trans ?_)
    have hw : readReg s .ctrl = if s.irqEn then 1#64 else 0#64 := by
      show ctrlWord s.irqEn = _
      cases s.irqEn <;> decide
    rw [hw]
    rfl

/-- The five flags of STATUS, in the order of their bits (R31 to R35). -/
theorem getLsbD_statusWord (st : Status) {i : Nat} (hi : i < 5) :
    (statusWord st).getLsbD i = [st.busy, st.done, st.err, st.haz, st.flag][i] := by
  rw [statusWord]
  iterate 7 rw [BitVec.getLsbD_append]
  interval_cases i <;> simp

/-- Settles O9: field by field through the appended bits. -/
theorem statusWordLayout : Obligations.StatusWordLayout := by
  refine ⟨fun st => ⟨getLsbD_statusWord st (by decide), getLsbD_statusWord st (by decide),
    getLsbD_statusWord st (by decide), getLsbD_statusWord st (by decide), getLsbD_statusWord st (by decide),
    ?_, ?_, BitVec.extractLsb'_append_eq_left⟩, rfl, rfl, rfl, rfl, rfl, rfl⟩
  · rw [statusWord, BitVec.extractLsb'_append_eq_of_add_le (by decide),
      BitVec.extractLsb'_append_eq_of_add_le (by decide)]
    exact BitVec.extractLsb'_append_eq_left
  · rw [statusWord, BitVec.extractLsb'_append_eq_of_add_le (by decide)]
    exact BitVec.extractLsb'_append_eq_left

/-- Settles O10: STATUS is not guarded, and a write of it is `Status.w1c`. -/
theorem statusWriteClearsNamedBits : Obligations.StatusWriteClearsNamedBits := by
  intro s v
  refine ⟨none, (hostStep_write_offset s v .status).trans ?_⟩
  rw [memWrite_reg_unguarded rfl]
  have clear : ∀ b c : Bool, (b && !c) = if c then false else b := by decide
  rw [writeReg, Status.w1c, clear, clear, clear]
  rfl

/-! ## The operand registers -/

/-- A write of a register other than CMD shows in no other register. -/
theorem readReg_writeReg_of_ne {r q : RegName} (hr : r ≠ .cmd) (hq : q ≠ r) (s : State) (v : Word) :
    readReg (writeReg s r v) q = readReg s q := by
  cases r <;> cases q <;> simp_all [readReg, writeReg]

/-- An operand register, written and read while idle. -/
theorem operand_write_then_read {s : State} (hb : s.status.busy = false) {r : RegName} (hr : r ≠ .cmd)
    {v : Word} (hu : (writeReg s r v).status.busy = false) (hv : readReg (writeReg s r v) r = v) :
    (∃ d, hostStep ⟨.write, BitVec.ofNat 32 r.offset, .eight, v⟩ s =
      .next { writeReg s r v with resp := some ⟨.okay, d⟩ }) ∧
    hostStep ⟨.read, BitVec.ofNat 32 r.offset, .eight, 0#64⟩ (writeReg s r v) =
      .next { writeReg s r v with resp := some ⟨.okay, some v⟩ } ∧
    ∀ q, q ≠ r → readReg (writeReg s r v) q = readReg s q := by
  refine ⟨⟨none, ?_⟩, ?_, fun q hq => readReg_writeReg_of_ne hr hq s v⟩
  · rw [hostStep_write_offset, memWrite_reg_idle hb]
    rfl
  · rw [hostStep_read_offset, memRead_reg_idle hu, hv]
    rfl

/-- Settles O11: each of the ten is an idle write of its register. -/
theorem operandRegistersHoldEveryValue : Obligations.OperandRegistersHoldEveryValue := by
  intro s u v r addr hb h
  obtain ⟨hr, rfl, rfl, hu, hv⟩ : r ≠ .cmd ∧ addr = BitVec.ofNat 32 r.offset ∧ u = writeReg s r v ∧
      (writeReg s r v).status.busy = false ∧ readReg (writeReg s r v) r = v := by
    simp only [List.mem_cons, Prod.mk.injEq, List.not_mem_nil, or_false] at h
    rcases h with ⟨rfl, rfl, rfl⟩ | ⟨rfl, rfl, rfl⟩ | ⟨rfl, rfl, rfl⟩ | ⟨rfl, rfl, rfl⟩ | ⟨rfl, rfl, rfl⟩ |
      ⟨rfl, rfl, rfl⟩ | ⟨rfl, rfl, rfl⟩ | ⟨rfl, rfl, rfl⟩ | ⟨rfl, rfl, rfl⟩ | ⟨rfl, rfl, rfl⟩
    all_goals exact ⟨by decide, rfl, rfl, hb, rfl⟩
  exact operand_write_then_read hb hr hu hv

/-! ## The read-only and reserved offsets -/

theorem regAt_reserved {a : Nat} (h : 0x90 ≤ a) : regAt a = none := by
  rw [regAt, List.find?_eq_none]
  intro r _
  have : r.offset ≤ 0x88 := by cases r <;> decide
  simp
  omega

theorem placeAt_reserved {a : Nat} (h : 0x90 ≤ a ∧ a < 0x100) (p : PMax) : placeAt p a = some .reserved := by
  rw [placeAt_regs h.2, regAt_reserved h.1]

theorem hostStep_write_of_ignored {s : State} {addr : BitVec 32} {q : Place} {v : Word} (h8 : addr.toNat % 8 = 0)
    (hq : placeAt s.pMax addr.toNat = some q) (hw : memWrite q v s = s) :
    hostStep ⟨.write, addr, .eight, v⟩ s = .next { s with resp := some ⟨.okay, none⟩ } := by
  rw [hostStep, served_eq rfl h8, hq]
  simp only [hw]
  rfl

/-- Settles O12: by what stands at the offset. -/
theorem readOnlyAndReservedIgnoreWrites : Obligations.ReadOnlyAndReservedIgnoreWrites := by
  intro s v addr h8
  refine ⟨fun h => ⟨none, ?_⟩, fun h => ?_⟩
  · by_cases hres : 0x90 ≤ addr.toNat
    · exact hostStep_write_of_ignored h8 (placeAt_reserved (by omega) _) (memWrite_reserved v s)
    · have ignored : ∀ r : RegName, r.access = .ro → addr.toNat = r.offset → _ := fun r hr hoff =>
        hostStep_write_of_ignored (s := s) (v := v) h8 (hoff ▸ placeAt_offset s.pMax r) (memWrite_readOnly hr v s)
      obtain h | h | h | h | h : addr.toNat = 0x00 ∨ addr.toNat = 0x70 ∨ addr.toNat = 0x78 ∨ addr.toNat = 0x80 ∨
        addr.toNat = 0x88 := by omega
      · exact ignored .id rfl h
      · exact ignored .r0Re rfl h
      · exact ignored .r0Im rfl h
      · exact ignored .r1Re rfl h
      · exact ignored .r1Im rfl h
  · rw [hostStep, served_eq rfl h8, placeAt_reserved (a := addr.toNat) (by omega)]
    exact memRead_reserved s

/-! ## Acceptance and completion -/

/-- Settles O16: CMD is an idle register, and its write is `accept`. -/
theorem cmdWriteWhileIdleIsAcceptance : Obligations.CmdWriteWhileIdleIsAcceptance := by
  intro s v hb
  refine ⟨none, (hostStep_write_offset s v .cmd).trans ?_⟩
  rw [memWrite_reg_idle hb]
  rfl

theorem coreTurn_command {s : State} {i : Instr} (hb : s.status.busy = true) (hd : decode s.pcmd = .command i) :
    coreTurn s = exec i s := by
  simp [coreTurn, hb, completion, hd]

theorem decode_encode_command (i : Instr) : decode (encode i) = .command i := by cases i <;> decide

/-- A word placed whole is the command register's content. -/
theorem tableWord_toNat (v : Word) : tableWord 64 v.toNat = v := by
  rw [tableWord, Nat.mod_eq_of_lt v.isLt, BitVec.ofNat_toNat, BitVec.setWidth_eq]

/-- Settles O17: the turn is the core's, with or without an entry of the agenda, and PCMD decodes to the command. -/
theorem coreTurnRunsTheDecodedCommand : Obligations.CoreTurnRunsTheDecodedCommand := by
  refine ⟨fun s i hb hd => ⟨fun ha => ?_, fun rest ha => ?_⟩, fun s i => ?_⟩
  · rw [step, nextMove, ha]
    exact coreTurn_command hb hd
  · rw [step, nextMove, ha]
    exact coreTurn_command (s := s.withAgenda rest) hb hd
  · rw [step_withFetchWord, tableWord_toNat, completion, accept_pcmd, decode_encode_command]

/-! ## Reset -/

/-- Settles O19: field by field. -/
theorem resetValues : Obligations.ResetValues :=
  ⟨idWord_eq _, by decide, by decide, rfl, rfl, rfl, rfl, rfl, rfl, rfl, rfl, rfl, memByte_nil, rfl⟩

/-- Settles O20: nothing is written, and STATUS is 0. -/
theorem invariantAtReset : Obligations.InvariantAtReset :=
  ⟨.nil, fun _ h => absurd h List.not_mem_nil, fun _ h => absurd h List.not_mem_nil, by decide⟩

end Sys2Proof.Machine
end

section
/-! PROOFS of the statements of 10_state.md: the words and entries of X and Y (R47, R55 to R59). -/

namespace Sys2Proof.Machine

/-- Byte `b` of a word written is its bits from 8b up (R59). -/
theorem memByte_memPutWord_inside (m : List Host.Cell) (addr : Nat) (v : Word) {b : Nat} (hb : b < 8) :
    memByte (memPutWord m addr v) (addr + b) = some (v.extractLsb' (8 * b) 8) := by
  rw [memPutWord, memByte_memPutLE_inside hb, Option.some.injEq]
  apply BitVec.eq_of_toNat_eq
  rw [BitVec.toNat_ofNat, BitVec.extractLsb'_toNat, Nat.shiftRight_eq_div_pow, Nat.pow_mul]

/-- An entry is its two words, the real part at the lower (R47). -/
theorem memEntry_eq_some_iff (m : List Host.Cell) (addr : Nat) (re im : F64) :
    memEntry m addr = some ⟨re, im⟩ ↔ memWord m addr = some re ∧ memWord m (addr + 8) = some im := by
  unfold memEntry
  cases memWord m addr <;> cases memWord m (addr + 8) <;> simp

/-- The place of an 8-byte access to a word of XMEM or YMEM (R55). -/
theorem placeAt_word {p : PMax} {a : Nat} (h : (0x01000000 ≤ a ∧ a < 0x01000000 + 16 * 2 ^ p.val) ∨
    (0x02000000 ≤ a ∧ a < 0x02000000 + 16 * 2 ^ p.val)) :
    ∃ q, (q = .xWord a ∨ q = .yWord a) ∧ placeAt p a = some q := by
  rcases h with h | h
  · exact ⟨_, .inl rfl, placeAt_x h⟩
  · exact ⟨_, .inr rfl, placeAt_y h⟩

theorem memWrite_word_idle {s : State} (hb : s.status.busy = false) {q : Place} {a : Nat}
    (hq : q = .xWord a ∨ q = .yWord a) (v : Word) : memWrite q v s = s.withMem (memPutWord s.mem a v) := by
  rcases hq with rfl | rfl <;> exact if_neg (by simp [hb])

theorem memRead_word_idle {s : State} (hb : s.status.busy = false) {q : Place} {a : Nat}
    (hq : q = .xWord a ∨ q = .yWord a) {v : Word} (hv : memWord s.mem a = some v) : memRead q s = answerRead v s := by
  rcases hq with rfl | rfl <;> simp [memRead, hb, hv]

/-- Settles O15: the write puts the word's bytes in place, and the read of the same word finds them. -/
theorem sampleWordIsStoredWhole : Obligations.SampleWordIsStoredWhole := by
  refine ⟨fun s v addr hb h8 ha => ?_, fun s i re im => ⟨memEntry_eq_some_iff .., memEntry_eq_some_iff ..⟩⟩
  obtain ⟨q, hq, hp⟩ := placeAt_word ha
  have stored := memWord_memPutWord s.mem addr.toNat v
  refine ⟨(s.withMem (memPutWord s.mem addr.toNat v)).withResp (some writeResponse), none, ?_, rfl,
    fun b => memByte_memPutWord_inside s.mem addr.toNat v, fun x => memByte_memPutWord_outside, ?_⟩
  · rw [hostStep, served_eq rfl h8, hp]
    simp only [memWrite_word_idle hb hq]
  · rw [hostStep, served_eq rfl h8, withResp_pMax, withMem_pMax, hp]
    exact memRead_word_idle (s := (s.withMem (memPutWord s.mem addr.toNat v)).withResp (some writeResponse)) hb hq
      stored

end Sys2Proof.Machine
end

section
/-! PROOFS of the statements of 10_state.md: the hidden values of the sequencer (R44). -/

namespace Sys2Proof.Machine

/-- `s'` differs from `s` in the hidden values of SEQ alone and, only while idle, in PCMD (R44). -/
def HiddenVariant (s s' : State) : Prop :=
  (s'.withSeq s.seq).withPcmd s.pcmd = s ∧ (s.status.busy = true → s'.pcmd = s.pcmd)

theorem HiddenVariant.withResp {s s' : State} (h : HiddenVariant s s') (r : Option Response) :
    HiddenVariant (s.withResp r) (s'.withResp r) :=
  ⟨by rw [withResp_seq, withResp_pcmd]; exact congrArg (State.withResp · r) h.1, h.2⟩

theorem HiddenVariant.withMem {s s' : State} (h : HiddenVariant s s') (m : List Host.Cell) :
    HiddenVariant (s.withMem m) (s'.withMem m) :=
  ⟨by rw [withMem_seq, withMem_pcmd]; exact congrArg (State.withMem · m) h.1, h.2⟩

theorem HiddenVariant.ite {c : Prop} [Decidable c] {t t' u u' : State} (ht : HiddenVariant t t')
    (hu : HiddenVariant u u') : HiddenVariant (if c then t else u) (if c then t' else u') := by
  split
  · exact ht
  · exact hu

/-- Two outcomes that no observer tells apart: the same fault, or next states that differ in hidden places alone. -/
def OutcomesAlike (o o' : Host.Outcome State Fault Refusal) : Prop :=
  (∀ t, o = .next t → ∃ t', o' = .next t' ∧ HiddenVariant t t') ∧ (∀ f, o = .fault f → o' = .fault f)

theorem OutcomesAlike.next {t t' : State} (h : HiddenVariant t t') : OutcomesAlike (.next t) (.next t') := by
  refine ⟨fun u e => ?_, fun f e => ?_⟩
  · cases e
    exact ⟨t', rfl, h⟩
  · cases e

theorem OutcomesAlike.fault (f : Fault) : OutcomesAlike (.fault f) (.fault f) :=
  ⟨fun _ e => (by cases e), fun _ e => e⟩

theorem OutcomesAlike.ite {c : Prop} [Decidable c] {o₁ o₁' o₂ o₂' : Host.Outcome State Fault Refusal}
    (h₁ : OutcomesAlike o₁ o₁') (h₂ : OutcomesAlike o₂ o₂') :
    OutcomesAlike (if c then o₁ else o₂) (if c then o₁' else o₂') := by
  split
  · exact h₁
  · exact h₂

/-! ## The commands -/

/-- The ending of a transform whose signal is `x`, on both sides of a change of SEQ: the array and the draws agree, and
the hidden values are all that is left to differ. -/
theorem outcomesAlike_transform (s : State) (q : Seq) (x : Option (List C64)) {f f' : List C64 → Work}
    (h : ∀ y, sameWork (f y) (f' y)) :
    OutcomesAlike (match x with
      | none => .fault .unwrittenSample
      | some y => .next (complete (writeY (f y) s)))
    (match x with
      | none => .fault .unwrittenSample
      | some y => .next (complete (writeY (f' y) (s.withSeq q)))) := by
  cases x with
  | none => exact .fault _
  | some y =>
    obtain ⟨ha, hn⟩ := h y
    refine .next ⟨?_, fun _ => rfl⟩
    simp only [writeY, ← ha, ← hn]
    rfl

theorem outcomesAlike_raiseCmdError (code : ErrCode) (s : State) (q : Seq) :
    OutcomesAlike (.next (raiseCmdError code s)) (.next (raiseCmdError code (s.withSeq q))) :=
  .next ⟨rfl, fun _ => rfl⟩

/-- The hidden values reach no result of a command (R44). -/
theorem exec_withSeq (i : Instr) (s : State) (q : Seq) : OutcomesAlike (exec i s) (exec i (s.withSeq q)) := by
  have raise := fun code => outcomesAlike_raiseCmdError code s q
  cases i with
  | bitrev => exact .ite (raise _) (.ite (raise _) (outcomesAlike_transform s q _ fun _ => ⟨rfl, rfl⟩))
  | dft => exact .ite (raise _) (outcomesAlike_transform s q _ fun x => dft_hidden _ x _ ⟨rfl, rfl⟩)
  | stage =>
    exact .ite (raise _) (.ite (raise _) (.ite (raise _)
      (outcomesAlike_transform s q _ fun _ => stage_hidden _ _ _ ⟨rfl, rfl⟩)))
  | fft =>
    exact .ite (raise _) (.ite (raise _) (outcomesAlike_transform s q _ fun _ => runStages_hidden _ _ ⟨rfl, rfl⟩))
  | twid => exact .ite (raise _) (.next ⟨rfl, fun _ => rfl⟩)
  | nop | cadd | csub | cmul | cscale | cconj | cnorm | cbfly | ispow2 => exact .next ⟨rfl, fun _ => rfl⟩

/-! ## The bus and the turns, from a state and its variant -/

section
variable {s : State} (q : Seq) {v : Word} (hv : s.status.busy = true → v = s.pcmd)
include hv

theorem coreTurn_hidden : OutcomesAlike (coreTurn s) (coreTurn ((s.withSeq q).withPcmd v)) := by
  rcases coreTurn_cases s with ⟨hb, e⟩ | ⟨hb, i, hd, e⟩ | ⟨hb, why, hd, e⟩
  · rw [e, coreTurn, if_neg (by simp [hb])]
    exact .next ⟨rfl, hv⟩
  · obtain rfl := hv hb
    have e' : coreTurn (s.withSeq q) = exec i (s.withSeq q) := coreTurn_command hb hd
    rw [e]
    exact e' ▸ exec_withSeq i s q
  · obtain rfl := hv hb
    have e' : coreTurn (s.withSeq q) = .next (raiseCmdError .illegalCmd (s.withSeq q)) := by
      simp [coreTurn, hb, completion, hd]
    rw [e]
    exact e' ▸ outcomesAlike_raiseCmdError _ s q

theorem answerRead_hidden (d : Word) : OutcomesAlike (answerRead d s) (answerRead d ((s.withSeq q).withPcmd v)) :=
  .next (HiddenVariant.withResp ⟨rfl, hv⟩ _)

theorem answerDraw_hidden (d : Word) :
    OutcomesAlike (answerRead d (drawRead s).2) (answerRead d (drawRead ((s.withSeq q).withPcmd v)).2) :=
  answerRead_hidden (s := (drawRead s).2) q hv d

theorem memRead_hidden (p : Place) : OutcomesAlike (memRead p s) (memRead p ((s.withSeq q).withPcmd v)) := by
  refine .ite (answerDraw_hidden q hv _) ?_
  cases p with
  | reg r =>
    cases r with
    | status => exact .ite (answerDraw_hidden q hv _) (answerRead_hidden q hv _)
    | _ => exact answerRead_hidden q hv _
  | reserved => exact answerRead_hidden q hv _
  | xWord addr | yWord addr =>
    simp only [withPcmd_mem, withSeq_mem]
    cases memWord s.mem addr with
    | none => exact .fault _
    | some d => exact answerRead_hidden q hv _

/-- Of the registers CMD alone is written with PCMD, and then with the same word on both sides. -/
theorem writeReg_hidden (r : RegName) (d : Word) :
    HiddenVariant (writeReg s r d) (writeReg ((s.withSeq q).withPcmd v) r d) := by
  cases s
  cases r with
  | cmd => exact ⟨rfl, fun _ => rfl⟩
  | _ => exact ⟨rfl, hv⟩

theorem memWrite_hidden (p : Place) (d : Word) :
    HiddenVariant (memWrite p d s) (memWrite p d ((s.withSeq q).withPcmd v)) := by
  refine .ite ⟨rfl, hv⟩ ?_
  cases p with
  | reg r => exact writeReg_hidden q hv r d
  | reserved => exact ⟨rfl, hv⟩
  | xWord addr | yWord addr => exact HiddenVariant.withMem (s' := (s.withSeq q).withPcmd v) ⟨rfl, hv⟩ _

theorem hostStep_hidden (tr : Transaction) :
    OutcomesAlike (hostStep tr s) (hostStep tr ((s.withSeq q).withPcmd v)) := by
  unfold hostStep
  simp only [withPcmd_pMax, withSeq_pMax]
  cases served s.pMax tr with
  | none => exact .next (HiddenVariant.withResp ⟨rfl, hv⟩ _)
  | some p =>
    cases tr.kind with
    | read => exact memRead_hidden q hv p
    | write => exact .next ((memWrite_hidden q hv p tr.wdata).withResp _)

theorem step_hidden : OutcomesAlike (step s) (step ((s.withSeq q).withPcmd v)) := by
  unfold step nextMove
  simp only [withPcmd_agenda, withSeq_agenda]
  cases s.agenda with
  | nil => exact coreTurn_hidden q hv
  | cons mv rest =>
    cases mv with
    | core => exact coreTurn_hidden (s := s.withAgenda rest) q hv
    | host tr => exact hostStep_hidden (s := s.withAgenda rest) q hv tr

end

/-- Settles O13: the core's turn and the host's transactions keep `HiddenVariant`, command by command and place by
place. -/
theorem hiddenStateIsUnobservable : Obligations.HiddenStateIsUnobservable :=
  fun _ q _ hv => step_hidden q hv

end Sys2Proof.Machine
end

section
/-! PROOFS of the statements of 20_memory.md: the invariant of every state (R55, R58, R61; R32, R33, R36, R116). -/

namespace Sys2Proof.Machine

/-! ## The memory's part -/

/-- The memory's part of the invariant: canonical form, inside XMEM and YMEM, and written word by word. -/
structure MemInv (p : PMax) (m : List Host.Cell) : Prop where
  wf : Memory.wf m
  inMap : memInMap p m
  whole : wholeWords m

theorem inv_iff (s : State) : s.Inv ↔ MemInv s.pMax s.mem ∧ s.status.coherent :=
  ⟨fun ⟨hwf, hmap, hwhole, hst⟩ => ⟨⟨hwf, hmap, hwhole⟩, hst⟩,
    fun ⟨hm, hst⟩ => ⟨hm.wf, hm.inMap, hm.whole, hst⟩⟩

/-- A cell of the memory after a run of bytes is written lies in the run or was there before. -/
theorem mem_memPutLE {m : List Host.Cell} {addr n v : Nat} {d : Host.Cell} (h : d ∈ memPutLE m addr n v) :
    (addr ≤ d.1 ∧ d.1 < addr + n) ∨ d ∈ m := by
  induction n generalizing m addr v with
  | zero => exact .inr h
  | succ n ih =>
    rcases ih h with hd | hd
    · exact .inl (by omega)
    · rcases mem_memPut hd with rfl | hd
      · exact .inl ⟨Nat.le_refl addr, by show addr < _; omega⟩
      · exact .inr hd

/-- A word's write unwrites no byte. -/
theorem memByte_isSome_memPutWord {m : List Host.Cell} {x : Nat} (h : (memByte m x).isSome = true) (addr : Nat)
    (v : Word) : (memByte (memPutWord m addr v) x).isSome = true := by
  by_cases hx : x < addr ∨ addr + 8 ≤ x
  · rwa [memByte_memPutWord_outside hx]
  · obtain ⟨b, rfl⟩ := Nat.exists_eq_add_of_le (show addr ≤ x by omega)
    rw [memByte_memPutWord_inside m addr v (by omega)]
    rfl

/-- The write of a word of X or Y keeps the memory's part (R58, R61). -/
theorem MemInv.memPutWord {p : PMax} {m : List Host.Cell} (h : MemInv p m) {a : Nat} (h8 : a % 8 = 0)
    (ha : (xBase ≤ a ∧ a < xBase + 16 * p.nMax) ∨ (yBase ≤ a ∧ a < yBase + 16 * p.nMax)) (v : Word) :
    MemInv p (memPutWord m a v) where
  wf := memPutWord_wf h.wf a v
  inMap c hc := by
    rcases mem_memPutLE hc with hin | hold
    · unfold xBase yBase at *
      omega
    · exact h.inMap c hold
  whole c hc b hb := by
    rcases mem_memPutLE hc with hin | hold
    · rw [show c.1 / 8 * 8 = a by omega, memByte_memPutWord_inside m a v hb]
      rfl
    · exact memByte_isSome_memPutWord (h.whole c hold b hb) a v

/-- The write of a signal inside Y keeps the memory's part. -/
theorem MemInv.memPutSignal {p : PMax} {m : List Host.Cell} (h : MemInv p m) {a : Nat} {cs : List C64}
    (h8 : a % 8 = 0) (hlo : yBase ≤ a) (hhi : a + 16 * cs.length ≤ yBase + 16 * p.nMax) :
    MemInv p (memPutSignal m a cs) := by
  induction cs generalizing m a with
  | nil => exact h
  | cons c cs ih =>
    rw [List.length_cons] at hhi
    have entry : MemInv p (memPutEntry m a c) :=
      (h.memPutWord h8 (.inr ⟨hlo, by omega⟩) c.re).memPutWord (by omega) (.inr ⟨by omega, by omega⟩) c.im
    exact ih entry (by omega) (by omega) (by omega)

/-! ## The part of STATUS -/

theorem Status.coherent_ended {st : Status} (h : st.coherent) (flag : Bool) :
    Status.coherent { st with busy := false, done := true, flag := flag } :=
  ⟨fun hb => by simp at hb, h.2⟩

theorem Status.coherent_failed {code : ErrCode} (h : code ≠ .none) (st : Status) :
    Status.coherent { st with busy := false, done := true, err := true, errCode := code } :=
  ⟨fun hb => by simp at hb, by simpa using h⟩

/-- The write of STATUS clears ERR and ERRCODE together (R33, R36). -/
theorem Status.coherent_w1c {st : Status} (h : st.coherent) (v : Word) : (st.w1c v).coherent := by
  obtain ⟨hbusy, herr⟩ := h
  refine ⟨fun hb => ?_, ?_⟩
  · obtain ⟨hd, he⟩ := hbusy hb
    simp [Status.w1c, hd, he]
  · show (st.err && !v.getLsbD 2) = true ↔ (if v.getLsbD 2 then .none else st.errCode) ≠ .none
    cases v.getLsbD 2 with
    | true => simp
    | false => simpa using herr

theorem writeReg_coherent {s : State} (h : s.status.coherent) (r : RegName) (v : Word) :
    (writeReg s r v).status.coherent := by
  cases r with
  | cmd => exact ⟨fun _ => ⟨rfl, rfl⟩, by simp [writeReg]⟩
  | status => exact Status.coherent_w1c h v
  | _ => exact h

/-! ## Every step -/

theorem exec_inv {i : Instr} {s t : State} (h : s.Inv) (e : exec i s = .next t) : t.Inv := by
  obtain ⟨hm, hst⟩ := (inv_iff s).1 h
  rw [inv_iff]
  rcases exec_cases i s with ⟨code, hc, e'⟩ | ⟨-, e'⟩ | ⟨-, hlen, wk, hl, e'⟩ | ⟨-, r0, r1, n, flag, e'⟩
  · obtain rfl : raiseCmdError code s = t := by simpa [e'] using e
    exact ⟨hm, Status.coherent_failed hc _⟩
  · simp [e'] at e
  · obtain rfl : complete (writeY wk s) = t := by simpa [e'] using e
    have hfit : wk.a.length ≤ s.pMax.nMax := hl ▸ Nat.le_of_not_lt hlen
    exact ⟨hm.memPutSignal rfl (Nat.le_refl _) (by omega), Status.coherent_ended hst _⟩
  · obtain rfl : complete { s with r0, r1, nanDraws := n, status := { s.status with flag } } = t := by
      simpa [e'] using e
    exact ⟨hm, Status.coherent_ended hst flag⟩

theorem coreTurn_inv {s t : State} (h : s.Inv) (e : coreTurn s = .next t) : t.Inv := by
  rcases coreTurn_cases s with ⟨-, e'⟩ | ⟨-, i, -, e'⟩ | ⟨-, why, -, e'⟩
  · obtain rfl : s = t := by simpa [e'] using e
    exact h
  · exact exec_inv h (e' ▸ e)
  · obtain rfl : raiseCmdError .illegalCmd s = t := by simpa [e'] using e
    obtain ⟨hm, -⟩ := (inv_iff s).1 h
    exact (inv_iff _).2 ⟨hm, Status.coherent_failed (by decide) _⟩

/-- A served place of a word of X or Y stands at its own aligned address (R55, R56). -/
theorem served_word_bounds {p : PMax} {tr : Transaction} {a : Nat} {q : Place} (hq : q = .xWord a ∨ q = .yWord a)
    (h : served p tr = some q) : a % 8 = 0 ∧
      ((xBase ≤ a ∧ a < xBase + 16 * p.nMax) ∨ (yBase ≤ a ∧ a < yBase + 16 * p.nMax)) := by
  obtain ⟨-, rfl⟩ := served_word hq h
  obtain ⟨-, h8, hp⟩ := served_some h
  refine ⟨h8, ?_⟩
  rcases placeAt_cases hp with ⟨-, rfl | ⟨r, rfl⟩⟩ | ⟨hx, -⟩ | ⟨hy, -⟩
  · simp at hq
  · simp at hq
  · exact .inl hx
  · exact .inr hy

theorem memWrite_inv {s : State} (h : s.Inv) {tr : Transaction} {q : Place} (hq : served s.pMax tr = some q)
    (v : Word) : (memWrite q v s).Inv := by
  obtain ⟨hm, hst⟩ := (inv_iff s).1 h
  rw [inv_iff]
  rcases memWrite_cases q v s with ⟨-, -, e⟩ | ⟨r, -, -, e⟩ | ⟨-, e⟩ | ⟨-, a, ha, e⟩ <;> rw [e]
  · exact ⟨hm, hst⟩
  · exact ⟨by rwa [writeReg_pMax, writeReg_mem], writeReg_coherent hst r v⟩
  · exact ⟨hm, hst⟩
  · obtain ⟨h8, hin⟩ := served_word_bounds ha hq
    exact ⟨hm.memPutWord h8 hin v, hst⟩

theorem hostStep_inv {tr : Transaction} {s t : State} (h : s.Inv) (e : hostStep tr s = .next t) : t.Inv := by
  rcases hostStep_next_cases e with ⟨r, n, rfl⟩ | ⟨q, hq, -, rfl⟩
  · exact h
  · exact memWrite_inv h hq tr.wdata

/-- Settles O21: the core's turn and the host's transactions keep both parts of the invariant. -/
theorem invariantIsKeptByEveryStep : Obligations.InvariantIsKeptByEveryStep := by
  intro s t h e
  rcases step_cases s with ⟨-, e'⟩ | ⟨rest, -, e'⟩ | ⟨tr, rest, -, e'⟩ <;> rw [e'] at e
  · exact coreTurn_inv h e
  · exact coreTurn_inv (s := s.withAgenda rest) h e
  · exact hostStep_inv (s := s.withAgenda rest) h e

end Sys2Proof.Machine
end

section
/-! PROOFS of the statements of 20_memory.md: which transactions are served (R55, R56), and what a read answers and
changes (R57, R58, R62). -/

namespace Sys2Proof.Machine

/-- Something stands exactly at the addresses of the window, of XMEM and of YMEM (R55). -/
theorem exists_placeAt_iff (p : PMax) (a : Nat) : (∃ q, placeAt p a = some q) ↔
    (a < 0x100 ∨ (0x01000000 ≤ a ∧ a < 0x01000000 + 16 * 2 ^ p.val) ∨
      (0x02000000 ≤ a ∧ a < 0x02000000 + 16 * 2 ^ p.val)) := by
  refine ⟨fun ⟨q, h⟩ => ?_, fun h => ?_⟩
  · rcases placeAt_cases h with ⟨hr, -⟩ | ⟨hx, -⟩ | ⟨hy, -⟩
    · exact .inl hr
    · exact .inr (.inl hx)
    · exact .inr (.inr hy)
  · rcases h with hr | hxy
    · exact ⟨_, placeAt_regs hr⟩
    · obtain ⟨q, -, hq⟩ := placeAt_word hxy
      exact ⟨q, hq⟩

/-- Settles O22: a transaction of that kind is not one that is served. -/
theorem unservedAccessesGetError : Obligations.UnservedAccessesGetError := by
  intro s t h
  have unserved : ∀ q, served s.pMax t ≠ some q := fun q hq => by
    obtain ⟨hs, h8, hp⟩ := served_some hq
    rcases h with h | h | h
    · exact h hs
    · exact h h8
    · exact h ((exists_placeAt_iff s.pMax t.addr.toNat).1 ⟨q, hp⟩)
  rcases hostStep_cases t s with ⟨-, e⟩ | ⟨q, hq, -⟩ | ⟨q, hq, -⟩
  · exact ⟨some 0#64, e, fun _ => rfl⟩
  · exact absurd hq (unserved q)
  · exact absurd hq (unserved q)

/-- CTRL's word: IRQ_EN alone (R29). -/
theorem ctrlWord_eq (irqEn : Bool) : ctrlWord irqEn = if irqEn then 1#64 else 0#64 := by cases irqEn <;> decide

/-- A served read answers OKAY with a value, or faults at a word of X or Y that nothing has written (R48, R57). -/
theorem hostStep_read_served {s : State} {t : Transaction} {q : Place} (hk : t.kind = .read)
    (hq : served s.pMax t = some q) :
    (∃ u v, hostStep t s = .next u ∧ u.resp = some ⟨.okay, some v⟩) ∨
    (hostStep t s = .fault .unwrittenSample ∧ 0x01000000 ≤ t.addr.toNat ∧ memWord s.mem t.addr.toNat = none) := by
  have e : hostStep t s = memRead q s := by simp only [hostStep, hq, hk]
  rw [e]
  rcases memRead_cases q s with ⟨v, e⟩ | ⟨-, v, e⟩ | ⟨a, ha, hm, e⟩
  · exact .inl ⟨_, v, e, rfl⟩
  · exact .inl ⟨_, v, e, rfl⟩
  · obtain ⟨-, rfl⟩ := served_word ha hq
    obtain ⟨-, hin⟩ := served_word_bounds ha hq
    exact .inr ⟨e, by unfold xBase yBase at hin; omega, hm⟩

/-- Settles O23: something stands at a mapped address; idle, a register answers its word and a word of X or Y itself. -/
theorem mappedAccessesAreServed : Obligations.MappedAccessesAreServed := by
  refine ⟨fun s t hs h8 ha => ?_, fun s addr v hb h => ?_, fun s => ?_, fun s addr v hb h8 ha hv => ?_⟩
  · obtain ⟨q, hp⟩ := (exists_placeAt_iff s.pMax t.addr.toNat).2 ha
    have hq : served s.pMax t = some q := (served_eq hs h8).trans hp
    refine ⟨fun hk => ?_, fun hk => hostStep_read_served hk hq⟩
    exact ⟨(memWrite q t.wdata s).withResp (some writeResponse), none, by simp only [hostStep, hq, hk], rfl⟩
  · rw [← idWord_eq, ← ctrlWord_eq] at h
    have listed : (addr, v) ∈ (RegName.all.erase .cmd).map fun r => (BitVec.ofNat 32 r.offset, readReg s r) := h
    obtain ⟨r, -, hr⟩ := List.mem_map.1 listed
    obtain ⟨rfl, rfl⟩ := Prod.mk.inj hr
    exact (hostStep_read_offset s 0#64 r).trans (memRead_reg_idle hb r)
  · exact (hostStep_read_offset s 0#64 .cmd).trans (memRead_reg_stable rfl (by decide) s)
  · obtain ⟨q, hq, hp⟩ := placeAt_word ha
    rw [hostStep, served_eq rfl h8, hp]
    exact memRead_word_idle hb hq hv

/-- Settles O24: a transaction that is answered and is no write changes the response and the draw count alone. -/
theorem readsHaveNoSideEffects : Obligations.ReadsHaveNoSideEffects := by
  intro s u t hk e
  rcases hostStep_next_cases e with ⟨r, n, rfl⟩ | ⟨q, -, hw, -⟩
  · rfl
  · simp [hk] at hw

/-- Settles O58: the agenda's first entry is the host's. -/
theorem hostTurnIsOneTransaction : Obligations.HostTurnIsOneTransaction := by
  intro s t rest h
  rw [step, nextMove, h]
  rfl

end Sys2Proof.Machine
end

section
/-! PROOFS of the statements of 30_encoding.md: the command words (R71, R74 to R76). -/

namespace Sys2Proof.Machine

/-! ## The fields of a word -/

/-- The two fields make up the word: with RSV = 0 it is OPC, zero-extended (R71). -/
theorem rsvOf_opcOf_iff (v : Word) (o : BitVec 8) : rsvOf v = 0#56 ∧ opcOf v = o ↔ v = o.setWidth 64 := by
  have hr : (rsvOf v).toNat = v.toNat / 256 := by
    rw [rsvOf, BitVec.extractLsb'_toNat, Nat.shiftRight_eq_div_pow]
    omega
  have ho : (opcOf v).toNat = v.toNat % 256 := by simp [opcOf]
  rw [← BitVec.toNat_inj, ← BitVec.toNat_inj, ← BitVec.toNat_inj, hr, ho, BitVec.toNat_setWidth, BitVec.toNat_ofNat]
  omega

theorem validWord_iff (v : Word) : validWord v = true ↔ rsvOf v = 0#56 ∧ (opcOf v).toNat < 14 := by
  rw [validWord, Bool.and_eq_true, rsvIsZero, beq_iff_eq, opcInTable, decide_eq_true_iff]
  rfl

/-! ## The opcode table -/

/-- Every row of the opcode map holds its command's opcode. -/
theorem opcodeTable_rows : ∀ r ∈ opcodeTable, r.1 = r.2.opc := by decide

theorem lookup_opc (i : Instr) : opcodeTable.lookup i.opc = some i := by cases i <;> rfl

/-- The opcodes of commands are the values below 14 (R74). -/
theorem exists_opc_iff (o : BitVec 8) : (∃ i : Instr, o = i.opc) ↔ o.toNat < 14 := by
  constructor
  · rintro ⟨i, rfl⟩
    cases i <;> decide
  · intro h
    have row : ∀ n : Fin 14, BitVec.ofNat 8 n = (opcodeTable[n].2).opc := by decide
    exact ⟨_, by simpa using row ⟨o.toNat, h⟩⟩

/-! ## The decoder -/

theorem decode_of_rsv {v : Word} (h : rsvOf v ≠ 0#56) : decode v = .illegal .reservedBits := if_pos h

theorem decode_of_opc {v : Word} {i : Instr} (h : rsvOf v = 0#56) (ho : opcOf v = i.opc) : decode v = .command i := by
  rw [decode, if_neg (not_not.2 h), ho, lookup_opc]

theorem decode_of_undefined {v : Word} (h : rsvOf v = 0#56) (ho : 14 ≤ (opcOf v).toNat) :
    decode v = .illegal .undefinedOpcode := by
  have undefined : opcodeTable.lookup (opcOf v) = none := List.lookup_eq_none_iff.2 fun r hr => by
    have hlt := (exists_opc_iff r.1).1 ⟨r.2, opcodeTable_rows r hr⟩
    exact bne_iff_ne.2 fun e => by rw [e] at ho; omega
  rw [decode, if_neg (not_not.2 h), undefined]

/-- A word decodes to a command exactly when RSV is 0 and OPC is the command's opcode (R75). -/
theorem decode_command_iff (v : Word) (i : Instr) : decode v = .command i ↔ rsvOf v = 0#56 ∧ opcOf v = i.opc := by
  refine ⟨fun h => ?_, fun h => decode_of_opc h.1 h.2⟩
  by_cases hr : rsvOf v = 0#56
  · refine ⟨hr, ?_⟩
    by_cases ho : (opcOf v).toNat < 14
    · obtain ⟨j, hj⟩ := (exists_opc_iff _).2 ho
      obtain rfl : j = i := by simpa [h] using (decode_of_opc hr hj).symm
      exact hj
    · simp [decode_of_undefined hr (by omega)] at h
  · simp [decode_of_rsv hr] at h

/-- Settles O28: a command is its opcode in OPC below RSV = 0, which is its encoding, and the valid opcodes are the
commands' own. -/
theorem decodeAndEncodeAgree : Obligations.DecodeAndEncodeAgree := by
  refine ⟨fun v i => (decode_command_iff v i).trans (rsvOf_opcOf_iff v i.opc), fun v => ?_⟩
  calc validWord v = true
      ↔ rsvOf v = 0#56 ∧ ∃ i : Instr, opcOf v = i.opc := by rw [validWord_iff, exists_opc_iff]
    _ ↔ ∃ i : Instr, rsvOf v = 0#56 ∧ opcOf v = i.opc := exists_and_left.symm
    _ ↔ ∃ i, v = encode i := exists_congr fun i => rsvOf_opcOf_iff v i.opc

/-- Settles O27: by RSV, then by the row of the opcode map, or by its bound. -/
theorem decodeFollowsTheOpcodeMap : Obligations.DecodeFollowsTheOpcodeMap :=
  fun _ => ⟨decode_of_rsv, fun h _ hrow => decode_of_opc h (opcodeTable_rows _ hrow), decode_of_undefined⟩

/-- Settles O29: each word is a small closed case of the decoder. -/
theorem sampleWordsDecode : Obligations.SampleWordsDecode := by
  unfold Obligations.SampleWordsDecode
  decide

/-! ## Illegal words -/

theorem coreTurn_illegal {s : State} {why : IllegalWhy} (hb : s.status.busy = true)
    (hd : decode s.pcmd = .illegal why) : coreTurn s = .next (raiseCmdError .illegalCmd s) := by
  simp [coreTurn, hb, completion, hd]

theorem step_of_no_moves {s : State} (h : s.agenda = []) : step s = coreTurn s := by rw [step, nextMove, h]

theorem step_of_core_move {s : State} {rest : List Move} (h : s.agenda = .core :: rest) :
    step s = coreTurn (s.withAgenda rest) := by rw [step, nextMove, h]

/-- Settles O30: acceptance looks at no word, and the turn is the core's, with or without an entry of the agenda. -/
theorem illegalWordEndsWithIllegalCmd : Obligations.IllegalWordEndsWithIllegalCmd := by
  intro s v why hd
  refine ⟨fun hb => ?_, ?_⟩
  · obtain ⟨d, e⟩ := cmdWriteWhileIdleIsAcceptance s v hb
    exact ⟨_, e, rfl, rfl⟩
  · rintro hb rfl
    exact ⟨fun ha => (step_of_no_moves ha).trans (coreTurn_illegal hb hd),
      fun rest ha => (step_of_core_move ha).trans (coreTurn_illegal (s := s.withAgenda rest) hb hd)⟩

end Sys2Proof.Machine
end

section
/-! PROOFS of the statements of 30_encoding.md: what a command's results depend on (R74). -/

namespace Sys2Proof.Machine

/-! ## Errors depend on LEN, M and P_MAX -/

theorem badLength_congr {s s' : State} (h : s.len = s'.len) : badLength s = badLength s' := by
  rw [badLength, badLength, h]

theorem longLength_congr {s s' : State} (hp : s.pMax = s'.pMax) (h : s.len = s'.len) :
    longLength s = longLength s' := by rw [longLength, longLength, hp, h]

theorem badStageSize_congr {s s' : State} (h : s.len = s'.len) (hm : s.m = s'.m) :
    badStageSize s = badStageSize s' := by rw [badStageSize, badStageSize, h, hm]

/-- The causes of an error read P_MAX and the places of the command's row alone (R74, R115). -/
theorem causes_congr {i : Instr} {s s' : State} (hp : s.pMax = s'.pMax) (hr : ∀ o ∈ i.reads, agreeOn s s' o) :
    causes i s = causes i s' := by
  have hlen : .regLen ∈ i.reads → s.len = s'.len := hr .regLen
  have hm : .regM ∈ i.reads → s.m = s'.m := hr .regM
  cases i with
  | bitrev | dft | fft =>
    have hl := hlen (by decide)
    simp only [causes, badLength_congr hl, longLength_congr hp hl]
  | stage =>
    have hl := hlen (by decide)
    simp only [causes, badLength_congr hl, longLength_congr hp hl, badStageSize_congr hl (hm (by decide))]
  | twid => simp only [causes, hm (by decide)]
  | nop | cadd | csub | cmul | cscale | cconj | cnorm | cbfly | ispow2 => rfl

theorem signalX_congr {s s' : State} (hl : s.len = s'.len) (h : agreeOn s s' .memX) :
    signalX s s.len.toNat = signalX s' s'.len.toNat := hl ▸ memSignal_congr h

theorem signalY_congr {s s' : State} (hl : s.len = s'.len) (h : agreeOn s s' .memY) :
    signalY s s.len.toNat = signalY s' s'.len.toNat := hl ▸ memSignal_congr h

/-! ## The transforms without their checks -/

/-- The ending of a transform that has no error: the work `f` on its signal, in Y, or the fault at an unwritten word. -/
def transformEnding (f : List C64 → Work) (s : State) : Option (List C64) → Host.Outcome State Fault Refusal
  | none => .fault .unwrittenSample
  | some x => .next (complete (writeY (f x) s))

theorem exec_bitrev_of_noError {s : State} (hn : noError .bitrev s) : exec .bitrev s =
    transformEnding (fun x => startWork (bitrevPerm x s.len.toNat) s) s (signalX s s.len.toNat) := by
  obtain ⟨hb, hl⟩ : ¬ badLength s ∧ ¬ longLength s := by simpa [noError, causes] using hn
  exact (if_neg (mt (isPow2_false_iff s).1 hb)).trans (if_neg hl)

theorem exec_dft_of_noError {s : State} (hn : noError .dft s) : exec .dft s =
    transformEnding (fun x => dft Config.tw x s.len.toNat (startWork [] s)) s (signalX s s.len.toNat) := by
  have hl : ¬ longLength s := by simpa [noError, causes] using hn
  exact if_neg hl

theorem exec_stage_of_noError {s : State} (hn : noError .stage s) : exec .stage s =
    transformEnding (fun y => stage Config.tw s.len.toNat s.m.toNat (startWork y s)) s (signalY s s.len.toNat) := by
  obtain ⟨hb, hl, hm⟩ : ¬ badLength s ∧ ¬ longLength s ∧ ¬ badStageSize s := by simpa [noError, causes] using hn
  exact (if_neg (mt (isPow2_false_iff s).1 hb)).trans
    ((if_neg hl).trans (if_neg (mt (badStageSize_iff s).1 hm)))

theorem exec_fft_of_noError {s : State} (hn : noError .fft s) : exec .fft s =
    transformEnding (fun x => runStages Config.tw s.len.toNat (startWork (bitrevPerm x s.len.toNat) s)) s
      (signalX s s.len.toNat) := by
  obtain ⟨hb, hl⟩ : ¬ badLength s ∧ ¬ longLength s := by simpa [noError, causes] using hn
  exact (if_neg (mt (isPow2_false_iff s).1 hb)).trans (if_neg hl)

theorem exec_twid_of_noError {s : State} (hn : noError .twid s) :
    exec .twid s = .next (complete (writeR0 (Config.tw s.k s.m, s.nanDraws) s)) := by
  have hm : ¬ s.m.toNat = 0 := hn (_, .mZero) (List.mem_singleton.2 rfl)
  exact if_neg hm

/-! ## Results that agree -/

/-- Two outcomes of a command that are the same fault, or agree on the places of the command's column 'writes'. -/
def ResultsAgree (i : Instr) (o o' : Host.Outcome State Fault Refusal) : Prop :=
  (∀ f, o = .fault f → o' = .fault f) ∧ ∀ t, o = .next t → ∃ t', o' = .next t' ∧ ∀ p ∈ i.writes, agreeOn t t' p

theorem ResultsAgree.next {i : Instr} {t t' : State} (h : ∀ p ∈ i.writes, agreeOn t t' p) :
    ResultsAgree i (.next t) (.next t') := by
  refine ⟨fun f e => (by cases e), fun u e => ?_⟩
  cases e
  exact ⟨t', rfl, h⟩

theorem ResultsAgree.fault {i : Instr} (f : Fault) : ResultsAgree i (.fault f) (.fault f) :=
  ⟨fun _ e => e, fun _ e => (by cases e)⟩

section
variable {i : Instr} {s s' : State}

/-- A command whose one result is R0. -/
theorem resultsAgree_r0 (hw : i.writes = [.resR0]) {r r' : C64 × Nat} (h : r.1 = r'.1) :
    ResultsAgree i (.next (complete (writeR0 r s))) (.next (complete (writeR0 r' s'))) :=
  .next (by rw [hw]; exact List.forall_mem_singleton.2 h)

theorem sameWork_startWork (x : List C64) (hd : s.nanDraws = s'.nanDraws) :
    sameWork (startWork x s) (startWork x s') := ⟨rfl, hd⟩

/-- The entries of Y below LEN are those of the array that was written, whatever memory held before. -/
theorem agreeOn_memY_writeY {wk wk' : Work} (ha : wk.a = wk'.a) (hl : wk.a.length = s.len.toNat) :
    agreeOn (complete (writeY wk s)) (complete (writeY wk' s')) .memY := by
  intro j hj
  have inside : ∀ m, memEntry (memPutSignal m yBase wk.a) (yAddr j) = wk.a[j]? :=
    fun m => memEntry_memPutSignal_inside (hl ▸ hj)
  simp only [complete_mem, writeY_mem, ← ha, inside]

/-- A transform whose work on its signal is the same from both states, of LEN entries. -/
theorem resultsAgree_transform (hw : i.writes = [.memY]) {f f' : List C64 → Work} {x x' : Option (List C64)}
    (hx : x = x') (hf : ∀ y, x = some y → (f y).a = (f' y).a ∧ (f y).a.length = s.len.toNat) :
    ResultsAgree i (transformEnding f s x) (transformEnding f' s' x') := by
  subst hx
  cases x with
  | none => exact .fault _
  | some y =>
    obtain ⟨ha, hl⟩ := hf y rfl
    exact .next (by rw [hw]; exact List.forall_mem_singleton.2 (agreeOn_memY_writeY ha hl))

/-- Without an error the results depend on the places of the column 'reads' alone. -/
theorem exec_resultsAgree (hp : s.pMax = s'.pMax) (hd : s.nanDraws = s'.nanDraws)
    (hr : ∀ o ∈ i.reads, agreeOn s s' o) (hn : noError i s) : ResultsAgree i (exec i s) (exec i s') := by
  have hn' : noError i s' := by rwa [noError, ← causes_congr hp hr]
  have hA : .regA ∈ i.reads → operandA s = operandA s' := hr .regA
  have hB : .regB ∈ i.reads → operandB s = operandB s' := hr .regB
  have hlen : .regLen ∈ i.reads → s.len = s'.len := hr .regLen
  cases i with
  | nop => exact .next (by simp [Instr.writes])
  | cadd | csub | cmul => exact resultsAgree_r0 rfl (by rw [hA (by decide), hB (by decide), hd])
  | cscale =>
    have hS : operandS s = operandS s' := hr .regS (by decide)
    exact resultsAgree_r0 rfl (by rw [hA (by decide), hS, hd])
  | cconj => exact resultsAgree_r0 rfl (congrArg cconj (hA (by decide)))
  | cnorm => exact resultsAgree_r0 rfl (by rw [hA (by decide), hd])
  | cbfly =>
    have hW : operandW s = operandW s' := hr .regW (by decide)
    have same : bfly (operandA s) (operandB s) (operandW s) s.nanDraws =
        bfly (operandA s') (operandB s') (operandW s') s'.nanDraws := by
      rw [hA (by decide), hB (by decide), hW, hd]
    refine .next (List.forall_mem_cons.2 ⟨?_, List.forall_mem_singleton.2 ?_⟩)
    · exact congrArg (·.1.1) same
    · exact congrArg (·.1.2) same
  | ispow2 => exact .next (List.forall_mem_singleton.2 (congrArg isPow2 (hlen (by decide))))
  | twid =>
    have hK : s.k = s'.k := hr .regK (by decide)
    have hM : s.m = s'.m := hr .regM (by decide)
    rw [exec_twid_of_noError hn, exec_twid_of_noError hn']
    exact resultsAgree_r0 rfl (by rw [hK, hM])
  | bitrev =>
    have hl := hlen (by decide)
    rw [exec_bitrev_of_noError hn, exec_bitrev_of_noError hn']
    exact resultsAgree_transform rfl (signalX_congr hl (hr .memX (by decide))) fun x hx =>
      ⟨by rw [hl]; rfl, (bitrevPerm_length x _).trans (signalX_length hx)⟩
  | dft =>
    have hl := hlen (by decide)
    rw [exec_dft_of_noError hn, exec_dft_of_noError hn']
    exact resultsAgree_transform rfl (signalX_congr hl (hr .memX (by decide))) fun x _ =>
      ⟨by rw [hl]; exact (dft_hidden _ x _ (sameWork_startWork _ hd)).1, by simp [dft_length, startWork]⟩
  | stage =>
    have hl := hlen (by decide)
    have hM : s.m = s'.m := hr .regM (by decide)
    rw [exec_stage_of_noError hn, exec_stage_of_noError hn']
    exact resultsAgree_transform rfl (signalY_congr hl (hr .memY (by decide))) fun y hy =>
      ⟨by rw [hl, hM]; exact (stage_hidden _ _ _ (sameWork_startWork _ hd)).1, (stage_length ..).trans (signalY_length hy)⟩
  | fft =>
    have hl := hlen (by decide)
    rw [exec_fft_of_noError hn, exec_fft_of_noError hn']
    exact resultsAgree_transform rfl (signalX_congr hl (hr .memX (by decide))) fun x hx =>
      ⟨by rw [hl]; exact (runStages_hidden _ _ (sameWork_startWork _ hd)).1,
        (runStages_length ..).trans ((bitrevPerm_length x _).trans (signalX_length hx))⟩

end

/-- A command faults only after its checks (R115). -/
theorem noError_of_exec_fault {i : Instr} {s : State} {f : Fault} (e : exec i s = .fault f) : noError i s := by
  rcases exec_endsAs i s with ⟨_, -, e'⟩ | ⟨hn, -⟩ | ⟨hn, -⟩ | ⟨hn, -⟩
  · simp [e'] at e
  · exact hn
  · exact hn
  · exact hn

/-- Settles O55: the causes of an error read the same places, and without an error so do the results and the fault. -/
theorem resultsDependOnTheReadsAlone : Obligations.ResultsDependOnTheReadsAlone := by
  intro i s s' hp hd hr
  refine ⟨fun code => ?_, fun f e => ?_, fun t hn e => ?_⟩
  · rw [hasError, hasError, causes_congr hp hr]
  · obtain ⟨faults, -⟩ := exec_resultsAgree hp hd hr (noError_of_exec_fault e)
    exact faults f e
  · obtain ⟨-, results⟩ := exec_resultsAgree hp hd hr hn
    exact results t e

end Sys2Proof.Machine
end

section
/-! PROOFS of the statements of 40_complex_alu.md: the results of the CALU and of the butterfly (R82 to R90). -/

namespace Sys2Proof.Machine

/-! ## The product in either order -/

/-- A product in either order, whatever the draws. -/
theorem sameOrNaN_fmul_comm (a b : F64) (n n' : Nat) : sameOrNaN (fmul a b n).1 (fmul b a n').1 := by
  rw [fmul_comm b a]
  exact fmul_congr (sameOrNaN_refl a) (sameOrNaN_refl b) n n'

/-- Settles O34: each product commutes; the real part's difference keeps its order, and the imaginary part's sum commutes
in turn. -/
theorem cmulIsCommutative : Obligations.CmulIsCommutative := by
  intro a b n n'
  refine ⟨fsub_congr (sameOrNaN_fmul_comm ..) (sameOrNaN_fmul_comm ..) _ _, ?_⟩
  rw [cmul, cmul, fadd_comm (fmul b.re _ _).1]
  exact fadd_congr (sameOrNaN_fmul_comm ..) (sameOrNaN_fmul_comm ..) _ _

/-! ## The sign of the norm -/

/-- A NaN, or a value with sign bit 0: neither -0 nor below zero. -/
def nanOrNonneg (x : F64) : Prop := fIsNaN x = true ∨ fSign x = false

/-- A draw is a NaN, so the sign of a result is that of the core's answer. -/
theorem nanOrNonneg_drawNaN {r : Option F64} (h : ∀ x, r = some x → fSign x = false) (n : Nat) :
    nanOrNonneg (drawNaN r n).1 := by
  cases r with
  | none => exact .inl (fIsNaN_nanDraw n)
  | some x => exact .inr (h x rfl)

/-- A square has the XOR of a sign with itself. -/
theorem nanOrNonneg_square (a : F64) (n : Nat) : nanOrNonneg (fmul a a n).1 := by
  refine nanOrNonneg_drawNaN (fun x h => ?_) n
  simp only [mulCore, bne_self_eq_false, Bool.or_self] at h
  split at h
  · cases h
  · split at h
    · split at h <;> cases h
      exact fSign_signed _ _
    · cases h
      exact fSign_pack _ _ _

theorem fUnits_of_nonneg {a : F64} (h : fSign a = false) : fUnits a = fMag a := by simp [fUnits, h]

/-- A sum of two values with sign bit 0 has sign bit 0, an exact zero among them. -/
theorem fSign_of_addCore {a b x : F64} (ha : fSign a = false) (hb : fSign b = false) (h : addCore a b = some x) :
    fSign x = false := by
  have hz : ¬ fUnits a + fUnits b < 0 := by
    rw [fUnits_of_nonneg ha, fUnits_of_nonneg hb]
    omega
  unfold addCore at h
  split at h
  · cases h
  · split at h
    · split at h <;> cases h
      exact ha
    · split at h
      · cases h
        exact hb
      · simp only at h
        split at h <;> cases h
        · rw [fSign_fZero, ha, Bool.false_and]
        · rw [fSign_pack, decide_eq_false hz]

theorem nanOrNonneg_fadd {a b : F64} (ha : nanOrNonneg a) (hb : nanOrNonneg b) (n : Nat) :
    nanOrNonneg (fadd a b n).1 := by
  refine nanOrNonneg_drawNaN (fun x h => ?_) n
  rcases ha with ha | ha
  · simp [addCore_of_nan (.inl ha)] at h
  · rcases hb with hb | hb
    · simp [addCore_of_nan (.inr hb)] at h
    · exact fSign_of_addCore ha hb h

/-- A root is the operand, a zero or an infinity, or a packed value of sign 0. -/
theorem nanOrNonneg_fsqrt {a : F64} (ha : nanOrNonneg a) (n : Nat) : nanOrNonneg (fsqrt a n).1 := by
  refine nanOrNonneg_drawNaN (fun x h => ?_) n
  rcases ha with ha | ha
  · simp [sqrtCore_of_nan ha] at h
  · unfold sqrtCore at h
    split at h
    · cases h
    · split at h
      · cases h
        exact ha
      · split at h
        · cases h
        · split at h <;> cases h
          · exact ha
          · exact fSign_pack _ _ _

/-- The norm is a root of a sum of two squares. -/
theorem nanOrNonneg_cnorm (c : C64) (n : Nat) : nanOrNonneg (cnorm c n).1 :=
  nanOrNonneg_fsqrt (nanOrNonneg_fadd (nanOrNonneg_square _ _) (nanOrNonneg_square _ _) _) _

/-- Settles O38: R0_RE is the norm of A, and a root of a sum of squares is a NaN or has sign bit 0. -/
theorem cnormIsNeverNegative : Obligations.CnormIsNeverNegative := by
  intro s t h
  cases h
  exact nanOrNonneg_cnorm s.a s.nanDraws

/-! ## The results, by exact next state -/

/-- The ending of a command that writes R0 alone: R0, the count of draws and STATUS change, and nothing else. -/
theorem next_complete_writeR0 (r : C64 × Nat) (s : State) :
    (.next (complete (writeR0 r s)) : Host.Outcome State Fault Refusal) =
      .next { s with r0 := r.1, nanDraws := r.2, status := s.status.completed } := rfl

/-- Settles O31: R0 is cadd of A and B, whose parts are two sums in turn. -/
theorem caddResult : Obligations.CaddResult :=
  ⟨decode_encode_command .cadd, fun s =>
    ⟨_, _, _, _, rfl, rfl, next_complete_writeR0 (cadd s.a s.b s.nanDraws) s⟩⟩

/-- Settles O32: R0 is csub of A and B, whose parts are two differences in turn. -/
theorem csubResult : Obligations.CsubResult :=
  ⟨decode_encode_command .csub, fun s =>
    ⟨_, _, _, _, rfl, rfl, next_complete_writeR0 (csub s.a s.b s.nanDraws) s⟩⟩

/-- Settles O33: R0 is cmul of A and B: two products and their difference, then two products and their sum. -/
theorem cmulResult : Obligations.CmulResult :=
  ⟨decode_encode_command .cmul, fun s =>
    ⟨_, _, _, _, _, _, _, _, _, _, _, _, rfl, rfl, rfl, rfl, rfl, rfl,
      next_complete_writeR0 (cmul s.a s.b s.nanDraws) s⟩⟩

/-- Settles O35: R0 is cscale of A by S, whose parts are two products in turn. -/
theorem cscaleResult : Obligations.CscaleResult :=
  ⟨decode_encode_command .cscale, fun s =>
    ⟨_, _, _, _, rfl, rfl, next_complete_writeR0 (cscale s.a s.s s.nanDraws) s⟩⟩

/-- Conjugation inverts one sign bit, and so is its own inverse. -/
theorem cconj_cconj (c : C64) : cconj (cconj c) = c := by simp [cconj]

/-- Settles O36: R0 is the conjugate of A, written with the count of draws as it stands. -/
theorem cconjResult : Obligations.CconjResult :=
  ⟨decode_encode_command .cconj, fun s => next_complete_writeR0 (cconj s.a, s.nanDraws) s, cconj_cconj⟩

/-- Settles O37: R0_RE is cnorm of A, two squares, their sum and its root in turn, and R0_IM is the zero of sign 0. -/
theorem cnormResult : Obligations.CnormResult :=
  ⟨decode_encode_command .cnorm, fun s =>
    ⟨_, _, _, _, _, _, _, _, rfl, rfl, rfl, rfl,
      next_complete_writeR0 (⟨(cnorm s.a s.nanDraws).1, fZero false⟩, (cnorm s.a s.nanDraws).2) s⟩⟩

/-- Settles O39: R0 and R1 are the two results of bfly, the sum and the difference of A and one product t; the order
of the two writes does not show in the state. -/
theorem cbflyResult : Obligations.CbflyResult :=
  ⟨decode_encode_command .cbfly, fun s =>
    let r := bfly s.a s.b s.w s.nanDraws
    ⟨_, _, _, _, _, _, Prod.mk.eta.symm, Prod.mk.eta.symm, Prod.mk.eta.symm,
      next_complete_writeR0 (r.1.1, r.2) (s.withR1 r.1.2)⟩⟩

end Sys2Proof.Machine
end

section
/-! PROOFS of the statements of 41_utilities.md: the bit-reversal permutation (R94). -/

namespace Sys2Proof.Machine

/-! ## rev on the indices below 2^p -/

/-- On the numbers of p bits rev is its own inverse (R94): bit `b` goes to `p - 1 - b` and back. -/
theorem rev_rev {i p : Nat} (hi : i < 2 ^ p) : rev (rev i p) p = i := by
  refine Nat.eq_of_testBit_eq fun b => ?_
  by_cases hb : b < p
  · rw [testBit_rev hb, testBit_rev (by omega)]
    congr 1
    omega
  · have hle : 2 ^ p ≤ 2 ^ b := Nat.pow_le_pow_right (by omega) (by omega)
    rw [testBit_rev_of_le (by omega), Nat.testBit_lt_two_pow (by omega)]

theorem rev_ne_rev {i j p : Nat} (hi : i < 2 ^ p) (hj : j < 2 ^ p) (h : i ≠ j) : rev i p ≠ rev j p := fun e =>
  h (by rw [← rev_rev hi, e, rev_rev hj])

/-! ## The moves of bitrev_perm -/

theorem bitrevMove_of_lt {x : List C64} {i : Nat} (hi : i < x.length) (p : Nat) (y : List C64) :
    bitrevMove x p y i = y.set (rev i p) x[i] := by
  rw [bitrevMove, List.getElem?_eq_getElem hi]

/-- After the first `r` moves each index below `r` has its value in place: a later move goes to another index. -/
theorem getElem?_bitrevMoves {x : List C64} {p r : Nat} (hl : x.length = 2 ^ p) (hr : r ≤ 2 ^ p) {i : Nat}
    (hi : i < r) : ((List.range r).foldl (bitrevMove x p) x)[rev i p]? = x[i]? := by
  induction r with
  | zero => omega
  | succ r ih =>
    have hlen : ((List.range r).foldl (bitrevMove x p) x).length = x.length :=
      foldl_keeps (fun (y : List C64) => y.length = x.length) _ (fun y j h => by rw [bitrevMove_length, h]) _ _ rfl
    rw [List.range_succ, List.foldl_append, List.foldl_cons, List.foldl_nil, bitrevMove_of_lt (by omega)]
    by_cases h : i = r
    · subst h
      rw [List.getElem?_set_self (by rw [hlen, hl]; exact rev_lt i p), List.getElem?_eq_getElem (by omega)]
    · rw [List.getElem?_set_ne (rev_ne_rev (by omega) (by omega) (Ne.symm h)), ih (by omega) (by omega)]

/-- bitrev_perm places the value of index `i` at index rev(i, p) (R94). -/
theorem getElem?_bitrevPerm_rev {p : Nat} (hp : p < 64) {x : List C64} (hl : x.length = 2 ^ p) {i : Nat}
    (hi : i < 2 ^ p) : (bitrevPerm x (2 ^ p))[rev i p]? = x[i]? := by
  rw [bitrevPerm, log2Pow2_two_pow hp]
  exact getElem?_bitrevMoves hl le_rfl hi

/-- The permuted signal at index `i` is the signal at index rev(i, p) (R94). -/
theorem getElem?_bitrevPerm {p : Nat} (hp : p < 64) {x : List C64} (hl : x.length = 2 ^ p) {i : Nat}
    (hi : i < 2 ^ p) : (bitrevPerm x (2 ^ p))[i]? = x[rev i p]? := by
  have h := getElem?_bitrevPerm_rev hp hl (rev_lt i p)
  rwa [rev_rev hi] at h

theorem bitrevPerm_bitrevPerm {p : Nat} (hp : p < 64) {x : List C64} (hl : x.length = 2 ^ p) :
    bitrevPerm (bitrevPerm x (2 ^ p)) (2 ^ p) = x := by
  have hl' : (bitrevPerm x (2 ^ p)).length = 2 ^ p := (bitrevPerm_length x _).trans hl
  refine List.ext_getElem? fun i => ?_
  by_cases hi : i < 2 ^ p
  · rw [getElem?_bitrevPerm hp hl' hi, getElem?_bitrevPerm_rev hp hl hi]
  · rw [List.getElem?_eq_none (by rw [bitrevPerm_length, hl']; omega), List.getElem?_eq_none (by omega)]

/-- Settles O42: rev is its own inverse below 2^p, so the moves go to distinct indices and meet all of them. -/
theorem bitrevPermIsItsOwnInverse : Obligations.BitrevPermIsItsOwnInverse := fun _ _ hp hl =>
  ⟨fun i hi => ⟨rev_lt i _, rev_rev hi, getElem?_bitrevPerm_rev hp hl hi, getElem?_bitrevPerm hp hl hi⟩,
    bitrevPerm_bitrevPerm hp hl⟩

end Sys2Proof.Machine
end

section
/-! PROOFS of the statements of 41_utilities.md: NOP (R92), ISPOW2 (R93), BITREV (R95) and TWID (R100). -/

namespace Sys2Proof.Machine

/-! ## The ending of a command that has an error -/

/-- No more than one code is the first (R115). -/
theorem firstCause_unique {code code' : ErrCode} {l : List (Prop × ErrCode)} (h : firstCause code l)
    (h' : firstCause code' l) : code = code' := by
  induction l with
  | nil => exact h.elim
  | cons c cs ih =>
    rcases h with ⟨hc, rfl⟩ | ⟨hc, h⟩
    · rcases h' with ⟨-, e⟩ | ⟨hc', -⟩
      · exact e
      · exact absurd hc hc'
    · rcases h' with ⟨hc', -⟩ | ⟨-, h'⟩
      · exact absurd hc' hc
      · exact ih h h'

/-- A command with an error changes STATUS alone, to report it (R115, R116). -/
theorem exec_of_hasError {i : Instr} {s : State} {code : ErrCode} (h : hasError i s code) :
    exec i s = .next { s with status := s.status.failed code } := by
  have hn := not_noError_of_hasError h
  rcases exec_endsAs i s with ⟨code', h', e⟩ | ⟨hn', -⟩ | ⟨hn', -⟩ | ⟨hn', -⟩
  · rw [e, firstCause_unique h' h]
    rfl
  all_goals exact absurd hn' hn

/-! ## A written signal -/

/-- The converse of memSignal_eq_some: entries that are all written make up the signal (R48). -/
theorem memSignal_of_entries {m : List Host.Cell} {addr n : Nat} {x : List C64} (hl : x.length = n)
    (h : ∀ i < n, memEntry m (addr + 16 * i) = x[i]?) : memSignal m addr n = some x := by
  cases hs : memSignal m addr n with
  | none =>
    obtain ⟨i, hi, he⟩ := memSignal_eq_none_iff.1 hs
    rw [h i hi, List.getElem?_eq_none_iff] at he
    omega
  | some y =>
    obtain ⟨hy, hi⟩ := memSignal_eq_some hs
    refine congrArg some (List.ext_getElem? fun i => ?_)
    by_cases hlt : i < n
    · rw [← hi i hlt, h i hlt]
    · rw [List.getElem?_eq_none (by omega), List.getElem?_eq_none (by omega)]

/-- The exponent of a power of two that a word holds. -/
theorem lt_64_of_toNat_eq_two_pow {v : Word} {p : Nat} (h : v.toNat = 2 ^ p) : p < 64 :=
  (Nat.pow_lt_pow_iff_right (by omega)).1 (h ▸ v.isLt)

/-! ## The results -/

/-- BITREV of a written signal of a legal length: the permuted signal in Y (R95). -/
theorem exec_bitrev_of_written {s : State} {p : Nat} {x : List C64} (hp : s.len.toNat = 2 ^ p) (hlong : ¬ longLength s)
    (hl : x.length = 2 ^ p) (hx : ∀ i < 2 ^ p, memEntry s.mem (xAddr i) = x[i]?) :
    exec .bitrev s = .next { s with
      mem := memPutSignal s.mem yBase (bitrevPerm x (2 ^ p)), status := s.status.completed } := by
  have hn : noError .bitrev s := by simp [noError, causes, badLength, hp, hlong]
  have hs : signalX s (2 ^ p) = some x := memSignal_of_entries hl hx
  rw [exec_bitrev_of_noError hn, hp, hs]
  rfl

/-- Settles O43: its two errors in order, and the permutation of a written signal, which leaves every byte outside
Y[0 .. n-1]. -/
theorem bitrevResult : Obligations.BitrevResult := by
  refine ⟨decode_encode_command .bitrev, fun s => ⟨fun h => ?_, fun h hlong => ?_, fun p x hp hlong hl hx => ?_⟩⟩
  · exact exec_of_hasError (.inl ⟨h, rfl⟩)
  · exact exec_of_hasError (.inr ⟨h, .inl ⟨hlong, rfl⟩⟩)
  · have hp64 := lt_64_of_toNat_eq_two_pow hp
    have hlen : (bitrevPerm x (2 ^ p)).length = 2 ^ p := (bitrevPerm_length x _).trans hl
    refine ⟨_, exec_bitrev_of_written hp hlong hl hx, rfl, fun i hi => ?_, fun b hb => ?_⟩
    · exact (memEntry_memPutSignal_inside (by rw [hlen]; exact rev_lt i p)).trans
        (getElem?_bitrevPerm_rev hp64 hl hi)
    · exact memByte_memPutSignal_outside (by rw [hlen]; exact hb)

/-- Settles O41: FLAG is R21's test of LEN, true exactly of the powers of two. -/
theorem ispow2Result : Obligations.Ispow2Result :=
  ⟨decode_encode_command .ispow2, fun s => ⟨isPow2 s.len, isPow2_iff s.len, rfl⟩⟩

/-- Settles O40: NOP is its completion, which sets BUSY and DONE over what acceptance has set. -/
theorem nopResult : Obligations.NopResult :=
  ⟨decode_encode_command .nop, fun _ => rfl, fun s => ⟨complete (accept (encode .nop) s), rfl, by simp⟩⟩

/-- Settles O44: M_ZERO is its one error, and without it R0 is TW(K, M), with no draw taken. -/
theorem twidResult : Obligations.TwidResult := by
  refine ⟨decode_encode_command .twid, fun s => ⟨fun h => ?_, fun h => ?_⟩⟩
  · exact exec_of_hasError (.inl ⟨by simp [h], rfl⟩)
  · have hm : s.m.toNat ≠ 0 := fun h0 => h (BitVec.eq_of_toNat_eq (by simpa using h0))
    have hn : noError .twid s := by simpa only [noError, causes, List.forall_mem_singleton] using hm
    rw [exec_twid_of_noError hn, next_complete_writeR0]

end Sys2Proof.Machine
end

section
/-! PROOFS of the statements of 42_transforms.md: DFT (R101), STAGE (R102, R103) and FFT (R104, R105, R109, R110). -/

namespace Sys2Proof.Machine

/-! ## What a transform leaves in memory -/

/-- A transform without error changes memory, the hidden values, the count of draws and STATUS alone (R46, R50). -/
theorem complete_writeY_eq (wk : Work) (s : State) : complete (writeY wk s) =
    { s with mem := (complete (writeY wk s)).mem, seq := (complete (writeY wk s)).seq,
             nanDraws := (complete (writeY wk s)).nanDraws, status := s.status.completed } := rfl

/-- Entry `i` of Y after a transform is item `i` of its array. -/
theorem memEntry_writeY {wk : Work} {i : Nat} (h : i < wk.a.length) (s : State) :
    memEntry (complete (writeY wk s)).mem (yAddr i) = wk.a[i]? := memEntry_memPutSignal_inside h

/-- A transform of `n` entries leaves every byte outside Y[0 .. n-1] (R46). -/
theorem memByte_writeY_outside {wk : Work} {n b : Nat} (hl : wk.a.length = n) (h : b < yAddr 0 ∨ yAddr n ≤ b)
    (s : State) : memByte (complete (writeY wk s)).mem b = memByte s.mem b :=
  memByte_memPutSignal_outside (by rw [hl]; exact h)

/-- The signal X whose entries are all written. -/
theorem exists_signalX {s : State} {n : Nat} (h : ∀ i < n, memEntry s.mem (xAddr i) ≠ none) :
    ∃ x, signalX s n = some x :=
  Option.ne_none_iff_exists'.1 fun hn => by
    obtain ⟨j, hj, he⟩ := (signalX_none_iff s n).1 hn
    exact h j hj he

/-! ## DFT -/

/-- Settles O45: LEN_RANGE is its one error; without it the array has the LEN outputs, each the sum of R101 but for the
bits of a NaN. -/
theorem dftResult : Obligations.DftResult := by
  refine ⟨decode_encode_command .dft, fun s =>
    ⟨fun h => exec_of_hasError (.inl ⟨h, rfl⟩), fun x hlong hl hx => ?_⟩⟩
  have hn : noError .dft s := by simp [noError, causes, hlong]
  have hs : signalX s s.len.toNat = some x := memSignal_of_entries hl hx
  have hlen : (dft Config.tw x s.len.toNat (startWork [] s)).a.length = s.len.toNat := by simp [dft_length, startWork]
  have e : exec .dft s = .next (complete (writeY (dft Config.tw x s.len.toNat (startWork [] s)) s)) := by
    rw [exec_dft_of_noError hn, hs]
    rfl
  refine ⟨_, e, complete_writeY_eq _ s, fun k hk => ?_, fun b hb => memByte_writeY_outside hlen hb s⟩
  obtain ⟨nan, hout⟩ := dft_entries x s.len.toNat (startWork [] s) rfl hk
  exact ⟨_, (memEntry_writeY (by rwa [hlen]) s).trans hout, dftEntry_partial x _ k nan _ hl.ge⟩

/-! ## STAGE -/

/-- The stage sizes of R102: m = 2^(q+1) divides n = 2^p into 2^(p-(q+1)) blocks. -/
theorem two_pow_eq_blocks_mul {p q : Nat} (h : q < p) : 2 ^ p = 2 ^ (p - (q + 1)) * 2 ^ (q + 1) := by
  rw [← Nat.pow_add, Nat.sub_add_cancel h]

theorem half_two_pow_succ (q : Nat) : 2 ^ (q + 1) / 2 = 2 ^ q := by omega

/-- A stage size 2^(q+1) for the length 2^p is legal (R103). -/
theorem noError_stage {s : State} {p q : Nat} (hp : s.len.toNat = 2 ^ p) (hlong : ¬ longLength s)
    (hm : s.m.toNat = 2 ^ (q + 1)) (hq : q < p) : noError .stage s := by
  have two_le : 2 ≤ 2 ^ (q + 1) := by have := Nat.one_le_two_pow (n := q); omega
  have le_len : 2 ^ (q + 1) ≤ 2 ^ p := Nat.pow_le_pow_right (by omega) hq
  have hgood : ¬ badStageSize s := by
    rintro (h | h | h)
    · exact h ⟨q + 1, hm⟩
    · omega
    · omega
  simp [noError, causes, badLength, hp, hlong, hgood]

/-- STAGE of a written signal, of a legal length and stage size: the stage in Y (R103). -/
theorem exec_stage_of_written {s : State} {p q : Nat} {y : List C64} (hp : s.len.toNat = 2 ^ p)
    (hlong : ¬ longLength s) (hm : s.m.toNat = 2 ^ (q + 1)) (hq : q < p) (hy : signalY s (2 ^ p) = some y) :
    exec .stage s = .next (complete (writeY (stage Config.tw (2 ^ p) (2 ^ (q + 1)) (startWork y s)) s)) := by
  rw [exec_stage_of_noError (noError_stage hp hlong hm hq), hp, hm, hy]
  rfl

/-- Settles O46: its three errors in order; without one each pair of each block is replaced by its butterfly. -/
theorem stageResult : Obligations.StageResult := by
  refine ⟨decode_encode_command .stage, fun s => ⟨fun h => ?_, fun h hlong => ?_, fun h hlong hbad => ?_,
    fun p q y hp hlong hm hq hl hy => ?_⟩⟩
  · exact exec_of_hasError (.inl ⟨h, rfl⟩)
  · exact exec_of_hasError (.inr ⟨h, .inl ⟨hlong, rfl⟩⟩)
  · exact exec_of_hasError (.inr ⟨h, .inr ⟨hlong, .inl ⟨hbad, rfl⟩⟩⟩)
  · have hlen : (stage Config.tw (2 ^ p) (2 ^ (q + 1)) (startWork y s)).a.length = 2 ^ p :=
      (stage_length ..).trans hl
    refine ⟨_, exec_stage_of_written hp hlong hm hq (memSignal_of_entries hl hy), complete_writeY_eq _ s,
      fun blk j u b hblk hj hu hb => ?_, fun b hb => memByte_writeY_outside hlen hb s⟩
    have inside : ∀ {i c}, y[i]? = some c → i < 2 ^ p := fun h => hl ▸ (List.getElem?_eq_some_iff.1 h).1
    have hwm : BitVec.ofNat 64 (2 ^ (q + 1)) = s.m := by rw [← hm, BitVec.ofNat_toNat, BitVec.setWidth_eq]
    have pair := stage_entries (tw := Config.tw) (nb := 2 ^ (p - (q + 1))) (m := 2 ^ (q + 1)) (wk := startWork y s)
      (Nat.two_pow_pos _) (by omega) (two_pow_eq_blocks_mul hq ▸ hl.ge) hblk (by rwa [half_two_pow_succ]) hu
      (by rwa [half_two_pow_succ])
    rw [← two_pow_eq_blocks_mul hq, half_two_pow_succ, hwm] at pair
    obtain ⟨c, d, hc, hd, hsum, hdiff⟩ := pair
    exact ⟨c, d, (memEntry_writeY (by rw [hlen]; exact inside hu) s).trans hc,
      (memEntry_writeY (by rw [hlen]; exact inside hb) s).trans hd, hsum, hdiff⟩

/-! ## FFT -/

/-- The stages of the length 2^p, by their sizes (R104). -/
theorem runStages_two_pow {p : Nat} (hp : p < 64) (tw : Word → Word → C64) (wk : Work) :
    runStages tw (2 ^ p) wk =
      ((List.range p).map (fun q => 2 ^ (q + 1))).foldl (fun wk m => stage tw (2 ^ p) m wk) wk := by
  rw [runStages, stageSizes_two_pow hp]

/-- FFT of a written signal of a legal length: the stages of the permuted signal, in Y (R105). -/
theorem exec_fft_of_written {s : State} {p : Nat} {x : List C64} (hp : s.len.toNat = 2 ^ p) (hlong : ¬ longLength s)
    (hx : signalX s (2 ^ p) = some x) : exec .fft s =
      .next (complete (writeY (runStages Config.tw (2 ^ p) (startWork (bitrevPerm x (2 ^ p)) s)) s)) := by
  have hn : noError .fft s := by simp [noError, causes, badLength, hp, hlong]
  rw [exec_fft_of_noError hn, hp, hx]
  rfl

theorem fft_length (tw : Word → Word → C64) (x : List C64) (n : Nat) (s : State) :
    (runStages tw n (startWork (bitrevPerm x n) s)).a.length = x.length :=
  (runStages_length ..).trans (bitrevPerm_length x n)

/-- The transform of one entry is that entry: no bit is reversed and there is no stage (R105). -/
theorem fft_one (tw : Word → Word → C64) (x : List C64) (hl : x.length = 2 ^ 0) (s : State) :
    (runStages tw (2 ^ 0) (startWork (bitrevPerm x (2 ^ 0)) s)).a[0]? = x[0]? := by
  rw [runStages_two_pow (by omega)]
  exact getElem?_bitrevPerm (by omega) hl (by omega)

/-- Settles O47: its two errors in order; without one it writes the array of the stages, of LEN entries. -/
theorem fftCompletes : Obligations.FftCompletes := by
  refine ⟨decode_encode_command .fft, fun s => ⟨fun h => ?_, fun h hlong => ?_, fun p hp hlong hx => ?_⟩⟩
  · exact exec_of_hasError (.inl ⟨h, rfl⟩)
  · exact exec_of_hasError (.inr ⟨h, .inl ⟨hlong, rfl⟩⟩)
  · obtain ⟨x, hs⟩ := exists_signalX hx
    obtain ⟨hl, hentry⟩ := memSignal_eq_some hs
    have hlen := (fft_length Config.tw x (2 ^ p) s).trans hl
    refine ⟨_, exec_fft_of_written hp hlong hs, complete_writeY_eq _ s, fun i hi => ?_, fun h0 => ?_,
      fun b hb => memByte_writeY_outside hlen hb s⟩
    · rw [memEntry_writeY (by rwa [hlen])]
      simpa [hlen] using hi
    · subst h0
      rw [memEntry_writeY (by rw [hlen]; omega), fft_one Config.tw x hl s]
      exact (hentry 0 (by omega)).symm

/-! ## FFT, and BITREV followed by the STAGEs (R109) -/

/-- `t` is `s` after commands that have completed without error and left the work `wk`: Y[0 .. LEN-1] and the count of
draws are the work's, LEN and P_MAX are as they were. -/
structure RunTo (s : State) (wk : Work) (t : State) : Prop where
  len_eq : t.len = s.len
  pMax_eq : t.pMax = s.pMax
  status_eq : t.status = { busy := false, done := true, err := false, haz := s.status.haz, flag := s.status.flag,
                           errCode := .none }
  signalY_eq : signalY t s.len.toNat = some wk.a
  nanDraws_eq : t.nanDraws = wk.nan

/-- A transform that completes after its acceptance, of LEN entries. -/
theorem runTo_writeY {wk : Work} {s : State} (hl : wk.a.length = s.len.toNat) (v : Word) :
    RunTo s wk (complete (writeY wk (accept v s))) :=
  ⟨rfl, rfl, rfl, hl ▸ memSignal_memPutSignal s.mem yBase wk.a, rfl⟩

theorem runCommand_of_next {i : Instr} {s t : State} (e : exec i (accept (encode i) s) = .next t) :
    runCommand i s = some t := by rw [runCommand, e]

/-- Only the array and the draws of the work count. -/
theorem RunTo.congr {s t : State} {wk wk' : Work} (h : RunTo s wk t) (hw : sameWork wk wk') : RunTo s wk' t :=
  ⟨h.len_eq, h.pMax_eq, h.status_eq, hw.1 ▸ h.signalY_eq, hw.2 ▸ h.nanDraws_eq⟩

/-- Commands, a write of M, and more commands. -/
theorem RunTo.trans {s u t : State} {wk wk' : Work} {v : Word} (h : RunTo s wk u) (h' : RunTo (u.withM v) wk' t) :
    RunTo s wk' t where
  len_eq := h'.len_eq.trans h.len_eq
  pMax_eq := h'.pMax_eq.trans h.pMax_eq
  status_eq := by rw [h'.status_eq, withM_status, h.status_eq]
  signalY_eq := by rw [← h.len_eq]; exact h'.signalY_eq
  nanDraws_eq := h'.nanDraws_eq

/-- STAGE takes the state to the stage of what Y holds (R103). -/
theorem runTo_stage {s : State} {p q : Nat} {y : List C64} (hp : s.len.toNat = 2 ^ p) (hlong : ¬ longLength s)
    (hm : s.m.toNat = 2 ^ (q + 1)) (hq : q < p) (hy : signalY s (2 ^ p) = some y) :
    ∃ t, runCommand .stage s = some t ∧ RunTo s (stage Config.tw (2 ^ p) (2 ^ (q + 1)) (startWork y s)) t :=
  ⟨_, runCommand_of_next (exec_stage_of_written (s := accept (encode .stage) s) hp hlong hm hq hy),
    runTo_writeY ((stage_length ..).trans ((signalY_length hy).trans hp.symm)) _⟩

/-- One more STAGE takes the work to its stage, whatever hidden values the commands before it left (R44). -/
theorem RunTo.stage {s u : State} {wk : Work} {p q : Nat} (hp : s.len.toNat = 2 ^ p) (hlong : ¬ longLength s)
    (hq : q < p) (h : RunTo s wk u) : ∃ u', runStageOf (some u) (2 ^ (q + 1)) = some u' ∧
      RunTo s (stage Config.tw (2 ^ p) (2 ^ (q + 1)) wk) u' := by
  have hp64 := lt_64_of_toNat_eq_two_pow hp
  have hm : (BitVec.ofNat 64 (2 ^ (q + 1))).toNat = 2 ^ (q + 1) := by
    rw [BitVec.toNat_ofNat, Nat.mod_eq_of_lt (Nat.pow_lt_pow_right (by omega) (by omega))]
  have hlong' : longLength (u.withM (BitVec.ofNat 64 (2 ^ (q + 1)))) = longLength s :=
    longLength_congr h.pMax_eq h.len_eq
  obtain ⟨u', e, h'⟩ := runTo_stage (s := u.withM _) (by rw [withM_len, h.len_eq, hp]) (hlong' ▸ hlong) hm hq
    (hp ▸ h.signalY_eq)
  exact ⟨u', e, (h.trans h').congr (stage_hidden _ _ _ ⟨rfl, h.nanDraws_eq⟩)⟩

/-- The STAGEs of a list of sizes take the work through those stages (R109). -/
theorem RunTo.stages {s : State} {p : Nat} (hp : s.len.toNat = 2 ^ p) (hlong : ¬ longLength s) {l : List Nat}
    (hl : ∀ m ∈ l, ∃ q < p, m = 2 ^ (q + 1)) {u : State} {wk : Work} (h : RunTo s wk u) :
    ∃ u', l.foldl runStageOf (some u) = some u' ∧
      RunTo s (l.foldl (fun wk m => Machine.stage Config.tw (2 ^ p) m wk) wk) u' := by
  induction l generalizing u wk with
  | nil => exact ⟨u, rfl, h⟩
  | cons m l ih =>
    obtain ⟨q, hq, rfl⟩ := hl m List.mem_cons_self
    obtain ⟨u₁, e, h₁⟩ := h.stage hp hlong hq
    rw [List.foldl_cons, e]
    exact ih (fun m hm => hl m (List.mem_cons_of_mem _ hm)) h₁

/-- BITREV takes the state to the permuted signal (R95). -/
theorem runTo_bitrev {s : State} {p : Nat} {x : List C64} (hp : s.len.toNat = 2 ^ p) (hlong : ¬ longLength s)
    (hx : signalX s (2 ^ p) = some x) : ∃ u, runCommand .bitrev s = some u ∧
      RunTo s (startWork (bitrevPerm x (2 ^ p)) s) u := by
  obtain ⟨hl, hentry⟩ := memSignal_eq_some hx
  refine ⟨_, runCommand_of_next (exec_bitrev_of_written (s := accept (encode .bitrev) s) hp hlong hl hentry), ?_⟩
  exact runTo_writeY (wk := startWork (bitrevPerm x (2 ^ p)) s)
    ((bitrevPerm_length x _).trans (hl.trans hp.symm)) (encode .bitrev)

/-- FFT takes the state to the work of its stages (R105). -/
theorem runTo_fft {s : State} {p : Nat} {x : List C64} (hp : s.len.toNat = 2 ^ p) (hlong : ¬ longLength s)
    (hx : signalX s (2 ^ p) = some x) : ∃ t, runCommand .fft s = some t ∧
      RunTo s (runStages Config.tw (2 ^ p) (startWork (bitrevPerm x (2 ^ p)) s)) t :=
  ⟨_, runCommand_of_next (exec_fft_of_written (s := accept (encode .fft) s) hp hlong hx),
    runTo_writeY ((fft_length ..).trans ((signalX_length hx).trans hp.symm)) _⟩

/-- Two runs to the same work leave the same entries of Y. -/
theorem RunTo.memEntry_eq {s t u : State} {wk : Work} (ht : RunTo s wk t) (hu : RunTo s wk u) {i : Nat}
    (hi : i < s.len.toNat) : memEntry t.mem (yAddr i) = memEntry u.mem (yAddr i) := by
  obtain ⟨-, inT⟩ := memSignal_eq_some ht.signalY_eq
  obtain ⟨-, inU⟩ := memSignal_eq_some hu.signalY_eq
  exact (inT i hi).trans (inU i hi).symm

/-- Settles O48: both run to the work of the stages of the permuted signal. -/
theorem fftEqualsBitrevThenStages : Obligations.FftEqualsBitrevThenStages := by
  intro s p hp hlong hx
  obtain ⟨x, hs⟩ := exists_signalX hx
  obtain ⟨t, et, ht⟩ := runTo_fft hp hlong hs
  obtain ⟨u₀, eu₀, hu₀⟩ := runTo_bitrev hp hlong hs
  obtain ⟨u, eu, hu⟩ := hu₀.stages hp hlong (l := (List.range p).map (fun q => 2 ^ (q + 1))) (by simp)
  rw [← runStages_two_pow (lt_64_of_toNat_eq_two_pow hp)] at hu
  exact ⟨t, u, et, eu₀ ▸ eu, fun i hi => ht.memEntry_eq hu (hp ▸ hi), ht.status_eq.trans hu.status_eq.symm,
    ht.status_eq⟩

/-! ## The count of the butterflies (R110) -/

/-- A stage holds n/2 butterflies: its blocks times half its size. -/
theorem stage_butterflies {p q : Nat} (h : q < p) :
    (blockStarts (2 ^ p) (2 ^ (q + 1))).length * (2 ^ (q + 1) / 2) = 2 ^ p / 2 := by
  rw [blockStarts, List.length_map, List.length_range, two_pow_eq_blocks_mul h,
    Nat.mul_div_cancel _ (Nat.two_pow_pos _), ← Nat.mul_div_assoc _ (dvd_pow_self 2 (Nat.succ_ne_zero q))]

/-- Settles O50: p stages of n/2 butterflies each. -/
theorem fftButterflyCount : Obligations.FftButterflyCount := by
  intro p hp
  have each : ∀ q ∈ List.range p, (blockStarts (2 ^ p) (2 ^ (q + 1))).length * (2 ^ (q + 1) / 2) = 2 ^ p / 2 :=
    fun q hq => stage_butterflies (List.mem_range.1 hq)
  rw [stageSizes_two_pow hp, List.map_map, List.length_map, List.length_range]
  refine ⟨rfl, ?_⟩
  calc _ = ((List.range p).map (fun _ => 2 ^ p / 2)).sum := congrArg List.sum (List.map_congr_left each)
    _ = 2 ^ p / 2 * p := by simp [Nat.mul_comm]

end Sys2Proof.Machine
end

section
/-! PROOFS of the statements of 42_transforms.md: the exact examples of R105. Each butterfly of the two transforms has a
real `u` and a `b` that is zero or equal to `u`, so its sum and difference are exact whatever finite rotation factor
scales a zero. -/

namespace Sys2Proof.Machine

/-! ## Exact operations with a zero -/

/-- A value that is finite and whose sign bit is 0. -/
def finiteNonneg (x : F64) : Prop := fIsFinite x = true ∧ fSign x = false

/-- Both parts are finite. -/
def finite2 (c : C64) : Prop := fIsFinite c.re = true ∧ fIsFinite c.im = true

/-- Both parts are zeros, of either sign. -/
def zero2 (c : C64) : Prop := fIsZero c.re = true ∧ fIsZero c.im = true

theorem finiteNonneg_zero : finiteNonneg 0#64 := ⟨by decide, by decide⟩

theorem fIsZero_fneg (x : F64) : fIsZero (fneg x) = fIsZero x := by simp [fIsZero]

theorem fadd_of_zeros {y z : F64} (hy : fIsZero y = true) (hz : fIsZero z = true) (n : Nat) :
    fadd y z n = (fZero (fSign y && fSign z), n) := by
  have units : ∀ {x}, fIsZero x = true → fUnits x = 0 := fun {x} hx =>
    (fUnits_eq_zero_iff x).2 ((fIsZero_iff x).1 hx)
  exact fadd_of_sum_zero (fIsFinite_of_zero hy) (fIsFinite_of_zero hz) (by rw [units hy, units hz, Int.add_zero]) n

/-- Adding a zero of either sign to a value whose sign bit is 0 gives it back: +0 + -0 = +0 (R18). -/
theorem fadd_zero_of_nonneg {x z : F64} (hx : finiteNonneg x) (hz : fIsZero z = true) (n : Nat) :
    fadd x z n = (x, n) := by
  obtain ⟨hfin, hsign⟩ := hx
  by_cases hm : fMag x = 0
  · have hzero := (fIsZero_iff x).2 hm
    rw [fadd_of_zeros hzero hz, hsign, Bool.false_and, ← hsign, ← eq_fZero hzero]
  · exact fadd_zero_right hfin hm hz n

theorem fsub_zero_of_nonneg {x z : F64} (hx : finiteNonneg x) (hz : fIsZero z = true) (n : Nat) :
    fsub x z n = (x, n) := fadd_zero_of_nonneg hx (by rwa [fIsZero_fneg]) n

/-- x - x = +0 (R18). -/
theorem fsub_self {x : F64} (hx : fIsFinite x = true) (n : Nat) : fsub x x n = (0#64, n) := by
  rw [fsub_eq_fadd_fneg, fadd_of_sum_zero hx (by rwa [fIsFinite_fneg]) (by simp), fSign_fneg, Bool.and_not_self]
  rfl

/-- A finite value plus a zero is finite. -/
theorem fIsFinite_fadd_zero {x z : F64} (hx : fIsFinite x = true) (hz : fIsZero z = true) (n : Nat) :
    fIsFinite (fadd x z n).1 = true := by
  by_cases hm : fMag x = 0
  · rw [fadd_of_zeros ((fIsZero_iff x).2 hm) hz]
    exact fIsFinite_of_zero (fIsZero_fZero _)
  · rwa [fadd_zero_right hx hm hz]

/-- The sum of two zeros is a zero. -/
theorem fIsZero_fadd_zero {y z : F64} (hy : fIsZero y = true) (hz : fIsZero z = true) (n : Nat) :
    fIsZero (fadd y z n).1 = true := by
  rw [fadd_of_zeros hy hz]
  exact fIsZero_fZero _

/-- A finite value times a zero is a zero. -/
theorem fIsZero_fmul_zero {x z : F64} (hx : fIsFinite x = true) (hz : fIsZero z = true) (n : Nat) :
    fIsZero (fmul x z n).1 = true := by
  rw [fmul_of_product_zero hx (fIsFinite_of_zero hz) (by rw [(fIsZero_iff z).1 hz, Nat.mul_zero])]
  exact fIsZero_fZero _

theorem fmul_one_left {x : F64} (hx : fIsFinite x = true) (n : Nat) : fmul fOne x n = (x, n) := by
  rw [fmul_comm, fmul_fOne hx]

/-! ## Exact complex products -/

/-- A finite factor times a zero is a zero. -/
theorem zero2_cmul {w z : C64} (hw : finite2 w) (hz : zero2 z) (n : Nat) : zero2 (cmul w z n).1 := by
  obtain ⟨hre, him⟩ := hw
  obtain ⟨zre, zim⟩ := hz
  exact ⟨fIsZero_fadd_zero (fIsZero_fmul_zero hre zre _) (by rw [fIsZero_fneg]; exact fIsZero_fmul_zero him zim _) _,
    fIsZero_fadd_zero (fIsZero_fmul_zero hre zim _) (fIsZero_fmul_zero him zre _) _⟩

/-- (1, +0) times a finite factor is finite. -/
theorem finite2_cmul_cOne {w : C64} (hw : finite2 w) (n : Nat) : finite2 (cmul cOne w n).1 := by
  obtain ⟨hre, him⟩ := hw
  have zero_mul : ∀ {x} n, fIsFinite x = true → fIsZero (fmul cOne.im x n).1 = true := fun n hx => by
    rw [fmul_comm]
    exact fIsZero_fmul_zero hx (by decide) n
  have one_mul : ∀ {x} n, fIsFinite x = true → fIsFinite (fmul cOne.re x n).1 = true := fun n hx => by
    rwa [show cOne.re = fOne from rfl, fmul_one_left hx]
  exact ⟨fIsFinite_fadd_zero (one_mul _ hre) (by rw [fIsZero_fneg]; exact zero_mul _ him) _,
    fIsFinite_fadd_zero (one_mul _ him) (zero_mul _ hre) _⟩

/-- (1, +0) times a value (x, +0) whose sign bit is 0 is that value bit for bit. -/
theorem cmul_cOne_real {x : F64} (hx : finiteNonneg x) (n : Nat) : (cmul cOne ⟨x, 0#64⟩ n).1 = ⟨x, 0#64⟩ := by
  have zero_mul : ∀ n, fmul 0#64 x n = (0#64, n) := fun n => by
    rw [fmul_of_product_zero (by decide) hx.1 (by rw [show fMag 0#64 = 0 from rfl, Nat.zero_mul]), hx.2]
    rfl
  have hone : cOne = ⟨fOne, 0#64⟩ := rfl
  simp only [cmul, hone, fmul_one_left hx.1, fmul_one_left finiteNonneg_zero.1, zero_mul,
    fmul_of_product_zero (a := 0#64) (b := 0#64) (by decide) (by decide) rfl,
    fsub_zero_of_nonneg hx (fIsZero_fZero _),
    fadd_zero_of_nonneg finiteNonneg_zero (show fIsZero 0#64 = true by decide)]

/-! ## Exact butterflies -/

/-- The butterfly of `u` and `b` under `w` is `c` and `d`, of which no part is a NaN, whatever the draws. -/
structure ExactButterfly (w u b c d : C64) : Prop where
  sum_eq : bflySum u b w = c
  diff_eq : bflyDiff u b w = d
  sum_not_nan : fIsNaN c.re = false ∧ fIsNaN c.im = false
  diff_not_nan : fIsNaN d.re = false ∧ fIsNaN d.im = false

theorem real_not_nan {x : F64} (hx : fIsFinite x = true) :
    fIsNaN (⟨x, 0#64⟩ : C64).re = false ∧ fIsNaN (⟨x, 0#64⟩ : C64).im = false :=
  ⟨fIsNaN_of_finite hx, fIsNaN_of_finite finiteNonneg_zero.1⟩

/-- With a zero as its second entry a butterfly copies the first, whatever finite factor scales the zero. -/
theorem exactButterfly_zero {w : C64} {x : F64} (hw : finite2 w) (hx : finiteNonneg x) :
    ExactButterfly w ⟨x, 0#64⟩ ⟨0#64, 0#64⟩ ⟨x, 0#64⟩ ⟨x, 0#64⟩ := by
  obtain ⟨hre, him⟩ : zero2 (cmul w ⟨0#64, 0#64⟩ 0).1 := zero2_cmul hw ⟨by decide, by decide⟩ 0
  refine ⟨?_, ?_, real_not_nan hx.1, real_not_nan hx.1⟩
  · simp only [bflySum, cadd, fadd_zero_of_nonneg hx hre, fadd_zero_of_nonneg finiteNonneg_zero him]
  · simp only [bflyDiff, csub, fsub_zero_of_nonneg hx hre, fsub_zero_of_nonneg finiteNonneg_zero him]

/-- With the rotation factor (1, +0) and both entries the same, a butterfly gives the double and +0. -/
theorem exactButterfly_same {x y : F64} (hx : finiteNonneg x) (hy : fIsFinite y = true) (h : fadd x x 0 = (y, 0)) :
    ExactButterfly cOne ⟨x, 0#64⟩ ⟨x, 0#64⟩ ⟨y, 0#64⟩ ⟨0#64, 0#64⟩ := by
  have ht := cmul_cOne_real hx 0
  have hz : fIsZero 0#64 = true := by decide
  refine ⟨?_, ?_, real_not_nan hy, real_not_nan finiteNonneg_zero.1⟩
  · simp only [bflySum, ht, cadd, h, fadd_zero_of_nonneg finiteNonneg_zero hz]
  · simp only [bflyDiff, ht, csub, fsub_self hx.1, fsub_self finiteNonneg_zero.1]

theorem eq_of_sameOrNaN {x y : F64} (h : sameOrNaN x y) (hy : fIsNaN y = false) : x = y := by
  rcases h with h | ⟨-, h⟩
  · exact h
  · simp [h] at hy

theorem eq_of_sameOrNaN2 {c d : C64} (h : sameOrNaN2 c d) (hre : fIsNaN d.re = false) (him : fIsNaN d.im = false) :
    c = d := by
  obtain ⟨cre, cim⟩ := c
  obtain ⟨dre, dim⟩ := d
  exact congrArg₂ C64.mk (eq_of_sameOrNaN h.1 hre) (eq_of_sameOrNaN h.2 him)

/-- A stage puts an exact butterfly in place bit for bit. -/
theorem stage_exact {tw : Word → Word → C64} {nb m : Nat} {wk : Work} {blk j : Nat} {u b c d : C64} (hm : 0 < m)
    (heven : m % 2 = 0) (hl : nb * m ≤ wk.a.length) (hb : blk < nb) (hj : j < m / 2)
    (hu : wk.a[blk * m + j]? = some u) (hv : wk.a[blk * m + j + m / 2]? = some b)
    (h : ExactButterfly (rotation (tw 1#64 (BitVec.ofNat 64 m)) j) u b c d) :
    (stage tw (nb * m) m wk).a[blk * m + j]? = some c ∧
      (stage tw (nb * m) m wk).a[blk * m + j + m / 2]? = some d := by
  obtain ⟨c', d', hc, hd, hsum, hdiff⟩ := stage_entries hm heven hl hb hj hu hv
  rw [h.sum_eq] at hsum
  rw [h.diff_eq] at hdiff
  obtain ⟨⟨cre, cim⟩, dre, dim⟩ := And.intro h.sum_not_nan h.diff_not_nan
  rw [hc, hd, eq_of_sameOrNaN2 hsum cre cim, eq_of_sameOrNaN2 hdiff dre dim]
  exact ⟨rfl, rfl⟩

/-! ## The stages of the length 4 -/

theorem eq_of_four_entries {l : List C64} {a b c d : C64} (hl : l.length = 4) (h0 : l[0]? = some a)
    (h1 : l[1]? = some b) (h2 : l[2]? = some c) (h3 : l[3]? = some d) : l = [a, b, c, d] := by
  refine List.ext_getElem? fun i => ?_
  match i with
  | 0 => exact h0
  | 1 => exact h1
  | 2 => exact h2
  | 3 => exact h3
  | i + 4 => rw [List.getElem?_eq_none (by omega)]; rfl

section
variable {tw : Word → Word → C64} {wk : Work} {x0 x1 x2 x3 y0 y1 y2 y3 : C64}

/-- The stage of size 2: two blocks of one butterfly, both with the rotation factor (1, +0). -/
theorem stage_two_of_four (ha : wk.a = [x0, x1, x2, x3]) (h0 : ExactButterfly cOne x0 x1 y0 y1)
    (h1 : ExactButterfly cOne x2 x3 y2 y3) : (stage tw 4 2 wk).a = [y0, y1, y2, y3] := by
  obtain ⟨a, q, n⟩ := wk
  obtain rfl : a = _ := ha
  obtain ⟨e0, e1⟩ := stage_exact (tw := tw) (nb := 2) (m := 2) (wk := ⟨[x0, x1, x2, x3], q, n⟩)
    (blk := 0) (j := 0) two_pos rfl le_rfl two_pos one_pos rfl rfl h0
  obtain ⟨e2, e3⟩ := stage_exact (tw := tw) (nb := 2) (m := 2) (wk := ⟨[x0, x1, x2, x3], q, n⟩)
    (blk := 1) (j := 0) two_pos rfl le_rfl one_lt_two one_pos rfl rfl h1
  exact eq_of_four_entries (stage_length ..) e0 e1 e2 e3

/-- The stage of size 4: one block of two butterflies, with the rotation factors (1, +0) and (1, +0) * TW(1, 4). -/
theorem stage_four_of_four (ha : wk.a = [x0, x1, x2, x3]) (h0 : ExactButterfly cOne x0 x2 y0 y2)
    (h1 : ExactButterfly (rotation (tw 1#64 4#64) 1) x1 x3 y1 y3) : (stage tw 4 4 wk).a = [y0, y1, y2, y3] := by
  obtain ⟨a, q, n⟩ := wk
  obtain rfl : a = _ := ha
  obtain ⟨e0, e2⟩ := stage_exact (tw := tw) (nb := 1) (m := 4) (wk := ⟨[x0, x1, x2, x3], q, n⟩)
    (blk := 0) (j := 0) four_pos rfl le_rfl one_pos two_pos rfl rfl h0
  obtain ⟨e1, e3⟩ := stage_exact (tw := tw) (nb := 1) (m := 4) (wk := ⟨[x0, x1, x2, x3], q, n⟩)
    (blk := 0) (j := 1) four_pos rfl le_rfl one_pos one_lt_two rfl rfl h1
  exact eq_of_four_entries (stage_length ..) e0 e1 e2 e3

end

theorem runStages_four (tw : Word → Word → C64) (wk : Work) :
    runStages tw 4 wk = stage tw 4 4 (stage tw 4 2 wk) := rfl

theorem bitrevPerm_four (a b c d : C64) : bitrevPerm [a, b, c, d] 4 = [a, c, b, d] := rfl

/-- Settles O49: every butterfly of the two transforms is exact; TW(1, 4), finite, scales a zero alone, and TW(1, 2)
scales nothing that is read. -/
theorem impulseAndConstantAreExact : Obligations.ImpulseAndConstantAreExact := by
  intro tw q n htw
  have hw : finite2 (rotation (tw 1#64 4#64) 1) := finite2_cmul_cOne (htw _ (.inr rfl)) 0
  have hone : finite2 cOne := ⟨by decide, by decide⟩
  have one : finiteNonneg 0x3FF0000000000000#64 := ⟨by decide, by decide⟩
  have two : finiteNonneg 0x4000000000000000#64 := ⟨by decide, by decide⟩
  have one_add_one : fadd 0x3FF0000000000000#64 0x3FF0000000000000#64 0 = (0x4000000000000000#64, 0) := by
    decide +kernel
  have two_add_two : fadd 0x4000000000000000#64 0x4000000000000000#64 0 = (0x4010000000000000#64, 0) := by
    decide +kernel
  rw [runStages_four, runStages_four, bitrevPerm_four, bitrevPerm_four]
  constructor
  · have first := exactButterfly_zero hone one
    have zeros := exactButterfly_zero hone finiteNonneg_zero
    exact stage_four_of_four (stage_two_of_four rfl first zeros) first (exactButterfly_zero hw one)
  · have ones := exactButterfly_same one two.1 one_add_one
    have twos := exactButterfly_same two (by decide) two_add_two
    exact stage_four_of_four (stage_two_of_four rfl ones ones) twos (exactButterfly_zero hw finiteNonneg_zero)

end Sys2Proof.Machine
end

section
/-! PROOFS of the statements of 60_exceptions.md: the report of the first error (R113, R115, R116), irq (R118) and the
idle core (R128, R131). -/

namespace Sys2Proof.Machine

/-! ## The report of an error -/

/-- A command without an error that ends has completed: what it leaves of STATUS is BUSY 0, DONE 1 and a FLAG (R50). -/
theorem exec_status_of_noError {i : Instr} {s t : State} (hn : noError i s) (e : exec i s = .next t) :
    t.status = { s.status.completed with flag := t.status.flag } := by
  obtain ⟨completes, faults, -⟩ := commandsCompleteUnlessAWordIsUnwritten i s
  have hm : ¬ missesWord i s := fun hm => by simp [faults hn hm] at e
  obtain ⟨u, e', hu⟩ := completes hn hm
  obtain rfl : u = t := by simpa [e'] using e
  exact hu

/-- Settles O51: an error changes STATUS alone, to report the first code; a completion keeps ERR and ERRCODE. -/
theorem firstErrorIsReportedAlone : Obligations.FirstErrorIsReportedAlone := by
  refine ⟨fun _ _ _ h => exec_of_hasError h, fun i s t hn e => ?_⟩
  have hs := exec_status_of_noError hn e
  exact ⟨by rw [hs]; rfl, by rw [hs]; rfl⟩

/-! ## irq -/

theorem irq_iff (s : State) : irq s = true ↔ s.irqEn = true ∧ s.status.done = true := Bool.and_eq_true_iff

/-- A command that ends, with or without an error, has set DONE and kept IRQ_EN (R50, R116). -/
theorem exec_next_done {i : Instr} {s t : State} (e : exec i s = .next t) :
    t.irqEn = s.irqEn ∧ t.status.done = true := by
  rcases exec_endsAs i s with ⟨code, -, e'⟩ | ⟨-, -, e'⟩ | ⟨-, -, -, wk, -, e'⟩ | ⟨-, -, -, u, e', hu⟩
  · obtain rfl : raiseCmdError code s = t := by simpa [e'] using e
    exact ⟨rfl, rfl⟩
  · simp [e'] at e
  · obtain rfl : complete (writeY wk s) = t := by simpa [e'] using e
    exact ⟨rfl, rfl⟩
  · obtain rfl : u = t := by simpa [e'] using e
    obtain ⟨r0, r1, n, flag, rfl⟩ := hu.completed
    exact ⟨rfl, rfl⟩

/-- Settles O56: a write of STATUS or CMD clears DONE, one of CTRL clears IRQ_EN, and the end of a command sets DONE. -/
theorem interruptFollowsDone : Obligations.InterruptFollowsDone := by
  refine ⟨irq_iff, fun s t v e hv => ?_, fun s t v hb e => ?_, fun s t v e hv => ?_, fun i s t e => ?_⟩
  · obtain ⟨d, e'⟩ := statusWriteClearsNamedBits s v
    cases e'.symm.trans e
    simp [irq, hv]
  · obtain ⟨d, e'⟩ := cmdWriteWhileIdleIsAcceptance s v hb
    cases e'.symm.trans e
    simp [irq]
  · obtain ⟨⟨d, e'⟩, -⟩ := ctrlStoresIrqEnAlone s v
    cases e'.symm.trans e
    simp only [irq, hv, Bool.false_and]
  · obtain ⟨hen, hdone⟩ := exec_next_done e
    rw [irq, hen, hdone, Bool.and_true]

/-! ## The idle core -/

theorem coreTurn_idle {s : State} (hb : s.status.busy = false) : coreTurn s = .next s := by simp [coreTurn, hb]

/-- Settles O57: the step is a turn of the core, which is idle. -/
theorem idleCoreKeepsItsState : Obligations.IdleCoreKeepsItsState := fun s hb =>
  ⟨fun ha => (step_of_no_moves ha).trans (coreTurn_idle hb),
    fun rest ha => (step_of_core_move ha).trans (coreTurn_idle (s := s.withAgenda rest) hb)⟩

end Sys2Proof.Machine
end

section
/-! PROOFS of the statements of 70_reset_and_hazards.md: the host's accesses while BUSY (R133, R134). -/

namespace Sys2Proof.Machine

/-! ## The places a running command uses -/

/-- An 8-byte read at an 8-aligned mapped address reads the place there (R57). -/
theorem hostStep_read_at {s : State} {addr : BitVec 32} {q : Place} (h8 : addr.toNat % 8 = 0)
    (hq : placeAt s.pMax addr.toNat = some q) (v : Word) :
    hostStep ⟨.read, addr, .eight, v⟩ s = memRead q s := by
  rw [hostStep, served_eq rfl h8, hq]

/-- An 8-byte write at an 8-aligned mapped address writes the place there (R58). -/
theorem hostStep_write_at {s : State} {addr : BitVec 32} {q : Place} (h8 : addr.toNat % 8 = 0)
    (hq : placeAt s.pMax addr.toNat = some q) (v : Word) :
    hostStep ⟨.write, addr, .eight, v⟩ s = .next ((memWrite q v s).withResp (some writeResponse)) := by
  rw [hostStep, served_eq rfl h8, hq]

/-- The window is full up to R1_IM: a register stands at each 8-aligned offset (R26). -/
theorem exists_reg_offset {a : Nat} (h8 : a % 8 = 0) (h : a ≤ 0x88) : ∃ r : RegName, a = r.offset := by
  have scan : ∀ i < 32, 8 * i ≤ 0x88 → ∃ r ∈ RegName.all, 8 * i = r.offset := by decide
  obtain ⟨i, hi, rfl⟩ := window_offsets (by omega) h8
  obtain ⟨r, -, hr⟩ := scan i hi h
  exact ⟨r, hr⟩

/-- CMD and the operand registers, LEN to W_IM, are guarded (R26, R133). -/
theorem guarded_reg_iff (r : RegName) : (Place.reg r).guarded = true ↔
    r.offset = 0x10 ∨ (0x20 ≤ r.offset ∧ r.offset ≤ 0x68) := by cases r <;> decide

/-- The result registers, R0_RE to R1_IM, are unstable (R26, R134). -/
theorem unstable_reg_iff (r : RegName) : (Place.reg r).unstable = true ↔
    0x70 ≤ r.offset ∧ r.offset ≤ 0x88 := by cases r <;> decide

/-- The addresses of R133 are those of guarded places. -/
theorem exists_placeAt_guarded {p : PMax} {a : Nat} (h8 : a % 8 = 0)
    (h : a = 0x10 ∨ (0x20 ≤ a ∧ a ≤ 0x68) ∨ (0x01000000 ≤ a ∧ a < 0x01000000 + 16 * 2 ^ p.val) ∨
      (0x02000000 ≤ a ∧ a < 0x02000000 + 16 * 2 ^ p.val)) :
    ∃ q : Place, q.guarded = true ∧ placeAt p a = some q := by
  rcases or_assoc.2 h with hreg | hx | hy
  · obtain ⟨r, rfl⟩ := exists_reg_offset h8 (by omega)
    exact ⟨.reg r, (guarded_reg_iff r).2 hreg, placeAt_offset p r⟩
  · exact ⟨.xWord a, rfl, placeAt_x hx⟩
  · exact ⟨.yWord a, rfl, placeAt_y hy⟩

/-- The addresses of R134, but for STATUS, are those of unstable places. -/
theorem exists_placeAt_unstable {p : PMax} {a : Nat} (h8 : a % 8 = 0)
    (h : (0x70 ≤ a ∧ a ≤ 0x88) ∨ (0x02000000 ≤ a ∧ a < 0x02000000 + 16 * 2 ^ p.val)) :
    ∃ q : Place, q.unstable = true ∧ placeAt p a = some q := by
  rcases h with hreg | hy
  · obtain ⟨r, rfl⟩ := exists_reg_offset h8 hreg.2
    exact ⟨.reg r, (unstable_reg_iff r).2 hreg, placeAt_offset p r⟩
  · exact ⟨.yWord a, rfl, placeAt_y hy⟩

/-! ## Writes -/

theorem memWrite_guarded_busy {s : State} (hb : s.status.busy = true) {q : Place} (hg : q.guarded = true) (v : Word) :
    memWrite q v s = s.withStatus { s.status with haz := true } := if_pos (by simp [hb, hg])

/-- Settles O25: a guarded place drops the write; CTRL and STATUS are not guarded; the rest ignores it. -/
theorem writesWhileBusy : Obligations.WritesWhileBusy := by
  intro s v addr h8
  refine ⟨fun hb h => ⟨none, ?_⟩, fun h => ?_, fun h => ⟨none, ?_⟩,
    (readOnlyAndReservedIgnoreWrites s v addr h8).1⟩
  · obtain ⟨q, hg, hq⟩ := exists_placeAt_guarded h8 h
    rw [hostStep_write_at h8 hq, memWrite_guarded_busy hb hg]
    rfl
  · obtain rfl : addr = 0x08#32 := BitVec.eq_of_toNat_eq h
    exact (ctrlStoresIrqEnAlone s v).1
  · obtain rfl : addr = 0x18#32 := BitVec.eq_of_toNat_eq h
    refine (hostStep_write_offset s v .status).trans ?_
    rw [memWrite_reg_unguarded rfl]
    rfl

/-! ## Reads -/

theorem memRead_unstable_busy {s : State} (hb : s.status.busy = true) {q : Place} (hu : q.unstable = true) :
    memRead q s = answerRead (drawRead s).1 (drawRead s).2 := if_pos (by simp [hb, hu])

theorem memRead_status_busy {s : State} (hb : s.status.busy = true) : memRead (.reg .status) s =
    answerRead (statusWord { s.status with flag := (drawRead s).1.getLsbD 4 }) (drawRead s).2 := by
  simp [memRead, Place.unstable, hb]

/-- A written word of X is read as it is, BUSY or not (R57, R134). -/
theorem memRead_xWord {s : State} {a : Nat} {v : Word} (hv : memWord s.mem a = some v) :
    memRead (.xWord a) s = answerRead v s := by simp [memRead, Place.unstable, hv]

/-- The registers whose reads are never draws, not even in one bit (R134). -/
def stableRegs : List RegName := RegName.all.filter fun r => !(Place.reg r).unstable && r != .status

theorem hostStep_read_stable {r : RegName} (h : r ∈ stableRegs) (s : State) (v : Word) :
    hostStep ⟨.read, BitVec.ofNat 32 r.offset, .eight, v⟩ s = answerRead (readReg s r) s := by
  obtain ⟨hu, hr⟩ : (Place.reg r).unstable = false ∧ r ≠ .status := by
    simpa [stableRegs] using (List.mem_filter.1 h).2
  exact (hostStep_read_offset s v r).trans (memRead_reg_stable hu hr s)

/-- Settles O26: an unstable place answers a draw, STATUS one with FLAG drawn, a stable register or a written word of X
itself. -/
theorem readsWhileBusy : Obligations.ReadsWhileBusy := by
  intro s addr hb h8
  refine ⟨fun h => ?_, fun h => ⟨(drawRead s).1.getLsbD 4, ?_⟩, fun v h => ?_, fun v hx hv => ?_⟩
  · obtain ⟨q, hu, hq⟩ := exists_placeAt_unstable h8 h
    exact (hostStep_read_at h8 hq _).trans (memRead_unstable_busy hb hu)
  · obtain rfl : addr = 0x18#32 := BitVec.eq_of_toNat_eq h
    exact (hostStep_read_offset s _ .status).trans (memRead_status_busy hb)
  · rw [← idWord_eq, ← ctrlWord_eq] at h
    have listed : (addr, v) ∈ stableRegs.map fun r => (BitVec.ofNat 32 r.offset, readReg s r) := h
    obtain ⟨r, hr, e⟩ := List.mem_map.1 listed
    obtain ⟨rfl, rfl⟩ := Prod.mk.inj e
    exact hostStep_read_stable hr s _
  · exact (hostStep_read_at h8 (placeAt_x hx) _).trans (memRead_xWord hv)

end Sys2Proof.Machine
end

section
/-! PROOFS of the statements of 70_reset_and_hazards.md: an accepted command completes (R50, R137). -/

namespace Sys2Proof.Machine

/-! ## The moves while BUSY -/

/-- The core's turn while BUSY ends the command, or meets a word that nothing has written (R48, R50). -/
theorem coreTurn_busy {s : State} (hb : s.status.busy = true) :
    (∃ t, coreTurn s = .next t ∧ t.status.busy = false) ∨ coreTurn s = .fault .unwrittenSample := by
  rcases coreTurn_cases s with ⟨hi, -⟩ | ⟨-, i, -, e⟩ | ⟨-, why, -, e⟩
  · simp [hb] at hi
  · rw [e]
    rcases exec_endsAs i s with ⟨code, -, e⟩ | ⟨-, -, e⟩ | ⟨-, -, -, wk, -, e⟩ | ⟨-, -, -, t, e, -⟩
    · exact .inl ⟨_, e, rfl⟩
    · exact .inr e
    · exact .inl ⟨_, e, rfl⟩
    · obtain ⟨-, ht, -⟩ := exec_next_keeps e
      exact .inl ⟨t, e, ht⟩
  · exact .inl ⟨_, e, rfl⟩

theorem writeReg_busy {s : State} (hb : s.status.busy = true) (r : RegName) (v : Word) :
    (writeReg s r v).status.busy = true := by
  cases r with
  | cmd => rfl
  | _ => exact hb

/-- No host write ends a command: it can leave BUSY 1 only (R31, R36, R133). -/
theorem memWrite_busy {s : State} (hb : s.status.busy = true) (p : Place) (v : Word) :
    (memWrite p v s).status.busy = true := by
  rcases memWrite_cases p v s with ⟨-, -, e⟩ | ⟨r, -, -, e⟩ | ⟨-, e⟩ | ⟨-, a, -, e⟩ <;> rw [e]
  · exact hb
  · exact writeReg_busy hb r v
  · exact hb
  · exact hb

/-- A transaction while BUSY leaves BUSY and the pending moves as they are, or reads a word that nothing has written. -/
theorem hostStep_keeps_busy {s : State} (hb : s.status.busy = true) (tr : Transaction) :
    (∃ u, hostStep tr s = .next u ∧ u.status.busy = true ∧ u.agenda = s.agenda) ∨
      hostStep tr s = .fault .unwrittenSample := by
  have agenda : ∀ u, hostStep tr s = .next u → u.agenda = s.agenda := fun u e => by
    obtain ⟨_, _, _, _, rfl, -⟩ := hostStep_busy hb e
    rfl
  rcases hostStep_cases tr s with ⟨-, e⟩ | ⟨p, -, -, e⟩ | ⟨p, -, -, e⟩
  · exact .inl ⟨_, e, hb, agenda _ e⟩
  · rcases memRead_cases p s with ⟨v, e'⟩ | ⟨-, v, e'⟩ | ⟨a, -, -, e'⟩ <;> rw [e'] at e
    · exact .inl ⟨_, e, hb, agenda _ e⟩
    · exact .inl ⟨_, e, hb, agenda _ e⟩
    · exact .inr e
  · exact .inl ⟨_, e, memWrite_busy hb p _, agenda _ e⟩

/-! ## Runs -/

/-- After `k` steps BUSY is 0, or one of them has met a word that nothing has written. -/
def EndsAfter (k : Nat) (s : State) : Prop :=
  (∃ t, Sys2Proof.core.run k s = .next t ∧ t.status.busy = false) ∨
    Sys2Proof.core.run k s = .fault .unwrittenSample

theorem EndsAfter.succ {k : Nat} {s t : State} (e : step s = .next t) (h : EndsAfter k t) : EndsAfter (k + 1) s := by
  rwa [EndsAfter, core_run_next e]

theorem endsAfter_of_fault {s : State} (e : step s = .fault .unwrittenSample) : EndsAfter 1 s :=
  .inr (core_run_fault e 0)

/-- One step is enough where it is the core's turn. -/
theorem endsAfter_of_coreTurn {s s' : State} (hb : s'.status.busy = true) (e : step s = coreTurn s') :
    EndsAfter 1 s := by
  rcases coreTurn_busy hb with ⟨t, e', ht⟩ | e'
  · exact .succ (e.trans e') (.inl ⟨t, core_run_zero t, ht⟩)
  · exact endsAfter_of_fault (e.trans e')

/-- Settles O59, by induction on the pending moves: the first turn of the core ends the command, and the host's
transactions before it leave BUSY and the rest of the agenda. -/
theorem acceptedCommandsComplete : Obligations.AcceptedCommandsComplete := by
  intro s hb
  show ∃ k ≤ s.agenda.length + 1, EndsAfter k s
  induction ha : s.agenda generalizing s with
  | nil => exact ⟨1, by simp, endsAfter_of_coreTurn hb (step_of_no_moves ha)⟩
  | cons mv rest ih =>
    cases mv with
    | core => exact ⟨1, by simp, endsAfter_of_coreTurn (s' := s.withAgenda rest) hb (step_of_core_move ha)⟩
    | host tr =>
      have e : step s = hostStep tr (s.withAgenda rest) := hostTurnIsOneTransaction s tr rest ha
      rcases hostStep_keeps_busy (s := s.withAgenda rest) hb tr with ⟨u, e', hu, hrest⟩ | e'
      · obtain ⟨k, hk, h⟩ := ih u hu hrest
        exact ⟨k + 1, by simpa using hk, h.succ (e.trans e')⟩
      · exact ⟨1, by simp, endsAfter_of_fault (e.trans e')⟩

end Sys2Proof.Machine
end
